-- ==== Sys2Proof/Word.lean ====
section
/-! DEFINITION. The word types of the block: the 32-bit word of every port and both address spaces (00_scope.md R8),
and the binary32 pattern (R10), which software sees as a word. Nothing else stands here: the arithmetic is in
Machine/Float32.lean. -/

namespace Sys2Proof

/-- The unit of every port and of both address spaces (30_encoding.md R100, 20_memory.md R91). -/
abbrev Word := BitVec 32

/-- An IEEE 754 binary32 pattern, sign in bit 31 (00_scope.md R10, 20_memory.md R91). -/
abbrev F32 := BitVec 32

/-- One byte of the patch RAM's storage (assumption log 4). -/
abbrev Byte := BitVec 8

/-- The state an external unit keeps inside a voice record (`ext`, `FILT`, `VFILT`, `math`): opaque to the block, a
finite sequence of words (10_state.md R33, R34, R39, R40; assumption log 6). -/
abbrev UnitData := List Word

end Sys2Proof
end

