-- ==== Sys2Proof/Machine/Records.lean ====
section
/-! DEFINITION. The plain records the architectural state is made of: interpolators (00_scope.md R13), oscillator and
envelope records (10_state.md R39, R40), operators (R34), voices (R23 to R33), queue entries (R36), frames
(40_host_commands.md R149) and the fault codes (60_exceptions.md R330). Types only. -/

namespace Sys2Proof.Machine

/-- `VOICE[v].STATE` (10_state.md R24). -/
inductive VoiceState where
  | idle
  | playing
  | releasing
  | stolen
  deriving DecidableEq, Repr, Inhabited

/-- The register `MODE` (10_state.md R21): 0 Poly, 1 Mono. -/
inductive VoiceMode where
  | poly
  | mono
  deriving DecidableEq, Repr, Inhabited

/-- An envelope's stage (10_state.md R40). -/
inductive EnvStage where
  | idle
  | delay
  | attack
  | decay
  | sustain
  | pianoSustain
  | release
  deriving DecidableEq, Repr, Inhabited

/-- `FILTER_TYPE` of an operator (10_state.md R34, 20_memory.md R85). -/
inductive FilterType where
  | off
  | lowPass
  | highPass
  | bandPass
  deriving DecidableEq, Repr, Inhabited

/-- The values of the register `FAULT` (60_exceptions.md R330); 7..255 are never written. -/
inductive FaultCode where
  | clear
  | illegalCommand
  | badAddress
  | notConfigured
  | badOperand
  | badPatch
  | numeric
  deriving DecidableEq, Repr, Inhabited

/-- An Interpolator record (00_scope.md R13). -/
structure Interp where
  cur : F32
  target : F32
  delta : F32
  remaining : Nat
  deriving DecidableEq, Repr, Inhabited

/-- An oscillator record (10_state.md R39). -/
structure Osc where
  phase : F32
  freq : F32
  pitchMul : F32
  waveform : BitVec 4
  ext : UnitData
  deriving DecidableEq, Repr, Inhabited

/-- An envelope parameter group (20_memory.md R84). -/
structure EnvParams where
  delay : F32
  attack : F32
  decay : F32
  sustain : F32
  release : F32
  attackRatio : F32
  decayRatio : F32
  releaseRatio : F32
  deriving DecidableEq, Repr, Inhabited

/-- An envelope record (10_state.md R40). -/
structure Envelope where
  stage : EnvStage
  level : F32
  infinite : Bool
  carrier : Bool
  delayRemaining : Nat
  params : EnvParams
  math : UnitData
  deriving DecidableEq, Repr, Inhabited

/-- An operator record `VOICE[v].OP[i]` (10_state.md R34). The modulator indexes are the u3 fields as they stand: 0..5
an operator, 7 none. -/
structure Operator where
  enabled : Bool
  carrier : Bool
  fixed : Bool
  waveform : BitVec 4
  filterType : FilterType
  mod0 : BitVec 3
  mod1 : BitVec 3
  mod2 : BitVec 3
  fbSrc : BitVec 3
  ampMod : F32
  pitchMod : F32
  panMod : F32
  filtCutoff : F32
  filtQ : F32
  osc : Osc
  env : Envelope
  filt : UnitData
  freq : Interp
  amp : Interp
  drive : Interp
  pan : Interp
  feedback : Interp
  fbState : F32
  deriving DecidableEq, Repr, Inhabited

/-- A voice record `VOICE[v]` (10_state.md R24 to R33). `key = none` is the spec's -1. -/
structure Voice where
  state : VoiceState
  key : Option Nat
  velocity : F32
  freq : F32
  sustained : Bool
  glide : Nat
  ops : List Operator
  prevMod : List F32
  filterEnv : Envelope
  pitchEnv : Envelope
  lfo1 : Osc
  lfo2 : Osc
  modLfo : Osc
  vfilt : UnitData
  deriving DecidableEq, Repr, Inhabited

/-- A VoiceRequest (10_state.md R36). -/
structure VoiceRequest where
  key : Nat
  freq : F32
  velocity : F32
  timestamp : Word
  monoRetrigger : Bool
  deriving DecidableEq, Repr, Inhabited

/-- A ReleaseRequest (10_state.md R36). -/
structure ReleaseRequest where
  key : Nat
  timestamp : Word
  deriving DecidableEq, Repr, Inhabited

/-- A SeqEntry of the mono sequence (10_state.md R36). -/
structure SeqEntry where
  key : Nat
  freq : F32
  velocity : F32
  deriving DecidableEq, Repr, Inhabited

/-- One frame of the frame port (30_encoding.md R100, 40_host_commands.md R149): two words, left first. -/
structure Frame where
  left : F32
  right : F32
  deriving DecidableEq, Repr, Inhabited

/-- The four operand-dependent operations whose NaN result has no pattern in the spec, and the square root
(assumption log 7). -/
inductive FloatOp where
  | add
  | sub
  | mul
  | div
  | sqrt
  deriving DecidableEq, Repr, Inhabited

end Sys2Proof.Machine
end

