-- ==== Sys2Proof/Config.lean ====
section
/-! DEFINITION. What the spec leaves to the implementation: the implementation parameters (00_scope.md R7), the
external units and their initial states (R5), each an uninterpreted constant with no body, and the one free value of
the arithmetic, the bits of a NaN. Machine/Params.lean gathers them into one `Params` record, brings the R7 constants
into their legal ranges, and is what the machine reads. -/

namespace Sys2Proof

open Machine

/-- The parameters of the model: R7's constants and R5's functions and initial states. Every rule is written over an
arbitrary such record; the machine is the instance `Machine.params`. -/
structure Params where
  /-- `MAX_VOICES` (R7), 2 to 128. -/
  maxVoices : Nat
  /-- `MAX_BLOCK` (R7), 1 to 65535. -/
  maxBlock : Nat
  /-- `STEAL_RELEASE_BIAS` (R7), strictly between 0 and 1. -/
  stealReleaseBias : F32
  /-- `FEEDBACK_BRIGHTNESS` (R7), above 0. -/
  feedbackBrightness : F32
  /-- `FEEDBACK_EMA` (R7), above 0, at most 1. -/
  feedbackEma : F32
  /-- `SILENCE_EPS` (R7), at least 0. -/
  silenceEps : F32
  /-- `VIBRATO_RANGE` (R7), at least 0. -/
  vibratoRange : F32
  /-- `WaveFn` (44_control_units.md R298): code, ext, phase, phase shift, effective frequency, FS. -/
  waveFn : BitVec 4 → UnitData → F32 → F32 → F32 → Word → F32 × UnitData
  /-- `EnvInit` of `EnvMath` (44_control_units.md R302): parameters, FS, isCarrier, kts, vs. -/
  envInit : EnvParams → Word → Bool → F32 → F32 → UnitData
  /-- `EnvStep` of `EnvMath` (R302): math, stage, level, S. -/
  envStep : UnitData → EnvStage → F32 → F32 → F32 × Bool
  /-- `PianoSustainFn` (44_control_units.md R307): envelope record, FS, falloff, relMul. -/
  pianoSustainFn : Envelope → Word → F32 → F32 → UnitData
  /-- `OpFilterFn` (43_operator_graph.md R271): type, state, cutoff, Q, x. -/
  opFilterFn : FilterType → UnitData → F32 → F32 → F32 → F32 × UnitData
  /-- `VoiceFilterFn` (41_lifecycle.md R214): state, l, r, cutoff, resonance, filter envelope, amount, aftertouch. -/
  voiceFilterFn : UnitData → F32 → F32 → F32 → F32 → F32 → F32 → F32 → F32 × F32 × UnitData
  /-- `DriveShapeFn` (43_operator_graph.md R270): x, drive. -/
  driveShapeFn : F32 → F32 → F32
  /-- `OpRatioFn` (42_voice_ops.md R238): coarse u8, fine. -/
  opRatioFn : BitVec 8 → F32 → F32
  /-- `AmpTargetFn` (42_voice_ops.md R239): output, velSens, keyScale, key, velocity. -/
  ampTargetFn : F32 → F32 → F32 → Nat → F32 → F32
  /-- `EnvScaleFn` (42_voice_ops.md R232): envKeyTrack, key, velocity. -/
  envScaleFn : F32 → Nat → F32 → F32 × F32
  /-- `PanFn` (43_operator_graph.md R273): pan, L, panMod. -/
  panFn : F32 → F32 → F32 → F32
  /-- `AmpBendFn` (41_lifecycle.md R214): bend, depth. -/
  ampBendFn : F32 → F32 → F32
  /-- `KeyFreqTable` (42_voice_ops.md R231). -/
  keyFreqTable : Nat → F32
  /-- `EXP2` (00_scope.md R10). -/
  exp2 : F32 → F32
  /-- `WAVE_EXT_INIT` (10_state.md R39). -/
  waveExtInit : UnitData
  /-- `OF_INIT` (10_state.md R34). -/
  ofInit : UnitData
  /-- `VF_INIT` (10_state.md R33). -/
  vfInit : UnitData
  /-- `ENV_MATH_INIT` (10_state.md R40). -/
  envMathInit : UnitData

namespace Config

/-- The implementation's `MAX_VOICES` before Machine/Params.lean brings it into R7's range. -/
opaque maxVoices : Nat
/-- The implementation's `MAX_BLOCK`. -/
opaque maxBlock : Nat
/-- The implementation's `STEAL_RELEASE_BIAS`. -/
opaque stealReleaseBias : F32
/-- The implementation's `FEEDBACK_BRIGHTNESS`. -/
opaque feedbackBrightness : F32
/-- The implementation's `FEEDBACK_EMA`. -/
opaque feedbackEma : F32
/-- The implementation's `SILENCE_EPS`. -/
opaque silenceEps : F32
/-- The implementation's `VIBRATO_RANGE`. -/
opaque vibratoRange : F32
/-- The oscillator waveform generator `WaveFn`. -/
opaque waveFn : BitVec 4 → UnitData → F32 → F32 → F32 → Word → F32 × UnitData
/-- `EnvInit` of the envelope segment arithmetic. -/
opaque envInit : EnvParams → Word → Bool → F32 → F32 → UnitData
/-- `EnvStep` of the envelope segment arithmetic. -/
opaque envStep : UnitData → EnvStage → F32 → F32 → F32 × Bool
/-- `PianoSustainFn`. -/
opaque pianoSustainFn : Envelope → Word → F32 → F32 → UnitData
/-- `OpFilterFn`. -/
opaque opFilterFn : FilterType → UnitData → F32 → F32 → F32 → F32 × UnitData
/-- `VoiceFilterFn`. -/
opaque voiceFilterFn : UnitData → F32 → F32 → F32 → F32 → F32 → F32 → F32 → F32 × F32 × UnitData
/-- `DriveShapeFn`. -/
opaque driveShapeFn : F32 → F32 → F32
/-- `OpRatioFn`. -/
opaque opRatioFn : BitVec 8 → F32 → F32
/-- `AmpTargetFn`. -/
opaque ampTargetFn : F32 → F32 → F32 → Nat → F32 → F32
/-- `EnvScaleFn`. -/
opaque envScaleFn : F32 → Nat → F32 → F32 × F32
/-- `PanFn`. -/
opaque panFn : F32 → F32 → F32 → F32
/-- `AmpBendFn`. -/
opaque ampBendFn : F32 → F32 → F32
/-- `KeyFreqTable`. -/
opaque keyFreqTable : Nat → F32
/-- `EXP2`. -/
opaque exp2 : F32 → F32
/-- `WAVE_EXT_INIT`. -/
opaque waveExtInit : UnitData
/-- `OF_INIT`. -/
opaque ofInit : UnitData
/-- `VF_INIT`. -/
opaque vfInit : UnitData
/-- `ENV_MATH_INIT`. -/
opaque envMathInit : UnitData

/-- The free value of the arithmetic: the sign and payload of the NaN an operation on two operands gives (the square
root passes its operand twice). The spec says a result is NaN and gives no pattern (00_scope.md R10; log 7). -/
opaque nanBits : FloatOp → F32 → F32 → BitVec 32

end Config

end Sys2Proof
end

