-- ==== Sys2Proof/Machine/Float32.lean ====
section
/-! DEFINITION. The numeric contract of 00_scope.md R10: binary32, round to nearest even, subnormal inputs read as
zero and subnormal results written as zero of the same sign. A finite value is held exactly as a whole number of units
of 2^-149 (the least subnormal), so each operation is one exact computation and one rounding. -/

namespace Sys2Proof.Machine

/-- +0.0. -/
def fZero : F32 := 0x00000000#32
/-- 1.0. -/
def fOne : F32 := 0x3F800000#32
/-- -1.0, the NOTE_ON sentinel for the key table (30_encoding.md R103). -/
def fNegOne : F32 := 0xBF800000#32
/-- 12.0, the semitones of an octave. -/
def fTwelve : F32 := 0x41400000#32
/-- +infinity. -/
def fInf : F32 := 0x7F800000#32

/-- The sign bit. -/
def fNeg (x : F32) : Bool := decide (2 ^ 31 ≤ x.toNat)

/-- The exponent field. -/
def fExp (x : F32) : Nat := x.toNat / 2 ^ 23 % 256

/-- The fraction field. -/
def fFrac (x : F32) : Nat := x.toNat % 2 ^ 23

def isNaN (x : F32) : Bool := fExp x == 255 && fFrac x != 0

def isInf (x : F32) : Bool := fExp x == 255 && fFrac x == 0

/-- Neither NaN nor infinite. -/
def isFinite (x : F32) : Bool := fExp x != 255

/-- A subnormal pattern read as zero of the same sign (R10). -/
def flush (x : F32) : F32 := if fExp x = 0 then BitVec.ofNat 32 (if fNeg x then 2 ^ 31 else 0) else x

/-- The magnitude of a finite pattern in units of 2^-149, a subnormal read as zero. -/
def fMag (x : F32) : Nat := if fExp x = 0 then 0 else (2 ^ 23 + fFrac x) * 2 ^ (fExp x - 1)

/-- The value of a finite pattern in units of 2^-149. -/
def fVal (x : F32) : Int := if fNeg x then -(fMag x : Int) else (fMag x : Int)

/-- A pattern from its sign and the remaining 31 bits. -/
def fPack (neg : Bool) (bits : Nat) : F32 := BitVec.ofNat 32 ((if neg then 2 ^ 31 else 0) + bits)

/-- `n` shifted right by `sh` places, rounded to nearest, ties to even. -/
def roundShift (n sh : Nat) : Nat :=
  let q := n / 2 ^ sh
  let r := n % 2 ^ sh
  if 2 ^ sh < 2 * r ∨ (2 * r = 2 ^ sh ∧ q % 2 = 1) then q + 1 else q

/-- The pattern nearest to the magnitude `n` in units of 2^-(149+s), ties to even; a magnitude that rounds to a
subnormal is zero (R10), one that rounds beyond the largest finite is infinity. -/
def roundMag (neg : Bool) (n s : Nat) : F32 :=
  let sh := max s (Nat.log2 n - 23)
  let bits := (sh - s) * 2 ^ 23 + roundShift n sh
  fPack neg (if 0x7F800000 ≤ bits then 0x7F800000 else if bits < 2 ^ 23 then 0 else bits)

/-- The NaN an operation gives: quiet, its sign and payload free (log 7). -/
def nanOf (op : FloatOp) (a b : F32) : F32 := Config.nanBits op a b ||| 0x7FC00000#32

/-- The sum of two patterns that are no NaN. -/
def addNum (op : FloatOp) (a b a' b' : F32) : F32 :=
  if isInf a then (if isInf b && fNeg a != fNeg b then nanOf op a' b' else a)
  else if isInf b then b
  else
    let v := fVal a + fVal b
    if v = 0 then fPack (fNeg a && fNeg b) 0 else roundMag (decide (v < 0)) v.natAbs 0

def negate (x : F32) : F32 := x ^^^ 0x80000000#32

/-- a + b. -/
def fadd (a b : F32) : F32 :=
  if isNaN a || isNaN b then nanOf .add a b else addNum .add a b a b

/-- a - b. -/
def fsub (a b : F32) : F32 :=
  if isNaN a || isNaN b then nanOf .sub a b else addNum .sub a (negate b) a b

/-- a × b. -/
def fmul (a b : F32) : F32 :=
  let neg := fNeg a != fNeg b
  if isNaN a || isNaN b then nanOf .mul a b
  else if isInf a || isInf b then
    (if (isFinite a && fMag a == 0) || (isFinite b && fMag b == 0) then nanOf .mul a b else fPack neg 0x7F800000)
  else roundMag neg (fMag a * fMag b) 149

/-- a / b. The quotient is taken to two places below the least unit, with a sticky place under it. -/
def fdiv (a b : F32) : F32 :=
  let neg := fNeg a != fNeg b
  if isNaN a || isNaN b then nanOf .div a b
  else if isInf a then (if isInf b then nanOf .div a b else fPack neg 0x7F800000)
  else if isInf b then fPack neg 0
  else if fMag b = 0 then (if fMag a = 0 then nanOf .div a b else fPack neg 0x7F800000)
  else
    let n := fMag a * 2 ^ 151
    roundMag neg (2 * (n / fMag b) + (if n % fMag b = 0 then 0 else 1)) 3

/-- The integer square root, bit by bit from place `i - 1` down. -/
def isqrtFrom (n : Nat) : Nat → Nat → Nat
  | 0, r => r
  | i + 1, r => if (r + 2 ^ i) * (r + 2 ^ i) ≤ n then isqrtFrom n i (r + 2 ^ i) else isqrtFrom n i r

/-- The integer square root of `n`. -/
def isqrt (n : Nat) : Nat := isqrtFrom n (Nat.log2 n / 2 + 1) 0

/-- sqrt(x). -/
def fsqrt (x : F32) : F32 :=
  if isNaN x then nanOf .sqrt x x
  else if isFinite x && fMag x == 0 then fPack (fNeg x) 0
  else if fNeg x then nanOf .sqrt x x
  else if isInf x then x
  else
    let n := fMag x * 2 ^ 153
    let r := isqrt n
    roundMag false (2 * r + (if r * r = n then 0 else 1)) 3

/-- The order of the patterns that are no NaN: both zeros at 0, infinities at the ends. -/
def fKey (x : F32) : Int :=
  let m : Nat := x.toNat % 2 ^ 31
  let k : Nat := if m < 2 ^ 23 then 0 else m
  if fNeg x then -(k : Int) else (k : Int)

/-- a == b; +0.0 == -0.0, and a NaN equals nothing. -/
def feq (a b : F32) : Bool := !isNaN a && !isNaN b && decide (fKey a = fKey b)

/-- a < b; false where either is NaN. -/
def flt (a b : F32) : Bool := !isNaN a && !isNaN b && decide (fKey a < fKey b)

/-- a <= b; false where either is NaN. -/
def fle (a b : F32) : Bool := !isNaN a && !isNaN b && decide (fKey a ≤ fKey b)

/-- abs(x) clears the sign bit (R10). -/
def fabs (x : F32) : F32 := x &&& 0x7FFFFFFF#32

/-- The f32 nearest to a natural number; exact below 2^24. -/
def fofNat (n : Nat) : F32 := roundMag false (n * 2 ^ 149) 0

/-- floor(x); x itself where x is infinite or NaN (R10), and a zero keeps its sign. -/
def ffloor (x : F32) : F32 :=
  if !isFinite x then x
  else if fMag x = 0 then fPack (fNeg x) 0
  else
    let q := fMag x / 2 ^ 149
    let up := fNeg x && fMag x % 2 ^ 149 != 0
    roundMag (fNeg x) ((if up then q + 1 else q) * 2 ^ 149) 0

/-- frac(x) = x - floor(x) as one subtraction, a result of exactly 1.0 replaced by +0.0 (R10). -/
def frac (x : F32) : F32 :=
  let r := fsub x (ffloor x)
  if r = fOne then fZero else r

/-- rint(x), the integer nearest to a finite x >= 0, ties to even (44_control_units.md R290); 0 outside that domain,
which no rule reaches (log 14). -/
def rint (x : F32) : Nat := if !isFinite x || fNeg x then 0 else roundShift (fMag x) 149

/-- lerp(a, b, t) = a + (b - a) × t, in that order (R10). -/
def lerp (a b t : F32) : F32 := fadd a (fmul (fsub b a) t)

end Sys2Proof.Machine
end

