-- ==== Sys2Proof/Machine/Params.lean ====
section
/-! DEFINITION. The parameters the machine runs with: the free constants of Config.lean, the R7 constants brought into
their legal ranges (00_scope.md R7; a constant outside its range is replaced by the reference value, so that every
legal value and no other is possible; log 5). -/

namespace Sys2Proof.Machine

/-- R7's legal ranges; a constant without an upper bound is a finite number (log 5). -/
def paramsLegal (P : Params) : Bool :=
  decide (2 ≤ P.maxVoices ∧ P.maxVoices ≤ 128) && decide (1 ≤ P.maxBlock ∧ P.maxBlock ≤ 65535)
    && (flt fZero P.stealReleaseBias && flt P.stealReleaseBias fOne)
    && (flt fZero P.feedbackBrightness && isFinite P.feedbackBrightness)
    && (flt fZero P.feedbackEma && fle P.feedbackEma fOne)
    && (fle fZero P.silenceEps && isFinite P.silenceEps)
    && (fle fZero P.vibratoRange && isFinite P.vibratoRange)

/-- `x` where it is legal, else the reference value of R7. -/
def within {α : Type} (ok : Bool) (x reference : α) : α := if ok then x else reference

/-- The machine's parameters. -/
def params : Params where
  maxVoices := within (decide (2 ≤ Config.maxVoices ∧ Config.maxVoices ≤ 128)) Config.maxVoices 8
  maxBlock := within (decide (1 ≤ Config.maxBlock ∧ Config.maxBlock ≤ 65535)) Config.maxBlock 4096
  stealReleaseBias :=
    within (flt fZero Config.stealReleaseBias && flt Config.stealReleaseBias fOne) Config.stealReleaseBias 0x3F000000#32
  feedbackBrightness :=
    within (flt fZero Config.feedbackBrightness && isFinite Config.feedbackBrightness) Config.feedbackBrightness
      0x3F000000#32
  feedbackEma :=
    within (flt fZero Config.feedbackEma && fle Config.feedbackEma fOne) Config.feedbackEma 0x3E800000#32
  silenceEps := within (fle fZero Config.silenceEps && isFinite Config.silenceEps) Config.silenceEps fZero
  vibratoRange := within (fle fZero Config.vibratoRange && isFinite Config.vibratoRange) Config.vibratoRange fOne
  waveFn := Config.waveFn
  envInit := Config.envInit
  envStep := Config.envStep
  pianoSustainFn := Config.pianoSustainFn
  opFilterFn := Config.opFilterFn
  voiceFilterFn := Config.voiceFilterFn
  driveShapeFn := Config.driveShapeFn
  opRatioFn := Config.opRatioFn
  ampTargetFn := Config.ampTargetFn
  envScaleFn := Config.envScaleFn
  panFn := Config.panFn
  ampBendFn := Config.ampBendFn
  keyFreqTable := Config.keyFreqTable
  exp2 := Config.exp2
  waveExtInit := Config.waveExtInit
  ofInit := Config.ofInit
  vfInit := Config.vfInit
  envMathInit := Config.envMathInit

/-! Power-on records (10_state.md R24 to R40), shared by reset (70_reset_and_hazards.md R360) and FullReset
(42_voice_ops.md R249). -/

/-- An Interpolator with all fields zero (10_state.md R21, R34). -/
def interpZero : Interp := ⟨fZero, fZero, fZero, 0⟩

/-- The power-on oscillator record (10_state.md R32). -/
def oscPowerOn (P : Params) : Osc := ⟨fZero, fZero, fOne, 0, P.waveExtInit⟩

/-- An envelope parameter group of zeros. -/
def envParamsZero : EnvParams := ⟨fZero, fZero, fZero, fZero, fZero, fZero, fZero, fZero⟩

/-- The Idle envelope record (10_state.md R40). -/
def envIdle (P : Params) : Envelope := ⟨.idle, fZero, false, false, 0, envParamsZero, P.envMathInit⟩

/-- The power-on operator record (10_state.md R34). -/
def operatorPowerOn (P : Params) : Operator where
  enabled := false
  carrier := false
  fixed := false
  waveform := 0
  filterType := .off
  mod0 := 7
  mod1 := 7
  mod2 := 7
  fbSrc := 7
  ampMod := fZero
  pitchMod := fZero
  panMod := fZero
  filtCutoff := fZero
  filtQ := fZero
  osc := oscPowerOn P
  env := envIdle P
  filt := P.ofInit
  freq := interpZero
  amp := interpZero
  drive := interpZero
  pan := interpZero
  feedback := interpZero
  fbState := fZero

/-- The power-on voice record (10_state.md R24 to R34). -/
def voicePowerOn (P : Params) : Voice where
  state := .idle
  key := none
  velocity := fZero
  freq := fZero
  sustained := false
  glide := 0
  ops := List.replicate 6 (operatorPowerOn P)
  prevMod := List.replicate 6 fZero
  filterEnv := envIdle P
  pitchEnv := envIdle P
  lfo1 := oscPowerOn P
  lfo2 := oscPowerOn P
  modLfo := oscPowerOn P
  vfilt := P.vfInit

end Sys2Proof.Machine
end

