-- ==== Sys2Proof/Machine/State.lean ====
section
/-! DEFINITION. The machine's state as plain data: everything 10_state.md R20 to R40, 20_memory.md R81 and
30_encoding.md R100 give the block; why a step can stop; and the state right after power-on reset
(70_reset_and_hazards.md R360). -/

namespace Sys2Proof.Machine

/-- Why the engine has no step. All are the spec's own waiting for the host (30_encoding.md R115,
70_reset_and_hazards.md R371, R380), raised by `step` alone, and safe: the model stops where the engine stands still. A
spec fault (60_exceptions.md R330) is no `Fault`: it is a next state with the register FAULT written. -/
inductive Fault where
  /-- Raised by `step` when no port holds a word: the engine waits at a command boundary where a run may end
  (60_exceptions.md R342, 70_reset_and_hazards.md R380). Safe. -/
  | commandPortEmpty
  /-- Raised by `step` when the command port holds no word and the response or the frame port still does: the engine
  waits, and a host that reads no more leaves the run stuck, not ended (R380, 93_implementation_defined.md U16). Safe. -/
  | outputUnread
  /-- Raised by `step` when a packet's payload has not arrived: the engine is stuck (30_encoding.md R115). Safe. -/
  | partialPacket
  deriving DecidableEq, Repr

/-- Why the model refuses. -/
inductive Refusal where
  /-- Raised by `exec` for an instruction that has no meaning yet; safe. No arm of this model is left so. -/
  | notModelled (mnemonic : String)
  deriving DecidableEq, Repr

/-- The architectural state. -/
structure State where
  /-- `CONFIGURED` (10_state.md R21). -/
  configured : Bool
  /-- `FS` (R21). -/
  fs : Word
  /-- `BLOCK_MAX` (R21). -/
  blockMax : Word
  /-- `MODE` (R21). -/
  mode : VoiceMode
  /-- `CUR_POLY` (R21). -/
  curPoly : Nat
  /-- `RESET_REQ` (R21). -/
  resetReq : Bool
  /-- `SWITCH_PENDING` (R21). -/
  switchPending : Bool
  /-- `HOST_SUSTAIN` (R21). -/
  hostSustain : Bool
  /-- `PREV_SUSTAIN` (R21). -/
  prevSustain : Bool
  /-- `FAULT` (R21, 60_exceptions.md R330). -/
  fault : FaultCode
  /-- `GLFO_PHASE` (R21). -/
  glfoPhase : F32
  /-- `G_BEND` (R21). -/
  gBend : Interp
  /-- `G_MOD` (R21). -/
  gMod : Interp
  /-- `G_AFT` (R21). -/
  gAft : Interp
  /-- `G_CUTOFF` (R21). -/
  gCutoff : Interp
  /-- `G_RESO` (R21). -/
  gReso : Interp
  /-- The voice pool `VOICE[0..MAX_VOICES-1]` (R23). -/
  voices : List Voice
  /-- `POLY_REQ` (R37), front first. -/
  polyReq : List VoiceRequest
  /-- `MONO_REQ` (R37). -/
  monoReq : List VoiceRequest
  /-- `REL_Q` (R37). -/
  relQ : List ReleaseRequest
  /-- `MONO_SEQ` (R37). -/
  monoSeq : List SeqEntry
  /-- `KEYMAP[0..127]` (R38); `none` is -1. -/
  keymap : List (Option Nat)
  /-- The patch RAM (20_memory.md R81), in the canonical form of Machine/Memory.lean. -/
  patch : List Host.Cell
  /-- The words the host has sent and the engine has not taken (30_encoding.md R100; log 1). -/
  cmdPort : List Word
  /-- The response words the host has not taken, oldest first (R100; log 3). -/
  respPort : List Word
  /-- The frames the host has not taken, oldest first (R100, 40_host_commands.md R149; log 3). -/
  framePort : List Frame
  deriving DecidableEq, Repr

/-- Power-on reset under the parameters `P` (70_reset_and_hazards.md R360). The patch RAM lists nothing: an unlisted
byte reads as its default. -/
def resetWith (P : Params) : State where
  configured := false
  fs := 0
  blockMax := 0
  mode := .poly
  curPoly := P.maxVoices
  resetReq := false
  switchPending := false
  hostSustain := false
  prevSustain := false
  fault := .clear
  glfoPhase := fZero
  gBend := interpZero
  gMod := interpZero
  gAft := interpZero
  gCutoff := interpZero
  gReso := interpZero
  voices := List.replicate P.maxVoices (voicePowerOn P)
  polyReq := []
  monoReq := []
  relQ := []
  monoSeq := []
  keymap := List.replicate 128 none
  patch := []
  cmdPort := []
  respPort := []
  framePort := []

/-- The state right after power-on reset. -/
def State.reset : State := resetWith params

end Sys2Proof.Machine
end

