-- ==== Sys2Proof/Machine/Flags.lean ====
section
/-! DEFINITION. The status conditions. The block has no arithmetic flags (40_host_commands.md, template note); its
status bits are the condition HALTED (10_state.md R22), the codes of STATE, FAULT and MODE (R21, R24, 60_exceptions.md
R330), and the ENGINE and VOICE_STATUS words they are packed into (20_memory.md R90). -/

namespace Sys2Proof.Machine

/-- The number of a fault code (60_exceptions.md R330). -/
def faultNumber : FaultCode → Nat
  | .clear => 0
  | .illegalCommand => 1
  | .badAddress => 2
  | .notConfigured => 3
  | .badOperand => 4
  | .badPatch => 5
  | .numeric => 6

/-- The code of a voice's STATE (10_state.md R24). -/
def voiceStateNumber : VoiceState → Nat
  | .idle => 0
  | .playing => 1
  | .releasing => 2
  | .stolen => 3

/-- The code of an envelope's stage (10_state.md R40). -/
def envStageNumber : EnvStage → Nat
  | .idle => 0
  | .delay => 1
  | .attack => 2
  | .decay => 3
  | .sustain => 4
  | .pianoSustain => 5
  | .release => 6

/-- The bit of `MODE` (10_state.md R21). -/
def modeNumber : VoiceMode → Nat
  | .poly => 0
  | .mono => 1

/-- HALTED: `FAULT != 0` (10_state.md R22). -/
def State.halted (s : State) : Bool := s.fault != .clear

/-- One bit at place `k` of a status word. -/
def bitAt (b : Bool) (k : Nat) : Nat := if b then 2 ^ k else 0

/-- Playing or Releasing: a live voice (41_lifecycle.md R193, R222, 20_memory.md R90 COUNTS). -/
def isLive (st : VoiceState) : Bool := st == .playing || st == .releasing

/-- The status word ENGINE (20_memory.md R90). -/
def engineWord (P : Params) (s : State) : Word :=
  BitVec.ofNat 32
    (bitAt s.configured 0 + modeNumber s.mode * 2 ^ 1 + bitAt s.resetReq 2 + bitAt s.switchPending 3
      + bitAt s.hostSustain 4 + bitAt s.prevSustain 5 + bitAt s.halted 6 + s.curPoly % 256 * 2 ^ 8
      + P.maxVoices % 256 * 2 ^ 16)

/-- A key field of 8 bits, 0xFF for -1 (20_memory.md R90, 00_scope.md R9). -/
def keyField : Option Nat → Nat
  | none => 0xFF
  | some k => k % 256

/-- The status word VOICE_STATUS (20_memory.md R90), `done` being IsDone. -/
def voiceStatusWord (v : Voice) (done : Bool) : Word :=
  BitVec.ofNat 32 (voiceStateNumber v.state + bitAt v.sustained 2 + bitAt done 3 + keyField v.key * 2 ^ 8)

end Sys2Proof.Machine
end

