-- ==== Sys2Proof/Machine/PatchMap.lean ====
section
/-! DEFINITION. The patch RAM map (20_memory.md R82 to R86): which word addresses exist, each field's type, legal range
and default, as the tables give them. -/

namespace Sys2Proof.Machine

/-- What a patch word may hold at a RENDER (20_memory.md R82 to R86, R88). -/
inductive FieldRange where
  /-- A u32 between two bounds, both allowed. -/
  | u32 (lo hi : Nat)
  /-- An f32 between two bounds, both allowed. -/
  | closed (lo hi : F32)
  /-- An f32 above the lower bound and at most the upper. -/
  | aboveLo (lo hi : F32)
  /-- An f32 from the lower bound on and below the upper. -/
  | belowHi (lo hi : F32)
  /-- The FLAGS word (R85). -/
  | flags
  /-- The MODS word of operator `i` (R86, R88 V4 and V5). -/
  | mods (i : Nat)
  deriving DecidableEq, Repr

/-- One row of the patch map. -/
structure PatchRow where
  addr : Nat
  range : FieldRange
  reset : Word
  deriving DecidableEq, Repr

/-- The envelope group at word address `e` (R84). -/
def envRows (e : Nat) : List PatchRow :=
  [ ⟨e + 0, .closed fZero 0x41200000#32, fZero⟩          -- DELAY [0, 10]
  , ⟨e + 1, .closed fZero fOne, fZero⟩                   -- ATTACK
  , ⟨e + 2, .closed fZero fOne, fZero⟩                   -- DECAY
  , ⟨e + 3, .closed fZero fOne, fOne⟩                    -- SUSTAIN
  , ⟨e + 4, .closed fZero fOne, fZero⟩                   -- RELEASE
  , ⟨e + 5, .aboveLo fZero 0x42C80000#32, 0x3E99999A#32⟩ -- ATTACK_RATIO (0, 100], 0.3
  , ⟨e + 6, .aboveLo fZero 0x42C80000#32, 0x38D1B717#32⟩ -- DECAY_RATIO, 0.0001
  , ⟨e + 7, .aboveLo fZero 0x42C80000#32, 0x38D1B717#32⟩ -- RELEASE_RATIO, 0.0001
  ]

/-- The global group (R82). -/
def globalRows (P : Params) : List PatchRow :=
  [ ⟨0x000, .u32 0 1, 0⟩                                     -- VOICE_MODE
  , ⟨0x001, .u32 1 P.maxVoices, BitVec.ofNat 32 P.maxVoices⟩ -- POLYPHONY (R88 V7)
  , ⟨0x002, .u32 0 1, 0⟩                                     -- SUSTAIN_TYPE
  , ⟨0x003, .closed fZero fOne, 0x3F000000#32⟩               -- PIANO_FALLOFF, 0.5
  , ⟨0x004, .aboveLo fZero 0x41800000#32, fOne⟩              -- PIANO_REL_MUL (0, 16]
  , ⟨0x005, .closed fZero 0x41200000#32, fZero⟩              -- GLIDE [0, 10]
  , ⟨0x006, .closed fZero 0x42400000#32, 0x40000000#32⟩      -- BEND_RANGE [0, 48], 2.0
  , ⟨0x007, .closed fZero fOne, fZero⟩                       -- AMP_BEND
  , ⟨0x008, .closed fZero 0x42C80000#32, fOne⟩               -- LFO_RATE [0, 100]
  , ⟨0x009, .u32 0 15, 0⟩                                    -- LFO_WAVE1
  , ⟨0x00A, .u32 0 15, 0⟩                                    -- LFO_WAVE2
  , ⟨0x00B, .closed fZero fOne, fZero⟩                       -- LFO_BLEND
  , ⟨0x00C, .u32 0 15, 0⟩                                    -- MODLFO_WAVE
  , ⟨0x00D, .closed fZero 0x42C80000#32, fOne⟩               -- MODLFO_SPEED [0, 100]
  , ⟨0x00E, .closed fZero fOne, fZero⟩                       -- MODLFO_DEPTH
  , ⟨0x00F, .closed 0xC2400000#32 0x42400000#32, fZero⟩      -- PITCH_ENV_AMOUNT [-48, 48]
  ] ++ envRows 0x010                                         -- PITCH_ENV
    ++ envRows 0x018 ++                                      -- FILTER_ENV
  [ ⟨0x020, .closed fZero fOne, fOne⟩                        -- CUTOFF
  , ⟨0x021, .closed fZero fOne, fZero⟩                       -- RESONANCE
  , ⟨0x022, .closed fNegOne fOne, fZero⟩                     -- FILTER_ENV_AMOUNT
  ]

/-- The base of operator `i`'s group (R83). -/
def opBase (i : Nat) : Nat := 0x040 + 0x20 * i

/-- The operator group `i` (R83). -/
def opRows (i : Nat) : List PatchRow :=
  [ ⟨opBase i + 0x00, .flags, if i = 0 then 0x00000003#32 else 0⟩ -- FLAGS
  , ⟨opBase i + 0x01, .mods i, 0x00000FFF#32⟩                     -- MODS
  , ⟨opBase i + 0x02, .u32 1 255, 1⟩                              -- COARSE (R88 V6)
  , ⟨opBase i + 0x03, .belowHi fZero fOne, fZero⟩                 -- FINE [0, 1)
  , ⟨opBase i + 0x04, .aboveLo fZero 0x46BB8000#32, 0x43DC0000#32⟩ -- FIXED_HZ (0, 24000], 440
  , ⟨opBase i + 0x05, .closed fZero fOne, fOne⟩                   -- OUTPUT
  , ⟨opBase i + 0x06, .closed fZero fOne, fZero⟩                  -- VEL_SENS
  , ⟨opBase i + 0x07, .closed fZero fOne, fZero⟩                  -- KEY_SCALE
  , ⟨opBase i + 0x08, .closed fZero fOne, fZero⟩                  -- DRIVE
  , ⟨opBase i + 0x09, .closed fZero fOne, 0x3F000000#32⟩          -- PAN, 0.5
  , ⟨opBase i + 0x0A, .closed fZero fOne, fZero⟩                  -- FEEDBACK
  , ⟨opBase i + 0x0B, .closed fZero fOne, fZero⟩                  -- AMP_MOD
  , ⟨opBase i + 0x0C, .closed fZero fOne, fZero⟩                  -- PITCH_MOD
  , ⟨opBase i + 0x0D, .closed fZero fOne, fZero⟩                  -- PAN_MOD
  , ⟨opBase i + 0x0E, .closed fZero fOne, fOne⟩                   -- FILT_CUTOFF
  , ⟨opBase i + 0x0F, .closed fZero fOne, fZero⟩                  -- FILT_Q
  ] ++ envRows (opBase i + 0x10) ++                               -- ENV
  [ ⟨opBase i + 0x18, .closed fZero fOne, fZero⟩ ]                -- ENV_KEY_TRACK

/-- Every defined patch word. -/
def patchRows (P : Params) : List PatchRow := globalRows P ++ (List.range 6).flatMap opRows

/-- The row of a word address, `none` for a reserved word or an address above 0x0FF (R81, R87). -/
def patchRow? (P : Params) (addr : Nat) : Option PatchRow :=
  if addr < 0x040 then (globalRows P).find? (fun r => r.addr == addr)
  else if addr < 0x100 then (opRows ((addr - 0x040) / 0x20)).find? (fun r => r.addr == addr)
  else none

/-- Whether a word address is a defined patch word (R81, R87). -/
def patchDefined (P : Params) (addr : Nat) : Bool := (patchRow? P addr).isSome

/-- The default of a patch word (R82 to R84), 0 where no word is defined. -/
def patchDefault (P : Params) (addr : Nat) : Word :=
  match patchRow? P addr with
  | some r => r.reset
  | none => 0

end Sys2Proof.Machine
end

