-- ==== Sys2Proof/Machine/Memory.lean ====
section
/-! DEFINITION. The patch RAM (20_memory.md R81) as a list of (byte address, byte) pairs in one canonical form:
addresses strictly rising, no pair equal to what an unlisted address reads as. An unlisted byte reads as the power-on
default (70_reset_and_hazards.md R360). Byte `4 × addr + k` holds bits [8k+7:8k] of word `addr`: no command can see
which byte is which (R91; log 4), and the words are what the commands read and write (R93). -/

namespace Sys2Proof.Machine

/-- Byte `k` of a word, the least significant first. -/
def byteOfWord (w : Word) (k : Nat) : Byte := w.extractLsb' (8 * k) 8

/-- What a byte nothing has written reads as: its byte of the default word. -/
def unlistedByte (P : Params) (a : Nat) : Byte := byteOfWord (patchDefault P (a / 4)) (a % 4)

/-- The byte at a byte address. -/
def readByte (P : Params) (m : List Host.Cell) (a : Nat) : Byte :=
  match m with
  | [] => unlistedByte P a
  | (b, x) :: rest => if b = a then x else readByte P rest a

/-- The list with the cell of `a` set to `x`, or without it where `x` is what `a` reads as unlisted. -/
def writeByte (P : Params) (m : List Host.Cell) (a : Nat) (x : Byte) : List Host.Cell :=
  match m with
  | [] => if x = unlistedByte P a then [] else [(a, x)]
  | (b, y) :: rest =>
    if a < b then (if x = unlistedByte P a then (b, y) :: rest else (a, x) :: (b, y) :: rest)
    else if a = b then (if x = unlistedByte P a then rest else (a, x) :: rest)
    else (b, y) :: writeByte P rest a x

/-- `MemRead(addr, 4)` (00_scope.md R11). -/
def readWord (P : Params) (m : List Host.Cell) (addr : Nat) : Word :=
  readByte P m (4 * addr + 3) ++ readByte P m (4 * addr + 2) ++ readByte P m (4 * addr + 1) ++ readByte P m (4 * addr)

/-- `MemWrite(addr, 4, w)` (00_scope.md R11). -/
def writeWord (P : Params) (m : List Host.Cell) (addr : Nat) (w : Word) : List Host.Cell :=
  writeByte P (writeByte P (writeByte P (writeByte P m (4 * addr) (byteOfWord w 0)) (4 * addr + 1) (byteOfWord w 1))
    (4 * addr + 2) (byteOfWord w 2)) (4 * addr + 3) (byteOfWord w 3)

/-- Every cell lies at or above `lo`, the addresses rise, and no cell is what an unlisted one reads as. -/
def memoryWfFrom (P : Params) (lo : Nat) (m : List Host.Cell) : Bool :=
  match m with
  | [] => true
  | (a, x) :: rest => decide (lo ≤ a) && decide (x ≠ unlistedByte P a) && memoryWfFrom P (a + 1) rest

/-- The canonical form of the patch RAM. -/
def Memory.wf (P : Params) (m : List Host.Cell) : Bool := memoryWfFrom P 0 m

end Sys2Proof.Machine
end

