-- ==== Sys2Proof/Machine/Ops.lean ====
section
/-! DEFINITION. The named operations the commands share: the voice pool and the key map, the queue primitives
(00_scope.md R12), the ports (R11), raising a fault (60_exceptions.md R331, R332: the block's only exception; there is
no return from one, R336) and the discarding of packets while HALTED (40_host_commands.md R140). -/

namespace Sys2Proof.Machine

/-! ### Voice pool and key map -/

/-- `VOICE[v]` (10_state.md R23); an index outside the pool, which no rule forms, reads a blank record (log 16). -/
def State.voice (s : State) (v : Nat) : Voice := s.voices.getD v default

/-- `VOICE[v] <- x`. -/
def State.setVoice (s : State) (v : Nat) (x : Voice) : State := { s with voices := s.voices.set v x }

/-- `KEYMAP[k]` (10_state.md R38). -/
def State.keyVoice (s : State) (k : Nat) : Option Nat := s.keymap.getD k none

/-- `KEYMAP[k] <- v`. -/
def State.setKey (s : State) (k : Nat) (v : Option Nat) : State := { s with keymap := s.keymap.set k v }

/-- `if k != -1: KEYMAP[k] <- -1`. -/
def State.clearKey (s : State) (k : Option Nat) : State :=
  match k with
  | none => s
  | some k => s.setKey k none

/-- `for v in 0..MAX_VOICES-1: f v`. -/
def forVoices (P : Params) (f : Nat → State → State) (s : State) : State :=
  (List.range P.maxVoices).foldl (fun t v => f v t) s

/-! ### Queue primitives (00_scope.md R12): index 0 is the front, `++ [e]` pushes back, `e ::` pushes front -/

/-- `find_key(q, k) != -1`. -/
def hasKey {α : Type} (key : α → Nat) (k : Nat) (q : List α) : Bool := q.any (fun e => key e == k)

/-- `remove_key(q, k)`. -/
def removeKey {α : Type} (key : α → Nat) (k : Nat) (q : List α) : List α := q.filter (fun e => key e != k)

/-- `while len(q) >= n: pop_front(q)` (40_host_commands.md R141). -/
def popWhileFull {α : Type} (n : Nat) : List α → List α
  | [] => []
  | e :: q => if n ≤ q.length + 1 then popWhileFull n q else e :: q

/-! ### Ports (00_scope.md R11) -/

/-- `respond(w)`. -/
def respond (w : Word) (s : State) : State := { s with respPort := s.respPort ++ [w] }

/-- `emit(l, r)`. -/
def emit (l r : F32) (s : State) : State := { s with framePort := s.framePort ++ [⟨l, r⟩] }

/-! ### Faults -/

/-- The zero word that ends the response a command owes (60_exceptions.md R332). -/
def endResponse (owes : Bool) (s : State) : State := if owes then respond 0 s else s

/-- `raise Fault(code)` (60_exceptions.md R331): FAULT keeps the first code (R333), and the response the command owes
ends with 0. The caller runs nothing after it. -/
def raise (code : FaultCode) (owes : Bool) (s : State) : State :=
  endResponse owes { s with fault := if s.fault = .clear then code else s.fault }

/-- A command other than STATUS_READ: executed unless HALTED, else discarded (40_host_commands.md R140, 60_exceptions.md
R332). -/
def unlessHalted (owes : Bool) (run : State → State) (s : State) : State :=
  if s.halted then endResponse owes s else run s

end Sys2Proof.Machine
end

