-- ==== Sys2Proof/Machine/Operands.lean ====
section
/-! DEFINITION. How operands are read and checked: f32 payloads (30_encoding.md R113), the range checks of the commands
(40_host_commands.md R141, R146, R150), patch fields and their validation (20_memory.md R84 to R88), and the render
snapshot (R80) as one record. -/

namespace Sys2Proof.Machine

/-! ### Command operands -/

/-- An f32 payload: its pattern, a subnormal read as zero of the same sign before any check (R113). -/
def operandF32 (w : Word) : F32 := flush w

/-- NOTE_ON's frequency: exactly -1.0, or finite and above 0 (R141). -/
def freqLegal (f : F32) : Bool := feq f fNegOne || (isFinite f && flt fZero f)

/-- A finite value from `lo` to `hi`. -/
def finiteBetween (lo hi x : F32) : Bool := isFinite x && fle lo x && fle x hi

/-- A velocity, modulation or aftertouch: finite and in [0, 1] (R141, R146). -/
def unitLegal (x : F32) : Bool := finiteBetween fZero fOne x

/-- The bend wheel: finite and in [-1, 1] (R146). -/
def bendLegal (x : F32) : Bool := finiteBetween fNegOne fOne x

/-- The sample rate of SET_SAMPLING (R150). -/
def sampleRateLegal (sr : Word) : Bool := decide (1000 ≤ sr.toNat ∧ sr.toNat ≤ 384000)

/-- The block size of SET_SAMPLING (R150). -/
def blockSizeLegal (P : Params) (spb : Word) : Bool := decide (spb.toNat ≠ 0 ∧ spb.toNat ≤ P.maxBlock)

/-! ### Patch fields -/

/-- One field of a word: the bits from `lo` on, `width` of them. -/
def field (w : Word) (lo width : Nat) : BitVec width := w.extractLsb' lo width

/-- One modulator index: 7, or below the bound (20_memory.md R86, R88). -/
def modIndexLegal (bound : Nat) (j : BitVec 3) : Bool := j == 7 || decide (j.toNat < bound)

/-- Whether a patch word holds a legal value (20_memory.md R88: V1 to V7). An f32 is read with a subnormal as zero. -/
def fieldLegal (r : FieldRange) (w : Word) : Bool :=
  match r with
  | .u32 lo hi => decide (lo ≤ w.toNat ∧ w.toNat ≤ hi)
  | .closed lo hi => finiteBetween lo hi (flush w)
  | .aboveLo lo hi => isFinite (flush w) && flt lo (flush w) && fle (flush w) hi
  | .belowHi lo hi => isFinite (flush w) && fle lo (flush w) && flt (flush w) hi
  | .flags => field w 3 1 == 0 && field w 10 22 == 0
  | .mods i =>
    field w 12 20 == 0 && modIndexLegal i (field w 0 3) && modIndexLegal i (field w 3 3)
      && modIndexLegal i (field w 6 3) && modIndexLegal (i + 1) (field w 9 3)

/-- `Validate(snapshot)` (20_memory.md R88). -/
def patchLegal (P : Params) (m : List Host.Cell) : Bool :=
  (patchRows P).all (fun r => fieldLegal r.range (readWord P m r.addr))

/-- FILTER_TYPE from its code (20_memory.md R85). -/
def filterTypeOf (c : BitVec 2) : FilterType :=
  if c = 0 then .off else if c = 1 then .lowPass else if c = 2 then .highPass else .bandPass

/-- An operator group of the snapshot (20_memory.md R83): FLAGS and MODS as words, the rest as values. -/
structure OpPatch where
  flags : Word
  mods : Word
  coarse : BitVec 8
  fine : F32
  fixedHz : F32
  output : F32
  velSens : F32
  keyScale : F32
  drive : F32
  pan : F32
  feedback : F32
  ampMod : F32
  pitchMod : F32
  panMod : F32
  filtCutoff : F32
  filtQ : F32
  env : EnvParams
  envKeyTrack : F32
  deriving DecidableEq, Repr, Inhabited

/-- The render snapshot (20_memory.md R80, R82, R83). -/
structure Patch where
  voiceMode : VoiceMode
  polyphony : Nat
  pianoPedal : Bool
  pianoFalloff : F32
  pianoRelMul : F32
  glide : F32
  bendRange : F32
  ampBend : F32
  lfoRate : F32
  lfoWave1 : BitVec 4
  lfoWave2 : BitVec 4
  lfoBlend : F32
  modLfoWave : BitVec 4
  modLfoSpeed : F32
  modLfoDepth : F32
  pitchEnvAmount : F32
  pitchEnv : EnvParams
  filterEnv : EnvParams
  cutoff : F32
  resonance : F32
  filterEnvAmount : F32
  ops : List OpPatch
  deriving DecidableEq, Repr, Inhabited

/-- `MemRead(addr, 4) as f32` (00_scope.md R10, R11). -/
def readF32 (P : Params) (m : List Host.Cell) (addr : Nat) : F32 := flush (readWord P m addr)

/-- The envelope group at `e` (20_memory.md R84). -/
def envPatch (P : Params) (m : List Host.Cell) (e : Nat) : EnvParams where
  delay := readF32 P m e
  attack := readF32 P m (e + 1)
  decay := readF32 P m (e + 2)
  sustain := readF32 P m (e + 3)
  release := readF32 P m (e + 4)
  attackRatio := readF32 P m (e + 5)
  decayRatio := readF32 P m (e + 6)
  releaseRatio := readF32 P m (e + 7)

/-- The operator group `i` (20_memory.md R83). -/
def opPatch (P : Params) (m : List Host.Cell) (i : Nat) : OpPatch where
  flags := readWord P m (opBase i)
  mods := readWord P m (opBase i + 0x01)
  coarse := field (readWord P m (opBase i + 0x02)) 0 8
  fine := readF32 P m (opBase i + 0x03)
  fixedHz := readF32 P m (opBase i + 0x04)
  output := readF32 P m (opBase i + 0x05)
  velSens := readF32 P m (opBase i + 0x06)
  keyScale := readF32 P m (opBase i + 0x07)
  drive := readF32 P m (opBase i + 0x08)
  pan := readF32 P m (opBase i + 0x09)
  feedback := readF32 P m (opBase i + 0x0A)
  ampMod := readF32 P m (opBase i + 0x0B)
  pitchMod := readF32 P m (opBase i + 0x0C)
  panMod := readF32 P m (opBase i + 0x0D)
  filtCutoff := readF32 P m (opBase i + 0x0E)
  filtQ := readF32 P m (opBase i + 0x0F)
  env := envPatch P m (opBase i + 0x10)
  envKeyTrack := readF32 P m (opBase i + 0x18)

/-- The render snapshot (20_memory.md R80): every field of the patch RAM, read once. It is taken of a validated patch
only, so each u32 field fits the type it is read into. -/
def snapshot (P : Params) (m : List Host.Cell) : Patch where
  voiceMode := if readWord P m 0x000 = 1 then .mono else .poly
  polyphony := (readWord P m 0x001).toNat
  pianoPedal := readWord P m 0x002 == 1
  pianoFalloff := readF32 P m 0x003
  pianoRelMul := readF32 P m 0x004
  glide := readF32 P m 0x005
  bendRange := readF32 P m 0x006
  ampBend := readF32 P m 0x007
  lfoRate := readF32 P m 0x008
  lfoWave1 := field (readWord P m 0x009) 0 4
  lfoWave2 := field (readWord P m 0x00A) 0 4
  lfoBlend := readF32 P m 0x00B
  modLfoWave := field (readWord P m 0x00C) 0 4
  modLfoSpeed := readF32 P m 0x00D
  modLfoDepth := readF32 P m 0x00E
  pitchEnvAmount := readF32 P m 0x00F
  pitchEnv := envPatch P m 0x010
  filterEnv := envPatch P m 0x018
  cutoff := readF32 P m 0x020
  resonance := readF32 P m 0x021
  filterEnvAmount := readF32 P m 0x022
  ops := (List.range 6).map (opPatch P m)

/-- Operator group `i` of the snapshot, `Q_i`. -/
def Patch.op (pt : Patch) (i : Nat) : OpPatch := pt.ops.getD i default

end Sys2Proof.Machine
end

