-- ==== Sys2Proof/Machine/Control.lean ====
section
/-! DEFINITION. The per-voice control units (44_control_units.md): interpolators (R291 to R293), the glide length
(R295), oscillators (R297), and the envelope stage machine (R300 to R307). -/

namespace Sys2Proof.Machine

/-! ### Interpolator -/

/-- `SetTarget(x, t, steps)` (R291). -/
def setTarget (x : Interp) (t : F32) (steps : Nat) : Interp :=
  if feq t x.target then x
  else { x with target := t, delta := fdiv (fsub t x.cur) (fofNat steps), remaining := steps }

/-- `Sample(x)` (R292): the advanced interpolator; its `cur` is the value returned. -/
def interpSample (x : Interp) : Interp :=
  if x.remaining = 0 then x
  else if x.remaining - 1 = 0 then { x with cur := x.target, remaining := 0 }
  else { x with cur := fadd x.cur x.delta, remaining := x.remaining - 1 }

/-- `SetImmediate(x, t)` (R293). -/
def setImmediate (t : F32) : Interp := ⟨t, t, fZero, 0⟩

/-- `GlideSamples()` (R295). -/
def glideSamples (pt : Patch) (fs : Word) : Nat := rint (fmul pt.glide (fofNat fs.toNat))

/-! ### Oscillator -/

/-- `OscSample(o, ps)` (R297): the output at the phase before the advance, and the advanced record. -/
def oscSample (P : Params) (fs : Word) (o : Osc) (ps : F32) : F32 × Osc :=
  let fe := fmul o.freq o.pitchMul
  let (y, ext) := P.waveFn o.waveform o.ext o.phase ps fe fs
  (flush y, { o with phase := frac (fadd o.phase (fdiv fe (fofNat fs.toNat))), ext := ext })

/-! ### Envelope -/

/-- `EnvStart` (R300, R306). -/
def envStart (P : Params) (p : EnvParams) (fs : Word) (isCarrier : Bool) (kts vs : F32) : Envelope :=
  let d := rint (fmul p.delay (fofNat fs.toNat))
  { stage := if 0 < d then .delay else .attack
    level := fZero
    infinite := !isCarrier && feq p.release fOne
    carrier := isCarrier
    delayRemaining := d
    params := p
    math := P.envInit p fs isCarrier kts vs }

/-- The level a stage ends at (R302): 1.0 for Attack, S for Decay, 0.0 for Release and PianoSustain. -/
def envEndLevel (stage : EnvStage) (S : F32) : F32 :=
  match stage with
  | .attack => fOne
  | .decay => S
  | _ => fZero

/-- `EnvStep` as the block may assume it (R302): the parameter's step, its end level fixed by the contract (log 9). -/
def envStepOf (P : Params) (math : UnitData) (stage : EnvStage) (level S : F32) : F32 × Bool :=
  let (l, done) := P.envStep math stage level S
  if done then (envEndLevel stage S, true) else (flush l, false)

/-- `Next(stage)` (R305). -/
def envNext (stage : EnvStage) : EnvStage :=
  match stage with
  | .idle => .idle
  | .delay => .attack
  | .attack => .decay
  | .decay => .sustain
  | .sustain => .sustain
  | .pianoSustain => .idle
  | .release => .idle

/-- One step of a sounding segment (R301). -/
def envSegment (P : Params) (e : Envelope) : F32 × Envelope :=
  let (l, done) := envStepOf P e.math e.stage e.level e.params.sustain
  (l, { e with level := l, stage := if done then envNext e.stage else e.stage })

/-- `EnvSample(e)` (R301): the level returned and the advanced record. -/
def envSample (P : Params) (e : Envelope) : F32 × Envelope :=
  match e.stage with
  | .idle => (fZero, e)
  | .delay =>
    (fZero, { e with delayRemaining := e.delayRemaining - 1
                     stage := if e.delayRemaining - 1 = 0 then .attack else .delay })
  | .sustain => (e.level, e)
  | .attack => envSegment P e
  | .decay => envSegment P e
  | .pianoSustain => envSegment P e
  | .release => envSegment P e

/-- `EnvStop(e)` (R303). -/
def envStop (e : Envelope) : Envelope :=
  if e.infinite then e
  else if e.stage = .idle ∨ e.stage = .release then e
  else { e with stage := .release }

/-- `EnvGet(e)` (R304). -/
def envGet (e : Envelope) : F32 := e.level

/-- `EnvIsIdle(e)` (R304). -/
def envIsIdle (e : Envelope) : Bool := e.stage == .idle

/-- `EnvIsReleasing(e)` (R304). -/
def envIsReleasing (e : Envelope) : Bool := e.stage == .release

/-- `EnvIsInfinite(e)` (R304). -/
def envIsInfinite (e : Envelope) : Bool := e.infinite

/-- `OnPianoSustain(e, fs, falloff, relMul)` (R307). -/
def onPianoSustain (P : Params) (fs : Word) (falloff relMul : F32) (e : Envelope) : Envelope :=
  if e.stage = .idle ∨ e.stage = .release then e
  else
    { e with math := P.pianoSustainFn e fs falloff relMul
             stage := if e.stage = .decay ∨ e.stage = .sustain then .pianoSustain else e.stage }

end Sys2Proof.Machine
end

