-- ==== Sys2Proof/Machine/OperatorGraph.lean ====
section
/-! DEFINITION. The per-sample evaluation of one voice (43_operator_graph.md R260 to R277), step by step in the
written order. A NUMERIC fault ends an evaluation as `Except.error`, which carries the voice as it stood (R274). -/

namespace Sys2Proof.Machine

/-- What the operators of one voice sample share (R260): the blended LFO, the two pitch multipliers, the modulation
wheel, the sample rate and the previous sample's operator outputs. -/
structure SampleInputs where
  lfo : F32
  pitchEnvMul : F32
  bendMul : F32
  modWheel : F32
  fs : Word
  prevMod : List F32
  deriving DecidableEq, Repr

/-- `BlendedLFO(v)`, step 1 (R261). -/
def blendedLfo (P : Params) (pt : Patch) (fs : Word) (v : Voice) : F32 × Voice :=
  let (mlfo, modLfo) := oscSample P fs v.modLfo fZero
  let pm := fmul mlfo pt.modLfoDepth
  let (l1, lfo1) := oscSample P fs v.lfo1 pm
  let (l2, lfo2) := oscSample P fs v.lfo2 pm
  (lerp l1 l2 pt.lfoBlend, { v with modLfo := modLfo, lfo1 := lfo1, lfo2 := lfo2 })

/-- 2^(semitones/12) through `EXP2` (R262, R266). -/
def octave (P : Params) (semitones : F32) : F32 := flush (P.exp2 (fdiv semitones fTwelve))

/-- `PitchMultipliers(v, b)`, step 2 (R262): pitchEnvMul, bendMul, and the voice with its pitch envelope advanced. -/
def pitchMultipliers (P : Params) (pt : Patch) (v : Voice) (b : F32) : F32 × F32 × Voice :=
  let (pe, env) := envSample P v.pitchEnv
  (octave P (fmul pe pt.pitchEnvAmount), octave P (fmul b pt.bendRange), { v with pitchEnv := env })

/-- One modulator slot of `ModulatorSum` (R264). -/
def addModulator (prevMod : List F32) (ps : F32) (j : BitVec 3) : F32 :=
  if j = 7 then ps else fadd ps (prevMod.getD j.toNat fZero)

/-- `ModulatorSum(v, i)`, step b (R264). -/
def modulatorSum (prevMod : List F32) (o : Operator) : F32 :=
  addModulator prevMod (addModulator prevMod (addModulator prevMod fZero o.mod0) o.mod1) o.mod2

/-- The value of `FeedbackTerm(v, i)`, step c (R265); `o` has its FEEDBACK interpolator advanced already. -/
def feedbackTerm (P : Params) (ops : List Operator) (o : Operator) : F32 :=
  if o.fbSrc = 7 then fZero
  else fmul (fmul o.feedback.cur P.feedbackBrightness) (ops.getD o.fbSrc.toNat default).fbState

/-- `Vibrato`, step d (R266). -/
def vibrato (P : Params) (c : SampleInputs) (o : Operator) : F32 :=
  fmul (fmul c.bendMul c.pitchEnvMul) (octave P (fmul (fmul c.lfo o.pitchMod) P.vibratoRange))

/-- `Tremolo(x, L, ampMod, m)`, step f (R268). -/
def tremolo (x L ampMod m : F32) : F32 := lerp x (fmul x (fsub fOne (fabs (fmul L ampMod)))) m

/-- `Drive`, step h (R270), the interpolator advanced to `d`. -/
def driveOf (P : Params) (d x : F32) : F32 := if flt fZero d then lerp x (flush (P.driveShapeFn x d)) d else x

/-- `OperatorFilter`, step i (R271): the output and the filter state. -/
def operatorFilter (P : Params) (o : Operator) (x : F32) : F32 × UnitData :=
  match o.filterType with
  | .off => (x, o.filt)
  | t =>
    let (y, filt) := P.opFilterFn t o.filt o.filtCutoff o.filtQ x
    (flush y, filt)

/-- Steps a to j of one enabled operator (R263 to R273): its output and its record, all interpolators but PAN advanced.
`ops` is the voice's operators as they stand at this point of the evaluation. -/
def operatorOutput (P : Params) (c : SampleInputs) (ops : List Operator) (o : Operator) : F32 × Operator :=
  let freq := interpSample o.freq                                             -- a
  let feedback := interpSample o.feedback                                     -- c
  let ps := fadd (modulatorSum c.prevMod o) (feedbackTerm P ops { o with feedback := feedback })  -- b, c
  let osc := { o.osc with freq := freq.cur, pitchMul := vibrato P c o }       -- a, d
  let (x, osc) := oscSample P c.fs osc ps                                     -- e
  let x := tremolo x c.lfo o.ampMod c.modWheel                                -- f
  let (level, env) := envSample P o.env
  let x := fmul x level                                                       -- g
  let drive := interpSample o.drive
  let x := driveOf P drive.cur x                                              -- h
  let (x, filt) := operatorFilter P o x                                       -- i
  let amp := interpSample o.amp
  (fmul x amp.cur,                                                            -- j
    { o with freq := freq, feedback := feedback, osc := osc, env := env, drive := drive, filt := filt, amp := amp })

/-- `UpdateFeedbackState` (R272). -/
def feedbackState (P : Params) (o : Operator) (out : F32) : F32 :=
  fadd o.fbState (fmul P.feedbackEma (fsub (fabs out) o.fbState))

/-- The running values of one voice sample: the operators, the scratch array CUR_MOD so far, and the stereo mix. -/
structure GraphRun where
  ops : List Operator
  curMod : List F32
  mixL : F32
  mixR : F32
  deriving DecidableEq, Repr

/-- Operator `i` of the graph (R260): skipped where disabled (R276); otherwise steps a to k. The error carries the
operators as they stood when its output was not finite (R274). -/
def operatorStep (P : Params) (c : SampleInputs) (i : Nat) (g : GraphRun) : Except (List Operator) GraphRun :=
  let o := g.ops.getD i default
  if o.enabled = false then .ok { g with curMod := g.curMod ++ [fZero] }
  else
    let (out, o) := operatorOutput P c g.ops o
    if isFinite out = false then .error (g.ops.set i o)
    else
      let o := { o with fbState := feedbackState P o out, pan := interpSample o.pan }
      let g := { g with ops := g.ops.set i o, curMod := g.curMod ++ [out] }
      if o.carrier then
        let pan := flush (P.panFn o.pan.cur c.lfo o.panMod)
        .ok { g with mixL := fadd g.mixL (fmul out (fsqrt (fsub fOne pan)))
                     mixR := fadd g.mixR (fmul out (fsqrt pan)) }
      else .ok g

/-- The operators of `is` in order, stopping at the first fault. -/
def operatorRun (P : Params) (c : SampleInputs) : List Nat → GraphRun → Except (List Operator) GraphRun
  | [], g => .ok g
  | i :: is, g =>
    match operatorStep P c i g with
    | .error ops => .error ops
    | .ok g => operatorRun P c is g

/-- `VoiceSample(v, b, m)` (R260): the dry stereo output and the voice, PREV_MOD copied at the end (R275); or the voice
as it stood at a NUMERIC fault (R274), PREV_MOD not copied. -/
def voiceSample (P : Params) (pt : Patch) (fs : Word) (v : Voice) (b m : F32) : Except Voice (F32 × F32 × Voice) :=
  let (lfo, v) := blendedLfo P pt fs v
  let (pitchEnvMul, bendMul, v) := pitchMultipliers P pt v b
  let c : SampleInputs := ⟨lfo, pitchEnvMul, bendMul, m, fs, v.prevMod⟩
  match operatorRun P c (List.range 6) ⟨v.ops, [], fZero, fZero⟩ with
  | .error ops => .error { v with ops := ops }
  | .ok g => .ok (g.mixL, g.mixR, { v with ops := g.ops, prevMod := g.curMod })

end Sys2Proof.Machine
end

