-- ==== Sys2Proof/Machine/VoiceOps.lean ====
section
/-! DEFINITION. The voice-level micro-operations (42_voice_ops.md R230 to R252). -/

namespace Sys2Proof.Machine

/-! ### Observers -/

/-- Operators whose output is heard: enabled carriers (R250, R251). -/
def heard (o : Operator) : Bool := o.enabled && o.carrier

/-- `SummedCarrierOutput(v)` (R250). -/
def summedCarrierOutput (v : Voice) : F32 :=
  v.ops.foldl (fun s o => if heard o then fadd s (fmul (envGet o.env) o.amp.cur) else s) fZero

/-- `IsDone(v)` (R251). -/
def isDone (v : Voice) : Bool := v.ops.all (fun o => !heard o || envIsIdle o.env)

/-! ### Targets -/

/-- `BaseFreq(req)` (R231). -/
def baseFreq (P : Params) (req : VoiceRequest) : F32 :=
  if feq req.freq fNegOne then flush (P.keyFreqTable req.key) else req.freq

/-- `FreqTarget(v, i)` (R238) of an operator with configuration bit `fixed`, in a voice of frequency `freq`. -/
def freqTarget (P : Params) (q : OpPatch) (fixed : Bool) (freq : F32) : F32 :=
  if fixed then q.fixedHz else fmul freq (flush (P.opRatioFn q.coarse q.fine))

/-- `AmpTarget(v, i)` (R239). -/
def ampTarget (P : Params) (q : OpPatch) (key : Nat) (velocity : F32) : F32 :=
  flush (P.ampTargetFn q.output q.velSens q.keyScale key velocity)

/-- `f` applied to each operator together with its group of the snapshot. -/
def mapOps (pt : Patch) (f : Operator → OpPatch → Operator) (ops : List Operator) : List Operator :=
  ops.mapIdx (fun i o => f o (pt.op i))

/-- `UpdateTargets(v, n)` (R240), `key` being the voice's bound key. -/
def updateTargets (P : Params) (pt : Patch) (n key : Nat) (v : Voice) : Voice :=
  { v with ops := mapOps pt (fun o q =>
      { o with freq := setTarget o.freq (freqTarget P q o.fixed v.freq) n
               amp := setTarget o.amp (ampTarget P q key v.velocity) n
               drive := setTarget o.drive q.drive n
               pan := setTarget o.pan q.pan n
               feedback := setTarget o.feedback q.feedback n }) v.ops }

/-! ### Initialisation -/

/-- Operator configuration of `ConfigureVoice` (R232) for a voice of key `key` and velocity `velocity`. Every field
but the interpolators is set; those are `initInterpolators`'s. -/
def configureOperator (P : Params) (fs : Word) (key : Nat) (velocity : F32) (q : OpPatch) : Operator :=
  let enabled := field q.flags 0 1 == 1
  let carrier := field q.flags 1 1 == 1
  let waveform := field q.flags 4 4
  let (kts, vs) := P.envScaleFn q.envKeyTrack key velocity
  { operatorPowerOn P with
    enabled := enabled
    carrier := carrier
    fixed := field q.flags 2 1 == 1
    waveform := waveform
    filterType := filterTypeOf (field q.flags 8 2)
    mod0 := field q.mods 0 3
    mod1 := field q.mods 3 3
    mod2 := field q.mods 6 3
    fbSrc := field q.mods 9 3
    ampMod := q.ampMod
    pitchMod := q.pitchMod
    panMod := q.panMod
    filtCutoff := q.filtCutoff
    filtQ := q.filtQ
    osc := ⟨fZero, fZero, fOne, waveform, P.waveExtInit⟩
    filt := P.ofInit
    fbState := fZero
    env := if enabled then envStart P q.env fs carrier (flush kts) (flush vs) else envIdle P }

/-- The interpolators of `InitInterpolators` (R233). -/
def initInterpolators (P : Params) (key : Nat) (freq velocity : F32) (o : Operator) (q : OpPatch) : Operator :=
  { o with freq := setImmediate (freqTarget P q o.fixed freq)
           amp := setImmediate (ampTarget P q key velocity)
           drive := setImmediate q.drive
           pan := setImmediate q.pan
           feedback := setImmediate q.feedback }

/-- An LFO of `InitLFOs` (R234). -/
def lfoAt (P : Params) (phase freq : F32) (waveform : BitVec 4) : Osc := ⟨phase, freq, fOne, waveform, P.waveExtInit⟩

/-- The voice record `InitializeVoice` leaves (R230, R232 to R234). -/
def freshVoice (P : Params) (pt : Patch) (fs : Word) (phase : F32) (req : VoiceRequest) : Voice :=
  let freq := baseFreq P req
  { state := .playing
    key := some req.key
    velocity := req.velocity
    freq := freq
    sustained := false
    glide := 0
    ops := (List.range 6).map (fun i =>
      initInterpolators P req.key freq req.velocity (configureOperator P fs req.key req.velocity (pt.op i)) (pt.op i))
    prevMod := List.replicate 6 fZero
    filterEnv := envStart P pt.filterEnv fs true fOne fOne
    pitchEnv := envStart P pt.pitchEnv fs false fOne fOne
    lfo1 := lfoAt P phase pt.lfoRate pt.lfoWave1
    lfo2 := lfoAt P phase pt.lfoRate pt.lfoWave2
    modLfo := lfoAt P phase (fmul pt.lfoRate pt.modLfoSpeed) pt.modLfoWave
    vfilt := P.vfInit }

/-- `InitializeVoice(v, req)` (R230). -/
def initializeVoice (P : Params) (pt : Patch) (v : Nat) (req : VoiceRequest) (s : State) : State :=
  let t := s.clearKey (s.voice v).key
  (t.setVoice v (freshVoice P pt t.fs t.glfoPhase req)).setKey req.key (some v)

/-! ### Release, steal, free, reset -/

/-- `ReleaseVoice(v)` (R245). -/
def releaseVoice (v : Voice) : Voice :=
  { v with state := .releasing
           ops := v.ops.map (fun o => { o with env := envStop o.env })
           filterEnv := envStop v.filterEnv
           pitchEnv := envStop v.pitchEnv }

/-- The end ReleaseAndUnbind, StealVoice and FreeVoice share: STATE, no key, not sustained (R246 to R248). -/
def unbound (st : VoiceState) (v : Voice) : Voice := { v with state := st, key := none, sustained := false }

/-- `ReleaseAndUnbind(v)` (R246). -/
def releaseAndUnbind (v : Nat) (s : State) : State :=
  let x := s.voice v
  let y := if x.state = .playing then releaseVoice x else x
  (s.setVoice v (unbound y.state y)).clearKey x.key

/-- `StealVoice(v)` (R247). -/
def stealVoice (v : Nat) (s : State) : State :=
  let x := s.voice v
  (s.setVoice v (unbound .stolen x)).clearKey x.key

/-- `if k != -1 and KEYMAP[k] == v: KEYMAP[k] <- -1` (R248, R249). -/
def clearOwnKey (v : Nat) (k : Option Nat) (s : State) : State :=
  match k with
  | none => s
  | some k => if s.keyVoice k = some v then s.setKey k none else s

/-- `FreeVoice(v)` (R248). -/
def freeVoice (v : Nat) (s : State) : State :=
  let x := s.voice v
  (clearOwnKey v x.key s).setVoice v (unbound .idle x)

/-- `FullReset(v)` (R249). -/
def fullReset (P : Params) (v : Nat) (s : State) : State :=
  (clearOwnKey v (s.voice v).key s).setVoice v (voicePowerOn P)

/-! ### Monophonic initialisation -/

/-- `CopyTail()` (R237). -/
def copyTail (s : State) : State := s.setVoice 1 (unbound .stolen (s.voice 0))

/-- The frequency ramp of `Legato` (R236). -/
def glideTo (x : Interp) (t : F32) (g : Nat) : Interp := if g = 0 then setImmediate t else setTarget x t g

/-- The voice record `Legato(req)` leaves (R236). -/
def legatoVoice (P : Params) (pt : Patch) (fs : Word) (req : VoiceRequest) (v : Voice) : Voice :=
  let freq := baseFreq P req
  let g := glideSamples pt fs
  { v with key := some req.key
           velocity := req.velocity
           freq := freq
           glide := g
           ops := mapOps pt (fun o q => { o with freq := glideTo o.freq (freqTarget P q o.fixed freq) g }) v.ops }

/-- `Legato(req)` (R236). -/
def legato (P : Params) (pt : Patch) (req : VoiceRequest) (s : State) : State :=
  let t := s.clearKey (s.voice 0).key
  (t.setVoice 0 (legatoVoice P pt t.fs req (t.voice 0))).setKey req.key (some 0)

/-- `InitializeMonoVoice(req)` (R235). -/
def initializeMonoVoice (P : Params) (pt : Patch) (req : VoiceRequest) (s : State) : State :=
  match (s.voice 0).state with
  | .releasing => initializeVoice P pt 0 req (copyTail s)
  | .playing => legato P pt req s
  | .idle => initializeVoice P pt 0 req s
  | .stolen => initializeVoice P pt 0 req s

end Sys2Proof.Machine
end

