-- ==== Sys2Proof/Machine/Lifecycle.lean ====
section
/-! DEFINITION. The micro-operations of a RENDER in the order it runs them (41_lifecycle.md R180 to R222). -/

namespace Sys2Proof.Machine

/-! ### Global targets and sustain -/

/-- `SetGlobalTargets(n, b, m, a)` (R181). -/
def setGlobalTargets (pt : Patch) (n : Nat) (b m a : F32) (s : State) : State :=
  { s with gBend := setTarget s.gBend b n
           gMod := setTarget s.gMod m n
           gAft := setTarget s.gAft a n
           gCutoff := setTarget s.gCutoff pt.cutoff n
           gReso := setTarget s.gReso pt.resonance n }

/-- `PianoReshape(v)` (R186). -/
def pianoReshape (P : Params) (pt : Patch) (fs : Word) (v : Voice) : Voice :=
  { v with filterEnv := onPianoSustain P fs pt.pianoFalloff pt.pianoRelMul v.filterEnv
           ops := v.ops.map (fun o =>
             if heard o then { o with env := onPianoSustain P fs pt.pianoFalloff pt.pianoRelMul o.env } else o) }

/-- One voice under a held pedal (R185). -/
def sustainVoice (P : Params) (pt : Patch) (fs : Word) (piano : Bool) (v : Voice) : Voice :=
  if v.state = .playing ∧ v.sustained = false then
    let w := { v with sustained := true }
    if piano then pianoReshape P pt fs w else w
  else v

/-- One voice at the pedal's release (R185). -/
def unsustainVoice (P : Params) (pt : Patch) (fs : Word) (piano : Bool) (v : Voice) : Voice :=
  if v.sustained then
    let w := if piano then pianoReshape P pt fs v else v
    { w with sustained := false }
  else v

/-- `UpdateSustain()` (R185). -/
def updateSustain (P : Params) (pt : Patch) (s : State) : State :=
  let piano := s.mode == .poly && pt.pianoPedal
  let t :=
    if s.hostSustain then forVoices P (fun v t => t.setVoice v (sustainVoice P pt t.fs piano (t.voice v))) s
    else if s.prevSustain then forVoices P (fun v t => t.setVoice v (unsustainVoice P pt t.fs piano (t.voice v))) s
    else s
  { t with prevSustain := t.hostSustain }

/-! ### Pre-render -/

/-- The latch of MODE and CUR_POLY (R190). -/
def latchMode (pt : Patch) (s : State) : State :=
  { s with mode := pt.voiceMode, curPoly := if pt.voiceMode = .mono then 1 else pt.polyphony }

/-- Step 1 where the mode changed or a reset was requested (R191). -/
def forceSteal (P : Params) (modeChanged : Bool) (s : State) : State :=
  let t := forVoices P (fun v t => if (t.voice v).state = .idle then t else stealVoice v t) s
  { t with polyReq := []
           monoReq := []
           relQ := []
           monoSeq := []
           switchPending := modeChanged || t.switchPending
           resetReq := false }

/-- Step 2 over the queued releases (R192): the remainder kept so far, and the state. -/
def resolvePoly : List ReleaseRequest → List ReleaseRequest → State → State
  | [], rem, s => { s with relQ := rem }
  | r :: rs, rem, s =>
    match s.keyVoice r.key with
    | none => resolvePoly rs rem s
    | some v =>
      if (s.voice v).sustained then resolvePoly rs (rem ++ [r]) s
      else if (s.voice v).state = .playing then resolvePoly rs rem (s.setVoice v (releaseVoice (s.voice v)))
      else resolvePoly rs rem s

/-- Step 3 for one voice (R193). -/
def retargetVoice (P : Params) (pt : Patch) (n : Nat) (v : Voice) : Voice :=
  match v.key with
  | some k => if isLive v.state && !isDone v then updateTargets P pt n k v else v
  | none => v

/-- Step 3 (R193). -/
def retarget (P : Params) (pt : Patch) (n : Nat) (s : State) : State :=
  forVoices P (fun v t => t.setVoice v (retargetVoice P pt n (t.voice v))) s

/-- `r` put before the first entry with a timestamp no newer than its own (R196). -/
def insertNewestFirst (r : VoiceRequest) : List VoiceRequest → List VoiceRequest
  | [] => [r]
  | x :: xs => if x.timestamp.toNat ≤ r.timestamp.toNat then r :: x :: xs else x :: insertNewestFirst r xs

/-- `StableSortByTimestampDescending(q)` (R196). -/
def sortNewestFirst (q : List VoiceRequest) : List VoiceRequest := q.foldr insertNewestFirst []

/-- The least Idle voice below CUR_POLY (R194). -/
def freeSlot (s : State) : Option Nat := (List.range s.curPoly).find? (fun v => (s.voice v).state == .idle)

/-- The allocation loop of step 4 (R194): the requests kept so far, and the state. -/
def allocatePoly (P : Params) (pt : Patch) : List VoiceRequest → List VoiceRequest → State → State
  | [], keep, s => { s with polyReq := keep }
  | req :: reqs, keep, s =>
    match freeSlot s with
    | none => allocatePoly P pt reqs (keep ++ [req]) s
    | some v => allocatePoly P pt reqs keep (initializeVoice P pt v req s)

/-- The mono release loop of step 4 (R195). -/
def resolveMono : List ReleaseRequest → List ReleaseRequest → State → State
  | [], rem, s => { s with relQ := rem }
  | r :: rs, rem, s =>
    if s.keyVoice r.key = some 0 then
      if (s.voice 0).sustained then resolveMono rs (rem ++ [r]) s
      else if (s.voice 0).state = .playing then resolveMono rs rem (s.setVoice 0 (releaseVoice (s.voice 0)))
      else resolveMono rs rem s
    else resolveMono rs rem s

/-- Step 4 in mono (R195). -/
def allocateMono (P : Params) (pt : Patch) (s : State) : State :=
  match s.monoReq with
  | [] => resolveMono s.relQ [] s
  | req :: _ => initializeMonoVoice P pt req { s with monoReq := [], relQ := [] }

/-- Steps 2 to 4 (R192 to R195). -/
def preRenderVoices (P : Params) (pt : Patch) (n : Nat) (s : State) : State :=
  match s.mode with
  | .poly =>
    let t := retarget P pt n (resolvePoly s.relQ [] s)
    allocatePoly P pt (sortNewestFirst t.polyReq) [] t
  | .mono => allocateMono P pt (retarget P pt n s)

/-- `PreRender(n)` (R190 to R196). -/
def preRender (P : Params) (pt : Patch) (n : Nat) (s : State) : State :=
  let modeChanged := pt.voiceMode != s.mode
  let t := latchMode pt s
  if modeChanged || t.resetReq then forceSteal P modeChanged t else preRenderVoices P pt n t

/-! ### Rendering samples -/

/-- `StealFade(j, n)` (R213). -/
def stealFade (j n : Nat) : F32 := fsub fOne (fdiv (fofNat (j + 1)) (fofNat n))

/-- The five global interpolators and the global LFO advanced by one sample (R210, R211). -/
def advanceGlobals (pt : Patch) (s : State) : State :=
  { s with gBend := interpSample s.gBend
           gMod := interpSample s.gMod
           gAft := interpSample s.gAft
           gCutoff := interpSample s.gCutoff
           gReso := interpSample s.gReso
           glfoPhase := frac (fadd s.glfoPhase (fdiv pt.lfoRate (fofNat s.fs.toNat))) }

/-- One non-Idle voice of one sample (R210, R214): what it adds to the dry mix, and the voice; or the voice as it stood
at a NUMERIC fault. -/
def renderVoice (P : Params) (pt : Patch) (j n : Nat) (s : State) (v : Voice) : Except Voice (F32 × F32 × Voice) :=
  match voiceSample P pt s.fs v s.gBend.cur s.gMod.cur with
  | .error w => .error w
  | .ok (l, r, w) =>
    let (fe, env) := envSample P w.filterEnv
    let (l, r, vfilt) :=
      P.voiceFilterFn w.vfilt l r s.gCutoff.cur s.gReso.cur fe pt.filterEnvAmount s.gAft.cur
    let g := flush (P.ampBendFn s.gBend.cur pt.ampBend)
    let g := if w.state = .stolen then fmul g (stealFade j n) else g
    .ok (fmul (flush l) g, fmul (flush r) g, { w with filterEnv := env, vfilt := vfilt })

/-- The voices of `vs` in order, added into the dry mix (R210, R212); the error is the state at a NUMERIC fault. -/
def mixVoices (P : Params) (pt : Patch) (j n : Nat) : List Nat → State → F32 → F32 → Except State (F32 × F32 × State)
  | [], s, dryL, dryR => .ok (dryL, dryR, s)
  | v :: vs, s, dryL, dryR =>
    if (s.voice v).state = .idle then mixVoices P pt j n vs s dryL dryR
    else
      match renderVoice P pt j n s (s.voice v) with
      | .error w => .error (s.setVoice v w)
      | .ok (l, r, w) => mixVoices P pt j n vs (s.setVoice v w) (fadd dryL l) (fadd dryR r)

/-- `RenderSample(j, n)` (R210, R215, R216): the state with the frame emitted, or the state at a NUMERIC fault. -/
def renderSample (P : Params) (pt : Patch) (n j : Nat) (s : State) : Except State State :=
  match mixVoices P pt j n (List.range P.maxVoices) (advanceGlobals pt s) fZero fZero with
  | .error t => .error t
  | .ok (dryL, dryR, t) => if isFinite dryL && isFinite dryR then .ok (emit dryL dryR t) else .error t

/-- The samples of `js` in order, stopping at the first fault. -/
def renderSamples (P : Params) (pt : Patch) (n : Nat) : List Nat → State → Except State State
  | [], s => .ok s
  | j :: js, s =>
    match renderSample P pt n j s with
    | .error t => .error t
    | .ok t => renderSamples P pt n js t

/-! ### Post-render -/

/-- The free pass for one voice (R221). -/
def freeIfDone (P : Params) (v : Nat) (s : State) : State :=
  let x := s.voice v
  if x.state = .stolen ∨ (x.state ≠ .idle ∧ isDone x = true) then
    (if s.switchPending then fullReset P v (freeVoice v s) else freeVoice v s)
  else s

/-- `FreePass` (R221). -/
def freePass (P : Params) (s : State) : State := forVoices P (freeIfDone P) s

/-- A voice's steal score (R222). -/
def stealScore (P : Params) (v : Voice) : F32 :=
  fmul (summedCarrierOutput v) (if v.state = .releasing then P.stealReleaseBias else fOne)

/-- The scan for the lowest score (R222), the best voice so far and its score being `best` and `bestScore`. -/
def stealScan (P : Params) (s : State) : List Nat → Option Nat → F32 → Option Nat
  | [], best, _ => best
  | v :: vs, best, bestScore =>
    let score := stealScore P (s.voice v)
    if isLive (s.voice v).state && flt score bestScore then stealScan P s vs (some v) score
    else stealScan P s vs best bestScore

/-- The voice to steal, if any (R222). -/
def stealCandidate (P : Params) (s : State) : Option Nat := stealScan P s (List.range s.curPoly) none fInf

/-- `repeat need times` (R222). -/
def stealTimes (P : Params) : Nat → State → State
  | 0, s => s
  | need + 1, s =>
    match stealCandidate P s with
    | none => s
    | some v => stealTimes P need (stealVoice v s)

/-- The Idle voices below CUR_POLY (R222). -/
def idleBelowPoly (s : State) : Nat := (List.range s.curPoly).countP (fun v => (s.voice v).state == .idle)

/-- `StealPass` (R222). -/
def stealPass (P : Params) (s : State) : State := stealTimes P (s.polyReq.length - idleBelowPoly s) s

/-- `PostRender()` (R220). -/
def postRender (P : Params) (s : State) : State :=
  let t := { freePass P s with switchPending := false }
  match t.mode with
  | .poly => stealPass P t
  | .mono => t

/-! ### The sequence -/

/-- What a RENDER does before its first sample (R180): global targets, sustain, pre-render. -/
def beforeSamples (P : Params) (pt : Patch) (n : Nat) (b m a : F32) (s : State) : State :=
  preRender P pt n (updateSustain P pt (setGlobalTargets pt n b m a s))

/-- `RenderSequence(n, b, m, a)` (R180). A NUMERIC fault leaves the state as it stood, the post-render not run
(60_exceptions.md R331). -/
def renderSequence (P : Params) (pt : Patch) (n : Nat) (b m a : F32) (s : State) : State :=
  match renderSamples P pt n (List.range n) (beforeSamples P pt n b m a s) with
  | .error t => raise .numeric false t
  | .ok t => postRender P t

end Sys2Proof.Machine
end

