-- ==== Sys2Proof/Machine/NoteCommands.lean ====
section
/-! DEFINITION. The note commands (40_host_commands.md R141 to R145). Each is written over arbitrary parameters; the
meaning `exec…` is its case at the machine's own. -/

namespace Sys2Proof.Machine

/-- `NoteOnMono` (R142). -/
def noteOnMono (k : Nat) (f vel : F32) (ts : Word) (retrig : Bool) (s : State) : State :=
  if hasKey VoiceRequest.key k s.monoReq then s
  else
    { s with monoReq := (if s.monoReq.length = 1 then s.monoReq.drop 1 else s.monoReq) ++ [⟨k, f, vel, ts, retrig⟩]
             monoSeq := if retrig then s.monoSeq else ⟨k, f, vel⟩ :: removeKey SeqEntry.key k s.monoSeq }

/-- NOTE_ON's polyphonic path (R141). -/
def noteOnPoly (k : Nat) (f vel : F32) (ts : Word) (s : State) : State :=
  if hasKey VoiceRequest.key k s.polyReq then s
  else
    let t :=
      match s.keyVoice k with
      | none => s
      | some v => releaseAndUnbind v s
    { t with polyReq := popWhileFull t.curPoly t.polyReq ++ [⟨k, f, vel, ts, false⟩] }

/-- NOTE_ON (R141). -/
def noteOn (k : Nat) (freq velocity : F32) (ts : Word) (s : State) : State :=
  let f := operandF32 freq
  let vel := operandF32 velocity
  if freqLegal f = false then raise .badOperand false s
  else if unitLegal vel = false then raise .badOperand false s
  else
    match s.mode with
    | .mono => noteOnMono k f vel ts false s
    | .poly => noteOnPoly k f vel ts s

/-- `MonoReleaseRetrigger(k, ts)` (R144). -/
def monoReleaseRetrigger (P : Params) (k : Nat) (ts : Word) (s : State) : State :=
  let t := { s with monoSeq := removeKey SeqEntry.key k s.monoSeq }
  match t.monoReq, t.monoSeq with
  | [], e :: _ =>
    if flt P.silenceEps (summedCarrierOutput (t.voice 0)) then noteOnMono e.key e.freq e.velocity ts true t else t
  | _, _ => t

/-- NOTE_OFF (R143). -/
def noteOff (P : Params) (k : Nat) (ts : Word) (s : State) : State :=
  let t := { s with polyReq := removeKey VoiceRequest.key k s.polyReq
                    monoReq := removeKey VoiceRequest.key k s.monoReq }
  let dup := hasKey ReleaseRequest.key k t.relQ
  let t :=
    match t.mode with
    | .mono => monoReleaseRetrigger P k ts t
    | .poly => t
  if dup then t else { t with relQ := t.relQ ++ [⟨k, ts⟩] }

/-- SUSTAIN (R145). -/
def sustainPedal (down : Bool) (s : State) : State := { s with hostSustain := down }

/-- The meaning of NOTE_ON. -/
def execNoteOn (k : Nat) (freq velocity : F32) (ts : Word) (s : State) : Host.Outcome State Fault Refusal :=
  .next (unlessHalted false (noteOn k freq velocity ts) s)

/-- The meaning of NOTE_OFF. -/
def execNoteOff (k : Nat) (ts : Word) (s : State) : Host.Outcome State Fault Refusal :=
  .next (unlessHalted false (noteOff params k ts) s)

/-- The meaning of SUSTAIN. -/
def execSustain (down : Bool) (s : State) : Host.Outcome State Fault Refusal :=
  .next (unlessHalted false (sustainPedal down) s)

end Sys2Proof.Machine
end

