-- ==== Sys2Proof/Machine/RenderCommand.lean ====
section
/-! DEFINITION. RENDER (40_host_commands.md R146 to R149). -/

namespace Sys2Proof.Machine

/-- RENDER (R146): the checks in their order, the snapshot, its validation, the sequence. -/
def render (P : Params) (n : Nat) (bend modulation aftertouch : F32) (s : State) : State :=
  let b := operandF32 bend
  let m := operandF32 modulation
  let a := operandF32 aftertouch
  if s.configured = false then raise .notConfigured false s
  else if n = 0 ∨ s.blockMax.toNat < n then raise .badOperand false s
  else if bendLegal b = false then raise .badOperand false s
  else if unitLegal m = false then raise .badOperand false s
  else if unitLegal a = false then raise .badOperand false s
  else if patchLegal P s.patch = false then raise .badPatch false s
  else renderSequence P (snapshot P s.patch) n b m a s

/-- The meaning of RENDER. -/
def execRender (n : Nat) (bend modulation aftertouch : F32) (s : State) : Host.Outcome State Fault Refusal :=
  .next (unlessHalted false (render params n bend modulation aftertouch) s)

end Sys2Proof.Machine
end

