-- ==== Sys2Proof/Machine/SystemCommands.lean ====
section
/-! DEFINITION. The system commands (40_host_commands.md R150 to R155) and the status map (20_memory.md R89, R90). -/

namespace Sys2Proof.Machine

/-! ### SET_SAMPLING, RESET_VOICES -/

/-- SET_SAMPLING (R150). -/
def setSampling (P : Params) (sr spb : Word) (s : State) : State :=
  if sampleRateLegal sr = false then raise .badOperand false s
  else if blockSizeLegal P spb = false then raise .badOperand false s
  else
    let t := forVoices P (fullReset P) { s with fs := sr, blockMax := spb, configured := true }
    { t with keymap := List.replicate 128 none
             polyReq := []
             monoReq := []
             relQ := []
             monoSeq := []
             resetReq := false
             switchPending := false
             glfoPhase := fZero
             gBend := setImmediate fZero
             gMod := setImmediate fZero
             gAft := setImmediate fZero
             gCutoff := setImmediate (readF32 P t.patch 0x020)
             gReso := setImmediate (readF32 P t.patch 0x021) }

/-- RESET_VOICES (R151). -/
def resetVoices (s : State) : State := { s with resetReq := true }

/-! ### Patch access -/

/-- PATCH_WRITE (R152). -/
def patchWrite (P : Params) (addr : Nat) (data : Word) (s : State) : State :=
  if patchDefined P addr = false then raise .badAddress false s
  else { s with patch := writeWord P s.patch addr data }

/-- PATCH_READ (R153). -/
def patchRead (P : Params) (addr : Nat) (s : State) : State :=
  if patchDefined P addr = false then raise .badAddress true s else respond (readWord P s.patch addr) s

/-- PATCH_RESET (R154): every defined word at its default, which is the patch RAM with nothing listed. -/
def patchReset (s : State) : State := { s with patch := [] }

/-! ### Status space (20_memory.md R90) -/

/-- The status word COUNTS. -/
def countsWord (s : State) : Word :=
  BitVec.ofNat 32
    (s.voices.countP (fun v => isLive v.state) % 256 + s.voices.countP (fun v => v.state == .stolen) % 256 * 2 ^ 8
      + s.voices.countP (fun v => v.state == .idle) % 256 * 2 ^ 16)

/-- The status word QUEUES. -/
def queuesWord (s : State) : Word :=
  BitVec.ofNat 32
    (s.polyReq.length % 256 + s.monoReq.length % 256 * 2 ^ 8 + s.relQ.length % 256 * 2 ^ 16
      + s.monoSeq.length % 256 * 2 ^ 24)

/-- A voice index or -1, as a word. -/
def indexWord : Option Nat → Word
  | none => 0xFFFFFFFF#32
  | some v => BitVec.ofNat 32 v

/-- Word `f` of a VoiceRequest. -/
def requestWord (r : VoiceRequest) (f : Nat) : Word :=
  match f with
  | 0 => BitVec.ofNat 32 (r.key % 128 + bitAt r.monoRetrigger 8)
  | 1 => r.freq
  | 2 => r.velocity
  | _ => r.timestamp

/-- Word `f` of a ReleaseRequest. -/
def releaseWord (r : ReleaseRequest) (f : Nat) : Word :=
  match f with
  | 0 => BitVec.ofNat 32 (r.key % 128)
  | _ => r.timestamp

/-- Word `f` of a SeqEntry; f = 3 reads 0. -/
def seqWord (e : SeqEntry) (f : Nat) : Word :=
  match f with
  | 0 => BitVec.ofNat 32 (e.key % 128)
  | 1 => e.freq
  | 2 => e.velocity
  | _ => 0

/-- Word `f` of entry `i` of a queue; an entry at or beyond the length reads as 0 (R89). -/
def entryWord {α : Type} (word : α → Nat → Word) (q : List α) (i f : Nat) : Word :=
  match q[i]? with
  | none => 0
  | some e => word e f

/-- Word `f` of VOICE_DATA; f = 10..15 is reserved. -/
def voiceDataWord (v : Voice) (f : Nat) : Option Word :=
  match f with
  | 0 => some v.freq
  | 1 => some v.velocity
  | 2 => some (BitVec.ofNat 32 v.glide)
  | 3 => some (summedCarrierOutput v)
  | f => if f < 10 then some (v.prevMod.getD (f - 4) fZero) else none

/-- The global status words 0x0000 to 0x0006. -/
def globalStatus (P : Params) (s : State) (addr : Nat) : Option Word :=
  match addr with
  | 0 => some (engineWord P s)
  | 1 => some (BitVec.ofNat 32 (faultNumber s.fault))
  | 2 => some s.fs
  | 3 => some s.blockMax
  | 4 => some (queuesWord s)
  | 5 => some (countsWord s)
  | 6 => some s.glfoPhase
  | _ => none

/-- The status word at an address, `none` where the map defines none (R89, R90). -/
def statusWord (P : Params) (s : State) (addr : Nat) : Option Word :=
  if addr < 0x0100 then globalStatus P s addr
  else if addr < 0x0200 then
    (let v := addr - 0x0100
     if v < P.maxVoices then some (voiceStatusWord (s.voice v) (isDone (s.voice v))) else none)
  else if addr < 0x0280 then some (indexWord (s.keyVoice (addr - 0x0200)))
  else if addr < 0x0400 then none
  else if addr < 0x0600 then
    some (entryWord requestWord s.polyReq ((addr - 0x0400) / 4) ((addr - 0x0400) % 4))
  else if addr < 0x0700 then
    some (entryWord releaseWord s.relQ ((addr - 0x0600) / 2) ((addr - 0x0600) % 2))
  else if addr < 0x0900 then
    some (entryWord seqWord s.monoSeq ((addr - 0x0700) / 4) ((addr - 0x0700) % 4))
  else if addr < 0x0904 then some (entryWord requestWord s.monoReq 0 (addr - 0x0900))
  else if addr < 0x1000 then none
  else if (addr - 0x1000) / 16 < P.maxVoices then
    voiceDataWord (s.voice ((addr - 0x1000) / 16)) ((addr - 0x1000) % 16)
  else none

/-- STATUS_READ (R155): the one command that runs while HALTED. There, an undefined address responds 0 and FAULT keeps
its code, which is what raising a second fault does (60_exceptions.md R333). -/
def statusRead (P : Params) (addr : Nat) (s : State) : State :=
  match statusWord P s addr with
  | some w => respond w s
  | none => raise .badAddress true s

/-! ### Meanings -/

/-- The meaning of SET_SAMPLING. -/
def execSetSampling (sr spb : Word) (s : State) : Host.Outcome State Fault Refusal :=
  .next (unlessHalted false (setSampling params sr spb) s)

/-- The meaning of RESET_VOICES. -/
def execResetVoices (s : State) : Host.Outcome State Fault Refusal := .next (unlessHalted false resetVoices s)

/-- The meaning of PATCH_WRITE. -/
def execPatchWrite (addr : Nat) (data : Word) (s : State) : Host.Outcome State Fault Refusal :=
  .next (unlessHalted false (patchWrite params addr data) s)

/-- The meaning of PATCH_READ. -/
def execPatchRead (addr : Nat) (s : State) : Host.Outcome State Fault Refusal :=
  .next (unlessHalted true (patchRead params addr) s)

/-- The meaning of PATCH_RESET. -/
def execPatchReset (s : State) : Host.Outcome State Fault Refusal := .next (unlessHalted false patchReset s)

/-- The meaning of STATUS_READ. -/
def execStatusRead (addr : Nat) (s : State) : Host.Outcome State Fault Refusal := .next (statusRead params addr s)

end Sys2Proof.Machine
end

