-- ==== Sys2Proof/Syntax.lean ====
section
/-! DEFINITION. The commands of the block, one constructor per row of the opcode table (30_encoding.md R102).
Header fields are plain numbers (their widths are WellFormed.lean's), payload words are 32-bit words as they arrive
(R113: an f32 payload is read as its pattern; flushing is the meaning's). -/

namespace Sys2Proof

inductive Instr where
  /-- NOTE_ON (30_encoding.md R103): key, frequency pattern, velocity pattern, timestamp. -/
  | noteOn (key : Nat) (freq velocity : F32) (timestamp : Word)
  /-- NOTE_OFF (R104): key, timestamp. -/
  | noteOff (key : Nat) (timestamp : Word)
  /-- SUSTAIN (R105): pedal down or up. -/
  | sustain (down : Bool)
  /-- RENDER (R106): numSamples, bend, modulation, aftertouch patterns. -/
  | render (numSamples : Nat) (bend modulation aftertouch : F32)
  /-- SET_SAMPLING (R107): sampleRate, samplesPerBlock. -/
  | setSampling (sampleRate samplesPerBlock : Word)
  /-- RESET_VOICES (R108). -/
  | resetVoices
  /-- PATCH_WRITE (R109): patch word address, data word. -/
  | patchWrite (addr : Nat) (data : Word)
  /-- PATCH_READ (R110): patch word address. -/
  | patchRead (addr : Nat)
  /-- PATCH_RESET (R111). -/
  | patchReset
  /-- STATUS_READ (R112): status word address. -/
  | statusRead (addr : Nat)
  deriving DecidableEq, Repr

end Sys2Proof
end

