-- ==== Sys2Proof/Machine/Dispatch.lean ====
section
/-! DEFINITION. The dispatch: one arm per command, each a direct call of its meaning. -/

namespace Sys2Proof.Machine

def exec (i : Instr) (s : State) : Host.Outcome State Fault Refusal :=
  match i with
  | .noteOn key freq velocity ts => Sys2Proof.Machine.execNoteOn key freq velocity ts s
  | .noteOff key ts => Sys2Proof.Machine.execNoteOff key ts s
  | .sustain down => Sys2Proof.Machine.execSustain down s
  | .render n bend modulation aftertouch => Sys2Proof.Machine.execRender n bend modulation aftertouch s
  | .setSampling sr spb => Sys2Proof.Machine.execSetSampling sr spb s
  | .resetVoices => Sys2Proof.Machine.execResetVoices s
  | .patchWrite addr data => Sys2Proof.Machine.execPatchWrite addr data s
  | .patchRead addr => Sys2Proof.Machine.execPatchRead addr s
  | .patchReset => Sys2Proof.Machine.execPatchReset s
  | .statusRead addr => Sys2Proof.Machine.execStatusRead addr s

end Sys2Proof.Machine
end

