-- ==== Sys2Proof/WellFormed.lean ====
section
/-! DEFINITION. When a command can be encoded: every header field fits its field of 30_encoding.md R101. Payload words
and the pedal bit are exact by their types. -/

namespace Sys2Proof

/-- The KEY field `W0[22:16]` has 7 bits (30_encoding.md R101, R113). -/
abbrev KeyFits (key : Nat) : Prop := key < 128

/-- The IMM16 field `W0[15:0]` has 16 bits (30_encoding.md R101). -/
abbrev Imm16Fits (imm : Nat) : Prop := imm < 65536

/-- The command's header fields fit the packet header. -/
def Instr.wellFormed : Instr → Bool
  | .noteOn key _ _ _ => decide (KeyFits key)
  | .noteOff key _ => decide (KeyFits key)
  | .sustain _ => true
  | .render numSamples _ _ _ => decide (Imm16Fits numSamples)
  | .setSampling _ _ => true
  | .resetVoices => true
  | .patchWrite addr _ => decide (Imm16Fits addr)
  | .patchRead addr => decide (Imm16Fits addr)
  | .patchReset => true
  | .statusRead addr => decide (Imm16Fits addr)

/-- `Instr.wellFormed` as a proposition. -/
abbrev Instr.WellFormed (i : Instr) : Prop := i.wellFormed = true

end Sys2Proof
end

