-- ==== Sys2Proof/Decode.lean ====
section
/-! DEFINITION. The command decoder, total on any sequence of words of the command port (30_encoding.md R101 to R115),
and the encoder written from the same rules. -/

namespace Sys2Proof

/-- Why a header is no command (30_encoding.md R114). -/
inductive IllegalHeader where
  /-- OPC is 0x00 or in 0x0B..0xFF. -/
  | reservedOpcode
  /-- Bit 23 is 1. -/
  | reservedBit
  /-- KEY is not 0 for an opcode other than NOTE_ON and NOTE_OFF. -/
  | strayKey
  /-- A bit of IMM16 that the opcode does not use is 1. -/
  | strayImm16
  deriving DecidableEq, Repr

/-- What the command port holds at its front. -/
inductive Decoded where
  /-- No word at all: the engine waits (60_exceptions.md R342). -/
  | empty
  /-- A packet whose payload has not arrived (30_encoding.md R115). -/
  | partialPacket
  /-- A complete packet that is no command: its header, why, and the words after it. -/
  | illegal (header : Word) (why : IllegalHeader) (rest : List Word)
  /-- A complete command and the words after it. -/
  | command (i : Instr) (rest : List Word)
  deriving DecidableEq, Repr

/-- OPC, `W0[31:24]` (30_encoding.md R101). -/
def opcOf (w : Word) : Nat := w.toNat / 2 ^ 24

/-- Bit 23, reserved (R101). -/
def reservedBitOf (w : Word) : Nat := w.toNat / 2 ^ 23 % 2

/-- KEY, `W0[22:16]` (R101). -/
def keyOf (w : Word) : Nat := w.toNat / 2 ^ 16 % 128

/-- IMM16, `W0[15:0]` (R101). -/
def imm16Of (w : Word) : Nat := w.toNat % 65536

/-- The length of a packet in words, a function of OPC alone (30_encoding.md R102); a reserved opcode is a one-word
packet (R114). -/
def packetWords (opc : Nat) : Nat :=
  match opc with
  | 0x01 => 4
  | 0x02 => 2
  | 0x04 => 4
  | 0x05 => 3
  | 0x07 => 2
  | _ => 1

/-- Whether the opcode is one of 0x01..0x0A (R102). -/
def opcodeKnown (opc : Nat) : Bool := decide (1 ≤ opc ∧ opc ≤ 0x0A)

/-- The opcodes that use the KEY field (R101). -/
def opcodeUsesKey (opc : Nat) : Bool := opc == 0x01 || opc == 0x02

/-- The bits of IMM16 that the opcode does not use, as the remainder that must be 0 (R114): all of them, or bits
[15:1] for SUSTAIN, or none. -/
def strayImm16 (opc imm : Nat) : Nat :=
  match opc with
  | 0x03 => imm / 2
  | 0x04 => 0
  | 0x07 => 0
  | 0x08 => 0
  | 0x0A => 0
  | _ => imm

/-- R114's checks of a header, in its order. -/
def headerIllegal (w : Word) : Option IllegalHeader :=
  if opcodeKnown (opcOf w) = false then some .reservedOpcode
  else if reservedBitOf w ≠ 0 then some .reservedBit
  else if opcodeUsesKey (opcOf w) = false ∧ keyOf w ≠ 0 then some .strayKey
  else if strayImm16 (opcOf w) (imm16Of w) ≠ 0 then some .strayImm16
  else none

/-- The command of a legal header and its payload words (30_encoding.md R103 to R113). -/
def assemble (w : Word) (w1 w2 w3 : Word) : Option Instr :=
  match opcOf w with
  | 0x01 => some (.noteOn (keyOf w) w1 w2 w3)
  | 0x02 => some (.noteOff (keyOf w) w1)
  | 0x03 => some (.sustain (imm16Of w % 2 == 1))
  | 0x04 => some (.render (imm16Of w) w1 w2 w3)
  | 0x05 => some (.setSampling w1 w2)
  | 0x06 => some .resetVoices
  | 0x07 => some (.patchWrite (imm16Of w) w1)
  | 0x08 => some (.patchRead (imm16Of w))
  | 0x09 => some .patchReset
  | 0x0A => some (.statusRead (imm16Of w))
  | _ => none

/-- The decoder: what stands at the front of the command port. The whole packet has to be there before anything is
decided (R115), and the words after it are the rest. -/
def decode (port : List Word) : Decoded :=
  match port with
  | [] => .empty
  | w :: rest =>
    if rest.length + 1 < packetWords (opcOf w) then .partialPacket
    else
      match headerIllegal w with
      | some why => .illegal w why (rest.drop (packetWords (opcOf w) - 1))
      | none =>
        match assemble w (rest.getD 0 0) (rest.getD 1 0) (rest.getD 2 0) with
        | some i => .command i (rest.drop (packetWords (opcOf w) - 1))
        | none => .illegal w .reservedOpcode (rest.drop (packetWords (opcOf w) - 1))

/-- A header word from its fields (R101). -/
def headerWord (opc key imm : Nat) : Word := BitVec.ofNat 32 (opc * 2 ^ 24 + key * 2 ^ 16 + imm)

/-- The words of a command (30_encoding.md R103 to R112). -/
def encode : Instr → List Word
  | .noteOn key freq velocity ts => [headerWord 0x01 key 0, freq, velocity, ts]
  | .noteOff key ts => [headerWord 0x02 key 0, ts]
  | .sustain down => [headerWord 0x03 0 (if down then 1 else 0)]
  | .render n b m a => [headerWord 0x04 0 n, b, m, a]
  | .setSampling sr spb => [headerWord 0x05 0 0, sr, spb]
  | .resetVoices => [headerWord 0x06 0 0]
  | .patchWrite addr data => [headerWord 0x07 0 addr, data]
  | .patchRead addr => [headerWord 0x08 0 addr]
  | .patchReset => [headerWord 0x09 0 0]
  | .statusRead addr => [headerWord 0x0A 0 addr]

/-- The opcode of a command (R102). -/
def opcodeOf : Instr → Nat
  | .noteOn _ _ _ _ => 0x01
  | .noteOff _ _ => 0x02
  | .sustain _ => 0x03
  | .render _ _ _ _ => 0x04
  | .setSampling _ _ => 0x05
  | .resetVoices => 0x06
  | .patchWrite _ _ => 0x07
  | .patchRead _ => 0x08
  | .patchReset => 0x09
  | .statusRead _ => 0x0A

/-- The packet that the low `nbits` bits of `w` lay out, first word lowest, the bits above `nbits` zero: as many words
as the header's opcode takes. -/
def tableWords (nbits w : Nat) : List Word :=
  let v := w % 2 ^ nbits
  let word := fun (k : Nat) => BitVec.ofNat 32 (v / 2 ^ (32 * k))
  (List.range (packetWords (opcOf (word 0)))).map word

/-- The instruction the decoder reads from a word of the opcode table. -/
def decodeTableWord (nbits w : Nat) : Option Instr :=
  match decode (tableWords nbits w) with
  | .command i _ => some i
  | _ => none

end Sys2Proof
end

