-- ==== Sys2Proof/Machine/Fetch.lean ====
section
/-! DEFINITION. Taking a packet from the command port (30_encoding.md R101, R114, R115), what an illegal packet
does (R114; 60_exceptions.md R331, R332), and why the engine waits where no packet has begun (70_reset_and_hazards.md
R380). -/

namespace Sys2Proof.Machine

/-- Whether a packet owes a response word (30_encoding.md R102): PATCH_READ and STATUS_READ do, whatever else their
header holds (60_exceptions.md R332; log 11). -/
def owesResponse (header : Word) : Bool := opcOf header == 0x08 || opcOf header == 0x0A

/-- `Fault(ILLEGAL_COMMAND)` of an illegal packet, or its discarding while HALTED (40_host_commands.md R140). -/
def illegalPacket (header : Word) (s : State) : State :=
  unlessHalted (owesResponse header) (raise .illegalCommand (owesResponse header)) s

/-- Every response and frame that was produced has been taken from the ports (70_reset_and_hazards.md R380). -/
def State.drained (s : State) : Bool := s.respPort.isEmpty && s.framePort.isEmpty

/-- Why the engine has no step where no packet has begun: at an end of the run, or before words the host has yet to take
(R380). -/
def waitReason (s : State) : Fault := if s.drained then .commandPortEmpty else .outputUnread

/-- The state with the rest of the command port after a packet is taken. -/
def taken (rest : List Word) (s : State) : State := { s with cmdPort := rest }

end Sys2Proof.Machine
end

