-- ==== Sys2Proof/Machine/Step.lean ====
section
/-! DEFINITION. One step of the engine (40_host_commands.md R140): one complete packet taken from the command port and
executed to completion. With no complete packet the engine has no step (30_encoding.md R115). -/

namespace Sys2Proof.Machine

/-- One step. -/
def step (s : State) : Host.Outcome State Fault Refusal :=
  match decode s.cmdPort with
  | .empty => .fault (waitReason s)
  | .partialPacket => .fault .partialPacket
  | .illegal header _ rest => .next (illegalPacket header (taken rest s))
  | .command i rest => exec i (taken rest s)

/-- The state with the packet of a table word at the front of the command port, where `step` takes its next packet. -/
def State.withFetchWord (s : State) (nbits w : Nat) : State := { s with cmdPort := tableWords nbits w ++ s.cmdPort }

end Sys2Proof.Machine
end

