-- ==== Sys2Proof/Machine/Run.lean ====
section
/-! DEFINITION. Runs of the engine (70_reset_and_hazards.md R380): the moves of the host at its ports between two
commands (R371, 30_encoding.md R100), a run from power-on reset, and how a run stands at a command boundary if the host
makes no further move: ended, and then completed or faulted, or stuck, or still running. -/

namespace Sys2Proof.Machine

/-- How a run stands at a command boundary where the host makes no further move (R380). -/
inductive RunStanding where
  /-- A whole packet waits: the engine has a step. -/
  | running
  /-- Ended, and the engine is not HALTED. -/
  | completed
  /-- Ended, and the engine is HALTED. -/
  | faulted
  /-- Not ended, and the engine has no step: a packet begun, or words not taken. -/
  | stuck (why : Fault)
  deriving DecidableEq, Repr

/-- How the run stands (R380). -/
def runStanding (s : State) : RunStanding :=
  match decode s.cmdPort with
  | .empty => if s.drained then (if s.halted then .faulted else .completed) else .stuck (waitReason s)
  | .partialPacket => .stuck .partialPacket
  | .illegal _ _ _ => .running
  | .command _ _ => .running

/-- A run has ended: completed or faulted (R380). -/
def runEnded (s : State) : Bool := runStanding s == .completed || runStanding s == .faulted

/-- A move at a command boundary: the host's at a port (R371), or the engine's, one command. -/
inductive RunMove where
  /-- The host sends one word of its command stream. -/
  | send (w : Word)
  /-- The host takes the oldest response word. -/
  | takeResponse
  /-- The host takes the oldest frame, its two words. -/
  | takeFrame
  /-- The engine's step. -/
  | engine
  deriving DecidableEq, Repr

/-- The state after a move; none where the port to be read holds nothing, or the engine has no step. -/
def runMove (m : RunMove) (s : State) : Option State :=
  match m with
  | .send w => some { s with cmdPort := s.cmdPort ++ [w] }
  | .takeResponse =>
    match s.respPort with
    | [] => none
    | _ :: ws => some { s with respPort := ws }
  | .takeFrame =>
    match s.framePort with
    | [] => none
    | _ :: fs => some { s with framePort := fs }
  | .engine =>
    match step s with
    | .next t => some t
    | .fault _ => none
    | .refused _ => none

/-- The state after a sequence of moves, in order. -/
def runMoves : List RunMove → State → Option State
  | [], s => some s
  | m :: ms, s =>
    match runMove m s with
    | none => none
    | some t => runMoves ms t

/-- A run: moves from power-on reset that lead to `t` (R380). -/
def isRun (ms : List RunMove) (t : State) : Prop := runMoves ms State.reset = some t

end Sys2Proof.Machine
end

