-- ==== Sys2Proof/Safety.lean ====
section
/-! DEFINITION. What a safe state is: the invariants of 10_state.md R41 with what makes them inductive, the shape of
the voice records, and the ranges of the stored data. Statements about every step take these as premises where a state
that no run reaches would break them. -/

namespace Sys2Proof.Machine

/-! ### The lifecycle invariant -/

/-- No two entries of a queue have the same key (10_state.md R41, I-queue). -/
def DistinctKeys {α : Type} (key : α → Nat) (q : List α) : Prop := (q.map key).Nodup

/-- Every key of a queue is a key (10_state.md R36). -/
def KeysFit {α : Type} (key : α → Nat) (q : List α) : Prop := ∀ e ∈ q, key e < 128

/-- The voice pool and the key map agree (I-key, I-idle, I-stolen). -/
structure PoolInv (P : Params) (s : State) : Prop where
  /-- The pool has MAX_VOICES voices (10_state.md R23). -/
  poolSize : s.voices.length = P.maxVoices
  /-- The key map has 128 entries (R38). -/
  keymapSize : s.keymap.length = 128
  /-- A voice holds a key exactly where the key map names it for that key (I-key). -/
  bound : ∀ v k, v < P.maxVoices → ((s.voice v).key = some k ↔ s.keyVoice k = some v)
  /-- The key map names voices of the pool (R38). -/
  mapped : ∀ k v, s.keyVoice k = some v → v < P.maxVoices
  /-- A voice that holds a key is Playing or Releasing (I-key, I-idle, I-stolen). -/
  boundLive : ∀ v, v < P.maxVoices → (s.voice v).key ≠ none → isLive (s.voice v).state = true
  /-- A sustained voice is Playing (I-idle, 41_lifecycle.md R185). -/
  sustainedPlaying : ∀ v, v < P.maxVoices → (s.voice v).sustained = true → (s.voice v).state = .playing

/-- The queues hold distinct keys within their bounds (I-queue, 10_state.md R36, R37). -/
structure QueueInv (P : Params) (s : State) : Prop where
  polyDistinct : DistinctKeys VoiceRequest.key s.polyReq
  relDistinct : DistinctKeys ReleaseRequest.key s.relQ
  seqDistinct : DistinctKeys SeqEntry.key s.monoSeq
  /-- MONO_REQ holds at most one request. -/
  monoOne : s.monoReq.length ≤ 1
  /-- POLY_REQ never holds more than MAX_VOICES requests (R37). -/
  polyBounded : s.polyReq.length ≤ P.maxVoices
  polyKeys : KeysFit VoiceRequest.key s.polyReq
  monoKeys : KeysFit VoiceRequest.key s.monoReq
  relKeys : KeysFit ReleaseRequest.key s.relQ
  seqKeys : KeysFit SeqEntry.key s.monoSeq

/-- The lifecycle invariant: R41's I-key, I-idle, I-stolen, I-queue and I-poly, and the facts they rest on. -/
structure Inv (P : Params) (s : State) : Prop where
  pool : PoolInv P s
  queues : QueueInv P s
  /-- CUR_POLY is 1..MAX_VOICES (R21). -/
  polyphony : 1 ≤ s.curPoly ∧ s.curPoly ≤ P.maxVoices
  /-- The key of a pending poly request is bound to no voice (40_host_commands.md R141). -/
  pendingUnbound : ∀ r ∈ s.polyReq, s.keyVoice r.key = none
  /-- In Mono, a Playing or Releasing voice is voice 0, and nothing waits in POLY_REQ (I-poly). -/
  monoMode : s.mode = .mono → s.polyReq = [] ∧ ∀ v, v < P.maxVoices → isLive (s.voice v).state = true → v = 0
  /-- In Poly, the mono queues are empty (41_lifecycle.md R191). -/
  polyMode : s.mode = .poly → s.monoReq = [] ∧ s.monoSeq = []

/-! ### The record invariant -/

/-- Operator `i`'s modulators have a lower index and its feedback source no higher one (20_memory.md R88, V4 and V5). -/
def routed (i : Nat) (o : Operator) : Prop :=
  modIndexLegal i o.mod0 = true ∧ modIndexLegal i o.mod1 = true ∧ modIndexLegal i o.mod2 = true
    ∧ modIndexLegal (i + 1) o.fbSrc = true

/-- The configuration of an operator, set when its voice is initialised and at no other time (10_state.md R34), with the
part of its envelope that only EnvStart writes (44_control_units.md R300). -/
structure SameConfig (o o' : Operator) : Prop where
  enabled : o'.enabled = o.enabled
  carrier : o'.carrier = o.carrier
  fixed : o'.fixed = o.fixed
  waveform : o'.waveform = o.waveform
  filterType : o'.filterType = o.filterType
  mod0 : o'.mod0 = o.mod0
  mod1 : o'.mod1 = o.mod1
  mod2 : o'.mod2 = o.mod2
  fbSrc : o'.fbSrc = o.fbSrc
  ampMod : o'.ampMod = o.ampMod
  pitchMod : o'.pitchMod = o.pitchMod
  panMod : o'.panMod = o.panMod
  filtCutoff : o'.filtCutoff = o.filtCutoff
  filtQ : o'.filtQ = o.filtQ
  infinite : o'.env.infinite = o.env.infinite
  envCarrier : o'.env.carrier = o.env.carrier
  envParams : o'.env.params = o.env.params

/-- Operator by operator the same configuration. -/
def SameConfigs (a b : List Operator) : Prop :=
  b.length = a.length ∧ ∀ (i : Nat) (o o' : Operator), a[i]? = some o → b[i]? = some o' → SameConfig o o'

/-- What a voice keeps from one initialisation to the next while samples are rendered: its note, its lifecycle state
and its operators' configuration (41_lifecycle.md R182, 10_state.md R34). -/
structure SameNote (v w : Voice) : Prop where
  state : w.state = v.state
  key : w.key = v.key
  velocity : w.velocity = v.velocity
  freq : w.freq = v.freq
  sustained : w.sustained = v.sustained
  glide : w.glide = v.glide
  configs : SameConfigs v.ops w.ops
  filterInfinite : w.filterEnv.infinite = v.filterEnv.infinite

/-- A voice record as the rules keep it. -/
structure VoiceWf (v : Voice) : Prop where
  /-- Six operators (10_state.md R29). -/
  sixOperators : v.ops.length = 6
  /-- Six stored outputs (R30). -/
  sixOutputs : v.prevMod.length = 6
  /-- No cycle in the modulation graph (43_operator_graph.md R277). -/
  acyclic : ∀ i o, v.ops[i]? = some o → routed i o
  /-- The envelope of an enabled carrier is never infinite (44_control_units.md R306). -/
  carriersEnd : ∀ o ∈ v.ops, heard o = true → o.env.infinite = false
  /-- The filter envelope is never infinite (R306). -/
  filterEnvEnds : v.filterEnv.infinite = false

/-- Every voice record is as the rules keep it. -/
def RecordInv (s : State) : Prop := ∀ v ∈ s.voices, VoiceWf v

/-! ### The data invariant -/

/-- A queued frequency and velocity passed NOTE_ON's checks (40_host_commands.md R141, R142). -/
def queuedLegal (freq velocity : F32) : Prop := freqLegal freq = true ∧ unitLegal velocity = true

/-- What the stored data satisfies. -/
structure DataInv (P : Params) (s : State) : Prop where
  /-- The patch RAM is in its canonical form. -/
  patchWf : Memory.wf P s.patch = true
  /-- Only defined patch words are ever written (20_memory.md R87). -/
  patchDefinedOnly : ∀ c ∈ s.patch, patchDefined P (c.1 / 4) = true
  /-- A configured engine has a legal sample rate and block size (40_host_commands.md R150). -/
  sampling : s.configured = true →
    (1000 ≤ s.fs.toNat ∧ s.fs.toNat ≤ 384000) ∧ (1 ≤ s.blockMax.toNat ∧ s.blockMax.toNat ≤ P.maxBlock)
  /-- Queued operands are legal (R142). -/
  polyLegal : ∀ r ∈ s.polyReq, queuedLegal r.freq r.velocity
  monoLegal : ∀ r ∈ s.monoReq, queuedLegal r.freq r.velocity
  seqLegal : ∀ e ∈ s.monoSeq, queuedLegal e.freq e.velocity
  /-- No frame that was emitted holds a NaN or an infinity (41_lifecycle.md R216). -/
  framesFinite : ∀ f ∈ s.framePort, isFinite f.left = true ∧ isFinite f.right = true

end Sys2Proof.Machine
end

