-- ==== Sys2Proof/Certificates/Slice0/Obligations.lean ====
section
/-! DEFINITION. The statements for the provers, in the order of OBLIGATIONS.json: the encoding, the engine as a whole,
the note commands, RENDER and its parts, the control units, the system commands, reset and the invariants. -/

open Sys2Proof Sys2Proof.Machine

/-! ### Words of the rules, written from the spec's bit positions and not with the decoder's own functions -/

namespace Sys2Proof.Claims

/-- OPC, `W0[31:24]` (30_encoding.md R101). -/
def opc (header : Word) : BitVec 8 := header.extractLsb' 24 8

/-- The opcode map's packet lengths (R102). -/
def lengthOf (o : BitVec 8) : Nat :=
  if o = 0x01 ∨ o = 0x04 then 4 else if o = 0x05 then 3 else if o = 0x02 ∨ o = 0x07 then 2 else 1

/-- The port starts with `header` and holds the header's whole packet; `rest` is what follows the header. -/
def wholePacket (port : List Word) (header : Word) (rest : List Word) : Prop :=
  port = header :: rest ∧ lengthOf (opc header) ≤ rest.length + 1

/-- A header that R114 calls reserved or illegal. -/
def reservedHeader (header : Word) : Prop :=
  let o := opc header
  let imm : BitVec 16 := header.extractLsb' 0 16
  o = 0x00 ∨ 0x0B ≤ o.toNat
    ∨ header.extractLsb' 23 1 = 1#1
    ∨ ((header.extractLsb' 16 7 : BitVec 7) ≠ 0 ∧ o ≠ 0x01 ∧ o ≠ 0x02)
    ∨ (imm ≠ 0 ∧ (o = 0x01 ∨ o = 0x02 ∨ o = 0x05 ∨ o = 0x06 ∨ o = 0x09))
    ∨ ((imm.extractLsb' 1 15 : BitVec 15) ≠ 0 ∧ o = 0x03)

/-- A packet that answers on the response port (R102): PATCH_READ and STATUS_READ. -/
def answers (header : Word) : Prop := opc header = 0x08 ∨ opc header = 0x0A

/-- The operands a RENDER accepts (40_host_commands.md R146). -/
def renderOperandsLegal (s : State) (n : Nat) (bend modulation aftertouch : F32) : Prop :=
  n ≠ 0 ∧ n ≤ s.blockMax.toNat ∧ bendLegal (flush bend) = true ∧ unitLegal (flush modulation) = true
    ∧ unitLegal (flush aftertouch) = true

/-- What a RENDER needs to run its sequence (R146): no fault so far, a configured engine, legal operands, a legal
patch. -/
def renderRuns (s : State) (n : Nat) (bend modulation aftertouch : F32) : Prop :=
  s.fault = .clear ∧ s.configured = true ∧ renderOperandsLegal s n bend modulation aftertouch
    ∧ patchLegal params s.patch = true

/-- The commands that are no RENDER and no patch, status or sampling command. -/
def isNoteCommand : Instr → Prop
  | .noteOn _ _ _ _ => True
  | .noteOff _ _ => True
  | .sustain _ => True
  | .resetVoices => True
  | .render _ _ _ _ => False
  | .setSampling _ _ => False
  | .patchWrite _ _ => False
  | .patchRead _ => False
  | .patchReset => False
  | .statusRead _ => False

/-- Addresses 0x000 to 0x022, and offsets 0x00 to 0x18 of the six operator groups (20_memory.md R82, R83). -/
def patchWordDefined (addr : Nat) : Prop := addr ≤ 0x022 ∨ (0x040 ≤ addr ∧ addr < 0x100 ∧ (addr - 0x040) % 0x20 ≤ 0x18)

/-- The addresses of the status map (20_memory.md R90). -/
def statusWordDefined (addr : Nat) : Prop :=
  addr ≤ 0x0006 ∨ (0x0100 ≤ addr ∧ addr < 0x0100 + params.maxVoices) ∨ (0x0200 ≤ addr ∧ addr < 0x0280)
    ∨ (0x0400 ≤ addr ∧ addr < 0x0600) ∨ (0x0600 ≤ addr ∧ addr < 0x0700) ∨ (0x0700 ≤ addr ∧ addr < 0x0900)
    ∨ (0x0900 ≤ addr ∧ addr < 0x0904)
    ∨ (0x1000 ≤ addr ∧ addr < 0x1000 + 16 * params.maxVoices ∧ (addr - 0x1000) % 16 < 10)

/-- The Idle voices below CUR_POLY in ascending order (41_lifecycle.md R194). -/
def idleSlots (s : State) : List Nat := (List.range s.curPoly).filter (fun v => (s.voice v).state == .idle)

/-- A voice that StealPass may take (41_lifecycle.md R222). -/
def stealable (s : State) (v : Nat) : Prop :=
  v < s.curPoly ∧ ((s.voice v).state = .playing ∨ (s.voice v).state = .releasing)

/-- The Idle envelope record (10_state.md R40). -/
def powerOnEnvelope : Envelope :=
  ⟨.idle, fZero, false, false, 0, ⟨fZero, fZero, fZero, fZero, fZero, fZero, fZero, fZero⟩, params.envMathInit⟩

/-- The FAULT codes of 60_exceptions.md R330. -/
def faultCode : FaultCode → BitVec 8
  | .clear => 0
  | .illegalCommand => 1
  | .badAddress => 2
  | .notConfigured => 3
  | .badOperand => 4
  | .badPatch => 5
  | .numeric => 6

/-- The STATE codes of 10_state.md R24. -/
def stateCode : VoiceState → BitVec 2
  | .idle => 0
  | .playing => 1
  | .releasing => 2
  | .stolen => 3

/-- SummedCarrierOutput (42_voice_ops.md R250): over the enabled carriers in order, envelope level × AMP, added up. -/
def loudness (v : Voice) : F32 :=
  v.ops.foldl (fun acc o => if o.enabled && o.carrier then fadd acc (fmul o.env.level o.amp.cur) else acc) fZero

/-- The score of StealPass (41_lifecycle.md R222): the loudness, times STEAL_RELEASE_BIAS where the voice is Releasing and
times 1.0 where it is not. -/
def score (P : Params) (v : Voice) : F32 :=
  fmul (loudness v) (if v.state = .releasing then P.stealReleaseBias else fOne)

/-- BaseFreq (42_voice_ops.md R231). The key table's value is read flushed (log 15). -/
def noteFreq (P : Params) (r : VoiceRequest) : F32 :=
  if feq r.freq fNegOne then flush (P.keyFreqTable r.key) else r.freq

/-- FreqTarget of an operator (42_voice_ops.md R238). The ratio is read flushed (log 15). -/
def pitchOf (P : Params) (q : OpPatch) (fixed : Bool) (freq : F32) : F32 :=
  if fixed then q.fixedHz else fmul freq (flush (P.opRatioFn q.coarse q.fine))

/-- The record EnvStart leaves (44_control_units.md R300). -/
def startedEnvelope (P : Params) (p : EnvParams) (fs : Word) (isCarrier : Bool) (kts vs : F32) : Envelope :=
  let count := rint (fmul p.delay (fofNat fs.toNat))
  ⟨if 0 < count then .delay else .attack, fZero, !isCarrier && feq p.release fOne, isCarrier, count, p,
    P.envInit p fs isCarrier kts vs⟩

/-- The operator record of a voice just initialised (42_voice_ops.md R232, R233), `q` being its group of the snapshot.
What EnvScaleFn and AmpTargetFn give is read flushed (log 15). -/
def startedOperator (P : Params) (fs : Word) (r : VoiceRequest) (q : OpPatch) : Operator :=
  let enabled := q.flags.extractLsb' 0 1 == 1#1
  let carrier := q.flags.extractLsb' 1 1 == 1#1
  let fixed := q.flags.extractLsb' 2 1 == 1#1
  let waveform : BitVec 4 := q.flags.extractLsb' 4 4
  let filterCode : BitVec 2 := q.flags.extractLsb' 8 2
  let scales := P.envScaleFn q.envKeyTrack r.key r.velocity
  { enabled := enabled, carrier := carrier, fixed := fixed, waveform := waveform
    filterType := if filterCode = 0 then .off else if filterCode = 1 then .lowPass else if filterCode = 2 then .highPass
      else .bandPass
    mod0 := q.mods.extractLsb' 0 3, mod1 := q.mods.extractLsb' 3 3, mod2 := q.mods.extractLsb' 6 3
    fbSrc := q.mods.extractLsb' 9 3
    ampMod := q.ampMod, pitchMod := q.pitchMod, panMod := q.panMod, filtCutoff := q.filtCutoff, filtQ := q.filtQ
    osc := ⟨fZero, fZero, fOne, waveform, P.waveExtInit⟩
    filt := P.ofInit
    fbState := fZero
    env := if enabled then startedEnvelope P q.env fs carrier (flush scales.1) (flush scales.2) else
      ⟨.idle, fZero, false, false, 0, ⟨fZero, fZero, fZero, fZero, fZero, fZero, fZero, fZero⟩, P.envMathInit⟩
    freq := setImmediate (pitchOf P q fixed (noteFreq P r))
    amp := setImmediate (flush (P.ampTargetFn q.output q.velSens q.keyScale r.key r.velocity))
    drive := setImmediate q.drive, pan := setImmediate q.pan, feedback := setImmediate q.feedback }

/-- The record of a voice just initialised for a request (42_voice_ops.md R230, R232 to R234), `phase` being GLFO_PHASE. -/
def startedVoice (P : Params) (pt : Patch) (fs : Word) (phase : F32) (r : VoiceRequest) : Voice :=
  { state := .playing, key := some r.key, velocity := r.velocity, freq := noteFreq P r, sustained := false, glide := 0
    ops := (List.range 6).map (fun i => startedOperator P fs r (pt.op i))
    prevMod := [fZero, fZero, fZero, fZero, fZero, fZero]
    filterEnv := startedEnvelope P pt.filterEnv fs true fOne fOne
    pitchEnv := startedEnvelope P pt.pitchEnv fs false fOne fOne
    lfo1 := ⟨phase, pt.lfoRate, fOne, pt.lfoWave1, P.waveExtInit⟩
    lfo2 := ⟨phase, pt.lfoRate, fOne, pt.lfoWave2, P.waveExtInit⟩
    modLfo := ⟨phase, fmul pt.lfoRate pt.modLfoSpeed, fOne, pt.modLfoWave, P.waveExtInit⟩
    vfilt := P.vfInit }

end Sys2Proof.Claims

open Sys2Proof.Claims

/-! ### Encoding -/

/-- Every command comes back from its packet, whatever follows it on the port (30_encoding.md R101 to R113). -/
def Obligations.DecodeOfEncodeIsTheCommand : Prop :=
  ∀ (i : Instr) (rest : List Word), i.WellFormed → decode (encode i ++ rest) = .command i rest

/-- A packet that decodes to a command is exactly that command's words, so no bit of a packet is dropped and no two
packets mean the same command (R101 to R114). -/
def Obligations.DecodedPacketIsItsCommandsEncoding : Prop :=
  ∀ (port : List Word) (i : Instr) (rest : List Word), decode port = .command i rest →
    i.WellFormed ∧ port = encode i ++ rest

/-- The packets that R103 to R112 write out as examples. -/
def Obligations.SpecExamplePacketsDecode : Prop :=
  decode [0x013C0000#32, 0xBF800000#32, 0x3F800000#32, 0x00000000#32] = .command (.noteOn 60 fNegOne fOne 0) []
  ∧ decode [0x023C0000#32, 0x00000005#32] = .command (.noteOff 60 5) []
  ∧ decode [0x03000001#32] = .command (.sustain true) []
  ∧ decode [0x04000040#32, 0#32, 0#32, 0#32] = .command (.render 64 fZero fZero fZero) []
  ∧ decode [0x05000000#32, 0x0000AC44#32, 0x00000040#32] = .command (.setSampling 44100 64) []
  ∧ decode [0x06000000#32] = .command .resetVoices []
  ∧ decode [0x07000001#32, 0x00000004#32] = .command (.patchWrite 1 4) []
  ∧ decode [0x08000009#32] = .command (.patchRead 9) []
  ∧ decode [0x09000000#32] = .command .patchReset []
  ∧ decode [0x0A000004#32] = .command (.statusRead 4) []

/-- A complete packet is a command exactly where its header is none that R114 names. That an illegal packet's payload is
taken with its header is the model's reading of R101 (log 10). -/
def Obligations.WholePacketIsCommandUnlessReserved : Prop :=
  ∀ (port : List Word) (header : Word) (rest : List Word), wholePacket port header rest →
    (reservedHeader header →
      ∃ why, decode port = .illegal header why (rest.drop (lengthOf (opc header) - 1)))
    ∧ (¬ reservedHeader header →
      ∃ i, decode port = .command i (rest.drop (lengthOf (opc header) - 1)))

/-! ### The engine -/

/-- The engine has a step exactly where a whole packet stands on the command port; otherwise it waits (R115), and the run
has ended exactly where no port holds a word: completed, or faulted where the engine is HALTED (70_reset_and_hazards.md
R380). That having no step is the outcome `fault`, under one of three names, is the model's form (log 2). -/
def Obligations.StepNeedsAWholePacket : Prop :=
  ∀ s : State,
    ((∃ t, step s = .next t) ↔ ∃ header rest, wholePacket s.cmdPort header rest)
    ∧ (runStanding s = .running ↔ ∃ t, step s = .next t)
    ∧ (s.cmdPort = [] → s.respPort = [] → s.framePort = [] →
        step s = .fault .commandPortEmpty ∧ runStanding s = if s.fault = .clear then .completed else .faulted)
    ∧ (s.cmdPort = [] → s.respPort ≠ [] ∨ s.framePort ≠ [] →
        step s = .fault .outputUnread ∧ runStanding s = .stuck .outputUnread)
    ∧ (∀ header rest, s.cmdPort = header :: rest → rest.length + 1 < lengthOf (opc header) →
        step s = .fault .partialPacket ∧ runStanding s = .stuck .partialPacket)

/-- A step takes the packet at the front of the command port and runs its command on the rest (40_host_commands.md
R140). -/
def Obligations.StepRunsTheDecodedCommand : Prop :=
  ∀ (s : State) (i : Instr) (rest : List Word), decode s.cmdPort = .command i rest →
    step s = exec i { s with cmdPort := rest }

/-- A packet with a reserved header raises ILLEGAL_COMMAND and changes no other state (R114). The model's readings: the
packet is taken whole (log 10), and a PATCH_READ or STATUS_READ header still answers its one word, 0 (log 11). -/
def Obligations.ReservedPacketRaisesIllegalCommand : Prop :=
  ∀ (s : State) (header : Word) (rest : List Word), s.fault = .clear → wholePacket s.cmdPort header rest →
    reservedHeader header →
    (¬ answers header → step s = .next { s with cmdPort := rest.drop (lengthOf (opc header) - 1)
                                                fault := .illegalCommand })
    ∧ (answers header → step s = .next { s with cmdPort := rest.drop (lengthOf (opc header) - 1)
                                                fault := .illegalCommand
                                                respPort := s.respPort ++ [0] })

/-- While HALTED every command but STATUS_READ is discarded; a discarded PATCH_READ answers 0 (40_host_commands.md R140,
60_exceptions.md R332). -/
def Obligations.HaltedEngineDiscardsCommands : Prop :=
  ∀ (s : State) (i : Instr), s.fault ≠ .clear → (∀ a, i ≠ .statusRead a) →
    ((∀ a, i ≠ .patchRead a) → exec i s = .next s)
    ∧ (∀ a, i = .patchRead a → exec i s = .next { s with respPort := s.respPort ++ [0] })

/-- Once FAULT is set, a step takes exactly one packet, answers at most one word, and leaves everything else, the first
fault's code included (60_exceptions.md R333): no word for a packet that answers none, and 0 for a PATCH_READ and for an
illegal header of an answering opcode (R332; the model's readings, logs 10, 11 and 12). -/
def Obligations.FirstFaultIsKeptForever : Prop :=
  ∀ s t : State, s.fault ≠ .clear → step s = .next t →
    ∃ header rest ws, wholePacket s.cmdPort header rest
      ∧ t = { s with cmdPort := s.cmdPort.drop (lengthOf (opc header)), respPort := s.respPort ++ ws }
      ∧ ws.length ≤ 1 ∧ (¬ answers header → ws = [])
      ∧ (answers header → (opc header = 0x08 ∨ reservedHeader header) → ws = [0])

/-- Every PATCH_READ and STATUS_READ packet puts exactly one word on the response port, and no other packet puts any
(60_exceptions.md R332, 30_encoding.md R100). That an illegal header of the two owes its word too is the model's reading
(log 11). -/
def Obligations.EachReadPacketAnswersOneWord : Prop :=
  ∀ (s t : State) (header : Word) (rest : List Word), s.cmdPort = header :: rest → step s = .next t →
    (answers header → ∃ w, t.respPort = s.respPort ++ [w]) ∧ (¬ answers header → t.respPort = s.respPort)

/-- Every command completes in a next state, whatever its operands and the state are: none is refused, and a spec fault is
a next state with FAULT written (60_exceptions.md R331). -/
def Obligations.EveryCommandCompletes : Prop :=
  ∀ (i : Instr) (s : State), ∃ t, exec i s = .next t

/-! ### Note commands -/

/-- NOTE_ON in Poly for a key that is neither pending nor bound: the oldest requests give way to the bound CUR_POLY, and
the new request goes to the back (40_host_commands.md R141). -/
def Obligations.NoteOnQueuesPolyRequest : Prop :=
  ∀ (s : State) (k : Nat) (freq velocity : F32) (ts : Word),
    s.fault = .clear → s.mode = .poly → freqLegal (flush freq) = true → unitLegal (flush velocity) = true →
    (∀ r ∈ s.polyReq, r.key ≠ k) → s.keyVoice k = none →
    exec (.noteOn k freq velocity ts) s
      = .next { s with polyReq := s.polyReq.drop (s.polyReq.length + 1 - s.curPoly)
                         ++ [⟨k, flush freq, flush velocity, ts, false⟩] }

/-- NOTE_ON in Poly for a bound key: the voice is released where it is Playing, unbound and no longer sustained, and the
request is queued; no other voice, key or register changes (R141, 42_voice_ops.md R245, R246). -/
def Obligations.NoteOnRetriggerUnbindsVoice : Prop :=
  ∀ (s : State) (k v : Nat) (freq velocity : F32) (ts : Word),
    s.fault = .clear → s.mode = .poly → freqLegal (flush freq) = true → unitLegal (flush velocity) = true →
    (∀ r ∈ s.polyReq, r.key ≠ k) → s.keyVoice k = some v → (s.voice v).key = some k →
    let x := s.voice v
    let released : Voice :=
      { x with state := .releasing
               ops := x.ops.map (fun o => { o with env := envStop o.env })
               filterEnv := envStop x.filterEnv
               pitchEnv := envStop x.pitchEnv }
    let y := if x.state = .playing then released else x
    exec (.noteOn k freq velocity ts) s
      = .next { s with voices := s.voices.set v { y with key := none, sustained := false }
                       keymap := s.keymap.set k none
                       polyReq := s.polyReq.drop (s.polyReq.length + 1 - s.curPoly)
                         ++ [⟨k, flush freq, flush velocity, ts, false⟩] }

/-- NOTE_ON for a key whose request is pending changes nothing, not even the bound voice (R141, R142). -/
def Obligations.DuplicateNoteOnIsIgnored : Prop :=
  ∀ (s : State) (k : Nat) (freq velocity : F32) (ts : Word),
    s.fault = .clear → freqLegal (flush freq) = true → unitLegal (flush velocity) = true →
    (s.mode = .poly ∧ ∃ r ∈ s.polyReq, r.key = k) ∨ (s.mode = .mono ∧ ∃ r ∈ s.monoReq, r.key = k) →
    exec (.noteOn k freq velocity ts) s = .next s

/-- NOTE_ON in Mono: one request at a time, and the key moves to the front of the held keys (R142). -/
def Obligations.NoteOnQueuesMonoRequest : Prop :=
  ∀ (s : State) (k : Nat) (freq velocity : F32) (ts : Word),
    s.fault = .clear → s.mode = .mono → s.monoReq.length ≤ 1 →
    freqLegal (flush freq) = true → unitLegal (flush velocity) = true → (∀ r ∈ s.monoReq, r.key ≠ k) →
    exec (.noteOn k freq velocity ts) s
      = .next { s with monoReq := [⟨k, flush freq, flush velocity, ts, false⟩]
                       monoSeq := ⟨k, flush freq, flush velocity⟩ :: s.monoSeq.filter (fun e => e.key != k) }

/-- NOTE_ON with a frequency that is neither -1.0 nor finite and positive, or a velocity that is not finite and in [0, 1],
raises BAD_OPERAND and changes nothing else (R141). -/
def Obligations.NoteOnBadOperandFaults : Prop :=
  ∀ (s : State) (k : Nat) (freq velocity : F32) (ts : Word), s.fault = .clear →
    let f := flush freq
    let v := flush velocity
    ¬ ((feq f fNegOne = true ∨ (isFinite f = true ∧ flt fZero f = true))
        ∧ (isFinite v = true ∧ fle fZero v = true ∧ fle v fOne = true)) →
    exec (.noteOn k freq velocity ts) s = .next { s with fault := .badOperand }

/-- NOTE_OFF in Poly cancels the key's pending request and queues one release for the key (R143). -/
def Obligations.NoteOffQueuesOneRelease : Prop :=
  ∀ (s : State) (k : Nat) (ts : Word), s.fault = .clear → s.mode = .poly →
    ((∀ r ∈ s.relQ, r.key ≠ k) → exec (.noteOff k ts) s
      = .next { s with polyReq := s.polyReq.filter (fun r => r.key != k)
                       monoReq := s.monoReq.filter (fun r => r.key != k)
                       relQ := s.relQ ++ [⟨k, ts⟩] })
    ∧ ((∃ r ∈ s.relQ, r.key = k) → exec (.noteOff k ts) s
      = .next { s with polyReq := s.polyReq.filter (fun r => r.key != k)
                       monoReq := s.monoReq.filter (fun r => r.key != k) })

/-- NOTE_OFF in Mono: besides R143's effect, the key leaves the held keys, and the most recent key still held is
retriggered where no request is pending and voice 0 still sounds (R144). -/
def Obligations.NoteOffRetriggersHeldKey : Prop :=
  ∀ (s : State) (k : Nat) (ts : Word), s.fault = .clear → s.mode = .mono →
    let mono := s.monoReq.filter (fun r => r.key != k)
    let held := s.monoSeq.filter (fun e => e.key != k)
    let rel := if s.relQ.any (fun r => r.key == k) then s.relQ else s.relQ ++ [⟨k, ts⟩]
    let t : State := { s with polyReq := s.polyReq.filter (fun r => r.key != k), monoReq := mono, monoSeq := held
                              relQ := rel }
    (∀ e es, mono = [] → held = e :: es → flt params.silenceEps (loudness (s.voice 0)) = true →
      exec (.noteOff k ts) s = .next { t with monoReq := [⟨e.key, e.freq, e.velocity, ts, true⟩] })
    ∧ (mono ≠ [] ∨ held = [] ∨ flt params.silenceEps (loudness (s.voice 0)) = false →
      exec (.noteOff k ts) s = .next t)

/-- SUSTAIN writes HOST_SUSTAIN and nothing else (R145). -/
def Obligations.SustainWritesHostSustainOnly : Prop :=
  ∀ (s : State) (down : Bool), s.fault = .clear → exec (.sustain down) s = .next { s with hostSustain := down }

/-- What NOTE_ON, NOTE_OFF, SUSTAIN and RESET_VOICES leave as it was, whatever their operands and the state: the patch
RAM byte by byte, the configuration, the latched mode and polyphony, the global controls and the ports; and all but
NOTE_ON leave every voice, the key map and FAULT. -/
def Obligations.NoteCommandsFrame : Prop :=
  ∀ (s t : State) (i : Instr), isNoteCommand i → exec i s = .next t →
    t = { s with hostSustain := t.hostSustain, resetReq := t.resetReq, fault := t.fault, voices := t.voices
                 keymap := t.keymap, polyReq := t.polyReq, monoReq := t.monoReq, relQ := t.relQ
                 monoSeq := t.monoSeq }
    ∧ (∀ a, readByte params t.patch a = readByte params s.patch a)
    ∧ ((∀ k f v ts, i ≠ .noteOn k f v ts) → t.voices = s.voices ∧ t.keymap = s.keymap ∧ t.fault = s.fault)
    ∧ ((∀ down, i ≠ .sustain down) → t.hostSustain = s.hostSustain)
    ∧ (i ≠ .resetVoices → t.resetReq = s.resetReq)

/-- No command but RENDER and SET_SAMPLING moves a voice, except a poly NOTE_ON of a bound key, which releases and unbinds
that one voice (70_reset_and_hazards.md R366); and outside those two a voice's state only goes from Playing to Releasing
(41_lifecycle.md R182). -/
def Obligations.OnlyRenderMovesVoices : Prop :=
  ∀ (s t : State) (i : Instr), exec i s = .next t →
    (∀ n b m a, i ≠ .render n b m a) → (∀ sr spb, i ≠ .setSampling sr spb) →
    ∀ v, (t.voice v = s.voice v
        ∨ (s.mode = .poly ∧ ∃ k f vel ts, i = .noteOn k f vel ts ∧ s.keyVoice k = some v))
      ∧ ((t.voice v).state = (s.voice v).state
        ∨ ((s.voice v).state = .playing ∧ (t.voice v).state = .releasing))

/-! ### RENDER -/

/-- RENDER's checks in their order (40_host_commands.md R146, 60_exceptions.md R334): the first that fails raises its
fault, and nothing else changes. -/
def Obligations.RenderRaisesFirstFailedCheck : Prop :=
  ∀ (s : State) (n : Nat) (b m a : F32), s.fault = .clear →
    (s.configured = false → exec (.render n b m a) s = .next { s with fault := .notConfigured })
    ∧ (s.configured = true → ¬ renderOperandsLegal s n b m a →
        exec (.render n b m a) s = .next { s with fault := .badOperand })
    ∧ (s.configured = true → renderOperandsLegal s n b m a → patchLegal params s.patch = false →
        exec (.render n b m a) s = .next { s with fault := .badPatch })

/-- What a patch that passes validation satisfies (20_memory.md R88): POLYPHONY within the pool, COARSE not 0, no reserved
bit of FLAGS and MODS set, modulators of lower index, feedback sources of no higher index. -/
def Obligations.LegalPatchHasNoCycle : Prop :=
  ∀ patch : List Host.Cell, patchLegal params patch = true →
    (1 ≤ (readWord params patch 0x001).toNat ∧ (readWord params patch 0x001).toNat ≤ params.maxVoices)
    ∧ ∀ i, i < 6 →
      let flags := readWord params patch (0x040 + 0x20 * i)
      let mods := readWord params patch (0x041 + 0x20 * i)
      flags.extractLsb' 3 1 = 0#1 ∧ flags.extractLsb' 10 22 = 0#22 ∧ mods.extractLsb' 12 20 = 0#20
      ∧ (∀ j, j = mods.extractLsb' 0 3 ∨ j = mods.extractLsb' 3 3 ∨ j = mods.extractLsb' 6 3 →
          j = 7#3 ∨ j.toNat < i)
      ∧ (mods.extractLsb' 9 3 = 7#3 ∨ (mods.extractLsb' 9 3 : BitVec 3).toNat ≤ i)
      ∧ 1 ≤ (readWord params patch (0x042 + 0x20 * i)).toNat

/-- A RENDER that passes its checks either ends without a fault and has appended exactly n frames (R147), or raises NUMERIC
and has appended fewer (R146, 60_exceptions.md R331). -/
def Obligations.RenderEmitsNFramesOrFaultsNumeric : Prop :=
  ∀ (s : State) (n : Nat) (b m a : F32), renderRuns s n b m a →
    ∃ t frames, exec (.render n b m a) s = .next t ∧ t.framePort = s.framePort ++ frames
      ∧ ((t.fault = .clear ∧ frames.length = n) ∨ (t.fault = .numeric ∧ frames.length < n))

/-- A RENDER with every voice Idle and no request pending runs every step and emits n frames of (+0.0, +0.0); the voices
stay Idle and no fault is raised (R146, 41_lifecycle.md R210, R215). -/
def Obligations.IdleRenderEmitsSilence : Prop :=
  ∀ (s : State) (n : Nat) (b m a : F32), renderRuns s n b m a →
    (∀ v ∈ s.voices, v.state = .idle) → s.polyReq = [] → s.monoReq = [] →
    ∃ t, exec (.render n b m a) s = .next t ∧ t.fault = .clear
      ∧ t.framePort = s.framePort ++ List.replicate n ⟨fZero, fZero⟩
      ∧ (∀ v ∈ t.voices, v.state = .idle)
      ∧ t.prevSustain = s.hostSustain
      ∧ t.mode = (snapshot params s.patch).voiceMode

/-- What RENDER never writes (R148): the patch RAM byte by byte, FS, BLOCK_MAX, CONFIGURED and HOST_SUSTAIN; nor the command
and response ports; and emitted frames stay emitted. -/
def Obligations.RenderFrame : Prop :=
  ∀ (s t : State) (n : Nat) (b m a : F32), exec (.render n b m a) s = .next t →
    (∀ addr, readByte params t.patch addr = readByte params s.patch addr)
    ∧ t.patch = s.patch ∧ t.fs = s.fs ∧ t.blockMax = s.blockMax ∧ t.configured = s.configured
    ∧ t.hostSustain = s.hostSustain ∧ t.cmdPort = s.cmdPort ∧ t.respPort = s.respPort
    ∧ ∃ frames, t.framePort = s.framePort ++ frames

/-- The global controls over a RENDER that does not fault: each is re-targeted once and advanced by one interpolator step a
sample (R181, R210), and the global LFO phase by one addition a sample (R211). -/
def Obligations.GlobalsAdvanceOncePerSample : Prop :=
  ∀ (s t : State) (n : Nat) (b m a : F32), renderRuns s n b m a → exec (.render n b m a) s = .next t →
    t.fault = .clear →
    t.gBend = interpSample^[n] (setTarget s.gBend (flush b) n)
    ∧ t.gMod = interpSample^[n] (setTarget s.gMod (flush m) n)
    ∧ t.gAft = interpSample^[n] (setTarget s.gAft (flush a) n)
    ∧ t.gCutoff = interpSample^[n] (setTarget s.gCutoff (snapshot params s.patch).cutoff n)
    ∧ t.gReso = interpSample^[n] (setTarget s.gReso (snapshot params s.patch).resonance n)
    ∧ t.glfoPhase = (fun p => frac (fadd p (fdiv (snapshot params s.patch).lfoRate (fofNat s.fs.toNat))))^[n] s.glfoPhase

/-- The RENDER after a change of VOICE_MODE or after RESET_VOICES, where no fault ends it: every voice is Idle and every
queue empty at its end, and both requests are gone (41_lifecycle.md R191, R221, 70_reset_and_hazards.md R370). -/
def Obligations.ModeSwitchRenderIdlesEverything : Prop :=
  ∀ (s t : State) (n : Nat) (b m a : F32), renderRuns s n b m a → Inv params s →
    (snapshot params s.patch).voiceMode ≠ s.mode ∨ s.resetReq = true →
    exec (.render n b m a) s = .next t → t.fault = .clear →
    (∀ v ∈ t.voices, v.state = .idle ∧ v.key = none ∧ v.sustained = false) ∧ (∀ k, t.keyVoice k = none)
    ∧ t.polyReq = [] ∧ t.monoReq = [] ∧ t.relQ = [] ∧ t.monoSeq = []
    ∧ t.resetReq = false ∧ t.switchPending = false ∧ t.mode = (snapshot params s.patch).voiceMode

/-- UpdateSustain's marks (41_lifecycle.md R185): while the pedal is held every Playing voice is sustained; at its release
none is; otherwise the marks stay; and no voice's state or key changes. -/
def Obligations.SustainMarksPlayingVoices : Prop :=
  ∀ (P : Params) (pt : Patch) (s : State) (v : Nat), v < P.maxVoices → s.voices.length = P.maxVoices →
    let t := updateSustain P pt s
    t.prevSustain = s.hostSustain
    ∧ (t.voice v).state = (s.voice v).state ∧ (t.voice v).key = (s.voice v).key
    ∧ (s.hostSustain = true → ((t.voice v).sustained = true ↔
        (s.voice v).sustained = true ∨ (s.voice v).state = .playing))
    ∧ (s.hostSustain = false → s.prevSustain = true → (t.voice v).sustained = false)
    ∧ (s.hostSustain = false → s.prevSustain = false → t.voice v = s.voice v)

/-- Step 2 of the pre-render (R192): a release whose key is bound to a sustained voice is kept, in order, and every other
one is gone; a voice is released exactly where it is Playing, not sustained and bound to a released key; nothing else
changes. -/
def Obligations.QueuedReleasesAreResolved : Prop :=
  ∀ s : State,
    let t := resolvePoly s.relQ [] s
    t = { s with voices := t.voices, relQ := t.relQ }
    ∧ t.relQ = s.relQ.filter (fun r => match s.keyVoice r.key with
        | some v => (s.voice v).sustained
        | none => false)
    ∧ ∀ v, ((s.voice v).state = .playing ∧ (s.voice v).sustained = false ∧ (∃ r ∈ s.relQ, s.keyVoice r.key = some v) →
            t.voice v = releaseVoice (s.voice v))
        ∧ (¬ ((s.voice v).state = .playing ∧ (s.voice v).sustained = false ∧ ∃ r ∈ s.relQ, s.keyVoice r.key = some v) →
            t.voice v = s.voice v)

/-- Step 4 of the pre-render in Poly (R194): the requests, newest first, go to the Idle voices below CUR_POLY in ascending
order, one each; the requests that find none stay queued in sorted order; no other voice changes. What an initialised
voice holds is `startedVoice`, written from 42_voice_ops.md R230 to R234; and where Idle voices hold no key and the
requests distinct ones (10_state.md R41), the allocated keys map to their voices and every other KEYMAP entry stays. -/
def Obligations.NewestRequestsTakeLowestIdleVoices : Prop :=
  ∀ (P : Params) (pt : Patch) (s : State), s.curPoly ≤ s.voices.length →
    let sorted := sortNewestFirst s.polyReq
    let t := allocatePoly P pt sorted [] s
    t.polyReq = sorted.drop (idleSlots s).length
    ∧ (∀ (j v : Nat) (r : VoiceRequest), (idleSlots s)[j]? = some v → sorted[j]? = some r →
        t.voice v = startedVoice P pt s.fs s.glfoPhase r)
    ∧ (∀ v, (∀ j, (idleSlots s)[j]? = some v → sorted.length ≤ j) → t.voice v = s.voice v)
    ∧ ((∀ v, (s.voice v).state = .idle → (s.voice v).key = none) → DistinctKeys VoiceRequest.key s.polyReq →
        (∀ r ∈ s.polyReq, r.key < s.keymap.length) →
        (∀ (j v : Nat) (r : VoiceRequest), (idleSlots s)[j]? = some v → sorted[j]? = some r →
          t.keyVoice r.key = some v)
        ∧ ∀ k, (∀ (j : Nat) (r : VoiceRequest), sorted[j]? = some r → r.key = k → (idleSlots s).length ≤ j) →
          t.keyVoice k = s.keyVoice k)

/-- The sort of R196: the same requests, timestamps descending as unsigned integers, equal timestamps in their old order. -/
def Obligations.SortIsStableNewestFirst : Prop :=
  ∀ q : List VoiceRequest,
    (sortNewestFirst q).Perm q
    ∧ (sortNewestFirst q).Pairwise (fun x y => y.timestamp.toNat ≤ x.timestamp.toNat)
    ∧ ∀ ts : Word, (sortNewestFirst q).filter (fun r => r.timestamp == ts) = q.filter (fun r => r.timestamp == ts)

/-- The voice StealPass takes (R222): Playing or Releasing, below CUR_POLY, with no stealable voice of a lower score, and
the lowest index among equals; none exactly where no stealable voice scores below +infinity. The score is written out in
`score` and `loudness`. -/
def Obligations.StealTakesQuietestLowestVoice : Prop :=
  ∀ (P : Params) (s : State),
    (∀ v, stealCandidate P s = some v →
      stealable s v ∧ flt (score P (s.voice v)) fInf = true
      ∧ (∀ u, stealable s u → flt (score P (s.voice u)) (score P (s.voice v)) = false)
      ∧ ∀ u, u < v → stealable s u → isNaN (score P (s.voice u)) = false →
          flt (score P (s.voice v)) (score P (s.voice u)) = true)
    ∧ (stealCandidate P s = none → ∀ u, stealable s u → flt (score P (s.voice u)) fInf = false)

/-- The free pass (R221) over a pool that agrees with its key map: exactly the Stolen voices and the non-Idle done ones
become Idle, unbound, as at power-on where a mode switch is pending; every other voice stays. -/
def Obligations.FreePassFreesStolenAndDone : Prop :=
  ∀ (P : Params) (s : State), PoolInv P s → ∀ v, v < P.maxVoices →
    let t := freePass P s
    let free := (s.voice v).state = .stolen ∨ ((s.voice v).state ≠ .idle ∧ isDone (s.voice v) = true)
    (¬ free → t.voice v = s.voice v)
    ∧ (free → s.switchPending = false →
        t.voice v = { s.voice v with state := .idle, key := none, sustained := false })
    ∧ (free → s.switchPending = true → t.voice v = voicePowerOn P)
    ∧ (free → ∀ k, t.keyVoice k ≠ some v)

/-- The steal fade ends at +0.0 at the block's last sample (R213). -/
def Obligations.StealFadeEndsAtZero : Prop :=
  ∀ n : Nat, 1 ≤ n → n ≤ 65535 → stealFade (n - 1) n = fZero

/-- A legato rebinds voice 0 and glides its pitch; its state, its envelopes, oscillators, filters, LFOs, stored outputs and
sustain mark are kept, and so is every other voice, every other key's KEYMAP entry and all other state (42_voice_ops.md
R236). The key table's value and the ratio are read flushed (log 15). -/
def Obligations.LegatoKeepsTheSound : Prop :=
  ∀ (P : Params) (pt : Patch) (req : VoiceRequest) (s : State), 0 < s.voices.length →
    let t := legato P pt req s
    let x := s.voice 0
    let y := t.voice 0
    let g := rint (fmul pt.glide (fofNat s.fs.toNat))
    let f := noteFreq P req
    t = { s with voices := t.voices, keymap := t.keymap } ∧ t.voices.length = s.voices.length
    ∧ y = { x with key := some req.key, velocity := req.velocity, freq := f, glide := g, ops := y.ops }
    ∧ y.ops.length = x.ops.length
    ∧ (∀ (i : Nat) (o p : Operator), x.ops[i]? = some o → y.ops[i]? = some p →
        p = { o with freq := p.freq }
        ∧ (g = 0 → p.freq = setImmediate (pitchOf P (pt.op i) o.fixed f))
        ∧ (g ≠ 0 → p.freq = setTarget o.freq (pitchOf P (pt.op i) o.fixed f) g))
    ∧ (∀ v, v ≠ 0 → t.voice v = s.voice v)
    ∧ (req.key < s.keymap.length → t.keyVoice req.key = some 0)
    ∧ (∀ k, x.key = some k → k ≠ req.key → t.keyVoice k = none)
    ∧ (∀ k, x.key ≠ some k → k ≠ req.key → t.keyVoice k = s.keyVoice k)

/-- IsDone (42_voice_ops.md R251). -/
def Obligations.VoiceIsDoneWhenCarriersIdle : Prop :=
  ∀ v : Voice, isDone v = true ↔
    ∀ o ∈ v.ops, o.enabled = true → o.carrier = true → o.env.stage = .idle

/-! ### The operator graph and the control units -/

/-- A disabled operator is skipped (43_operator_graph.md R276): over one voice sample its record does not change and its
stored output is +0.0. -/
def Obligations.DisabledOperatorIsSkipped : Prop :=
  ∀ (P : Params) (pt : Patch) (fs : Word) (v w : Voice) (b m l r : F32) (i : Nat) (o : Operator),
    v.ops.length = 6 → voiceSample P pt fs v b m = .ok (l, r, w) →
    v.ops[i]? = some o → o.enabled = false → w.ops[i]? = some o ∧ w.prevMod[i]? = some fZero

/-- An operator's output and its new record depend on the other operators of this sample through the FB_STATE of its
feedback source only (R277): every modulation path reads the previous sample's outputs (R275). -/
def Obligations.OperatorReadsOthersThroughFeedbackOnly : Prop :=
  ∀ (P : Params) (c : SampleInputs) (ops ops' : List Operator) (o : Operator),
    (o.fbSrc ≠ 7#3 → (ops.getD o.fbSrc.toNat default).fbState = (ops'.getD o.fbSrc.toNat default).fbState) →
    operatorOutput P c ops o = operatorOutput P c ops' o

/-- The samples of a block leave the configuration of every operator as the voice's initialisation set it, and the voice's
note (10_state.md R34). -/
def Obligations.SamplesKeepConfiguration : Prop :=
  ∀ (P : Params) (pt : Patch) (n : Nat) (js : List Nat) (s t : State),
    renderSamples P pt n js s = .ok t ∨ renderSamples P pt n js s = .error t →
    ∀ v, SameNote (s.voice v) (t.voice v) ∧ ((s.voice v).state = .idle → t.voice v = s.voice v)

/-- The three interpolator operations (44_control_units.md R291, R292, R293). -/
def Obligations.InterpolatorOperations : Prop :=
  ∀ (x : Interp) (t : F32) (steps : Nat),
    (feq t x.target = true → setTarget x t steps = x)
    ∧ (feq t x.target = false →
        setTarget x t steps = ⟨x.cur, t, fdiv (fsub t x.cur) (fofNat steps), steps⟩)
    ∧ (x.remaining = 0 → interpSample x = x)
    ∧ (x.remaining = 1 → interpSample x = ⟨x.target, x.target, x.delta, 0⟩)
    ∧ (2 ≤ x.remaining → interpSample x = ⟨fadd x.cur x.delta, x.target, x.delta, x.remaining - 1⟩)
    ∧ setImmediate t = ⟨t, t, fZero, 0⟩

/-- After a change of target over n steps, each sample before the last adds the same delta, the n-th lands on the target
exactly, and it stays there (R294). -/
def Obligations.InterpolatorReachesTargetExactly : Prop :=
  ∀ (x : Interp) (t : F32) (n : Nat), 1 ≤ n → feq t x.target = false →
    let y := setTarget x t n
    (∀ j, j + 1 < n → (interpSample^[j + 1] y).cur = fadd (interpSample^[j] y).cur y.delta)
    ∧ ∀ j, n ≤ j → (interpSample^[j] y).cur = t

/-- All the transitions of an envelope's stage (R305): by EnvStart, EnvSample, EnvStop and OnPianoSustain; a Delay of count
0, which no run reaches, left out (log 16). -/
def Obligations.EnvelopeStageTransitions : Prop :=
  ∀ (P : Params) (e : Envelope) (p : EnvParams) (fs : Word) (isCarrier : Bool) (kts vs falloff relMul : F32),
    ((envStart P p fs isCarrier kts vs).stage = .delay ∨ (envStart P p fs isCarrier kts vs).stage = .attack)
    ∧ (let stage' := (envSample P e).2.stage
       let done := (envStepOf P e.math e.stage e.level e.params.sustain).2
       (e.stage = .idle → stage' = .idle) ∧ (e.stage = .sustain → stage' = .sustain)
       ∧ (e.stage = .delay → 1 ≤ e.delayRemaining → stage' = if e.delayRemaining = 1 then .attack else .delay)
       ∧ (e.stage = .attack → stage' = if done then .decay else .attack)
       ∧ (e.stage = .decay → stage' = if done then .sustain else .decay)
       ∧ (e.stage = .pianoSustain → stage' = if done then .idle else .pianoSustain)
       ∧ (e.stage = .release → stage' = if done then .idle else .release))
    ∧ (let stage' := (envStop e).stage
       (e.infinite = true ∨ e.stage = .idle → envStop e = e)
       ∧ (e.infinite = false → e.stage ≠ .idle → stage' = .release))
    ∧ (let stage' := (onPianoSustain P fs falloff relMul e).stage
       (e.stage = .decay ∨ e.stage = .sustain → stage' = .pianoSustain)
       ∧ (e.stage ≠ .decay → e.stage ≠ .sustain → stage' = e.stage))

/-- An envelope is infinite exactly when it was started as no carrier's with RELEASE = 1.0, and an infinite one ignores
Stop (R306). -/
def Obligations.InfiniteEnvelopeIgnoresStop : Prop :=
  ∀ (P : Params) (p : EnvParams) (fs : Word) (isCarrier : Bool) (kts vs : F32) (e : Envelope),
    ((envStart P p fs isCarrier kts vs).infinite = true ↔ isCarrier = false ∧ feq p.release fOne = true)
    ∧ (e.infinite = true → envStop e = e)
    ∧ (envSample P e).2.infinite = e.infinite

/-- frac(x) is in [0, 1) for every finite x (00_scope.md R10). -/
def Obligations.FracOfFiniteIsInUnitRange : Prop :=
  ∀ x : F32, isFinite x = true → fle fZero (frac x) = true ∧ flt (frac x) fOne = true

/-! ### System commands -/

/-- SET_SAMPLING (40_host_commands.md R150): with legal operands, exactly the listed registers; otherwise BAD_OPERAND and
nothing else. That a subnormal patch word is read into an interpolator as zero is the model's reading (log 13). -/
def Obligations.SetSamplingInitialises : Prop :=
  ∀ (s : State) (sr spb : Word), s.fault = .clear → s.voices.length = params.maxVoices →
    let cutoff := flush (readWord params s.patch 0x020)
    let resonance := flush (readWord params s.patch 0x021)
    let legal := (1000 ≤ sr.toNat ∧ sr.toNat ≤ 384000) ∧ (1 ≤ spb.toNat ∧ spb.toNat ≤ params.maxBlock)
    (legal → exec (.setSampling sr spb) s
      = .next { s with fs := sr, blockMax := spb, configured := true
                       voices := List.replicate params.maxVoices (voicePowerOn params)
                       keymap := List.replicate 128 none
                       polyReq := [], monoReq := [], relQ := [], monoSeq := []
                       resetReq := false, switchPending := false, glfoPhase := fZero
                       gBend := ⟨fZero, fZero, fZero, 0⟩, gMod := ⟨fZero, fZero, fZero, 0⟩
                       gAft := ⟨fZero, fZero, fZero, 0⟩, gCutoff := ⟨cutoff, cutoff, fZero, 0⟩
                       gReso := ⟨resonance, resonance, fZero, 0⟩ })
    ∧ (¬ legal → exec (.setSampling sr spb) s = .next { s with fault := .badOperand })

/-- RESET_VOICES writes RESET_REQ and nothing else (R151). -/
def Obligations.ResetVoicesOnlyRequests : Prop :=
  ∀ s : State, s.fault = .clear → exec .resetVoices s = .next { s with resetReq := true }

/-- PATCH_WRITE to a defined word (R152, 20_memory.md R87, R93): the word reads back as written, every byte outside its four
reads as before, and nothing but the patch RAM changes. That a word is four bytes at 4 × address is the model's (log 4). -/
def Obligations.PatchWriteChangesOneWord : Prop :=
  ∀ (s : State) (addr : Nat) (data : Word), s.fault = .clear → Memory.wf params s.patch = true →
    patchWordDefined addr →
    ∃ t, exec (.patchWrite addr data) s = .next t
      ∧ t = { s with patch := t.patch }
      ∧ readWord params t.patch addr = data
      ∧ (∀ a, a ≠ addr → readWord params t.patch a = readWord params s.patch a)
      ∧ ∀ c, ¬ (4 * addr ≤ c ∧ c < 4 * addr + 4) → readByte params t.patch c = readByte params s.patch c

/-- PATCH_READ of a defined word answers the word stored there and changes nothing else (R153). -/
def Obligations.PatchReadAnswersStoredWord : Prop :=
  ∀ (s : State) (addr : Nat), s.fault = .clear → patchWordDefined addr →
    exec (.patchRead addr) s = .next { s with respPort := s.respPort ++ [readWord params s.patch addr] }

/-- PATCH_WRITE or PATCH_READ of any other address raises BAD_ADDRESS (20_memory.md R81, R87); the read answers 0
(60_exceptions.md R332). -/
def Obligations.UndefinedPatchAddressFaults : Prop :=
  ∀ (s : State) (addr : Nat) (data : Word), s.fault = .clear → ¬ patchWordDefined addr →
    exec (.patchWrite addr data) s = .next { s with fault := .badAddress }
    ∧ exec (.patchRead addr) s = .next { s with fault := .badAddress, respPort := s.respPort ++ [0] }

/-- PATCH_RESET (R154): nothing but the patch RAM changes; every defined word then reads its default; and the default patch
is legal (70_reset_and_hazards.md R362). The defaults of the global group and of operator group i are written out. -/
def Obligations.PatchResetRestoresDefaults : Prop :=
  ∀ s : State, s.fault = .clear →
    ∃ t, exec .patchReset s = .next t ∧ t = { s with patch := t.patch }
      ∧ patchLegal params t.patch = true
      ∧ (List.range 0x023).map (readWord params t.patch)
          = [0x00000000#32, BitVec.ofNat 32 params.maxVoices, 0x00000000#32, 0x3F000000#32, 0x3F800000#32, 0x00000000#32,
             0x40000000#32, 0x00000000#32, 0x3F800000#32, 0x00000000#32, 0x00000000#32, 0x00000000#32, 0x00000000#32,
             0x3F800000#32, 0x00000000#32, 0x00000000#32]
            ++ [0x00000000#32, 0x00000000#32, 0x00000000#32, 0x3F800000#32, 0x00000000#32, 0x3E99999A#32, 0x38D1B717#32,
                0x38D1B717#32]
            ++ [0x00000000#32, 0x00000000#32, 0x00000000#32, 0x3F800000#32, 0x00000000#32, 0x3E99999A#32, 0x38D1B717#32,
                0x38D1B717#32]
            ++ [0x3F800000#32, 0x00000000#32, 0x00000000#32]
      ∧ ∀ i, i < 6 → (List.range 0x19).map (fun k => readWord params t.patch (0x040 + 0x20 * i + k))
          = [if i = 0 then 0x00000003#32 else 0x00000000#32, 0x00000FFF#32, 0x00000001#32, 0x00000000#32, 0x43DC0000#32,
             0x3F800000#32, 0x00000000#32, 0x00000000#32, 0x00000000#32, 0x3F000000#32, 0x00000000#32, 0x00000000#32,
             0x00000000#32, 0x00000000#32, 0x3F800000#32, 0x00000000#32]
            ++ [0x00000000#32, 0x00000000#32, 0x00000000#32, 0x3F800000#32, 0x00000000#32, 0x3E99999A#32, 0x38D1B717#32,
                0x38D1B717#32]
            ++ [0x00000000#32]

/-- STATUS_READ of a defined address answers one word and changes nothing else, HALTED or not (R155, R89). -/
def Obligations.StatusReadOnlyAnswers : Prop :=
  ∀ (s : State) (addr : Nat), statusWordDefined addr →
    ∃ w, exec (.statusRead addr) s = .next { s with respPort := s.respPort ++ [w] }

/-- The layouts of the status map (20_memory.md R90), field by field, the high one first, with the codes of FAULT
(60_exceptions.md R330) and STATE (10_state.md R24). -/
def Obligations.StatusWordLayouts : Prop :=
  ∀ s : State,
    let reads := fun (addr : Nat) (w : Word) =>
      exec (.statusRead addr) s = .next { s with respPort := s.respPort ++ [w] }
    reads 0x0000 (0#8 ++ BitVec.ofNat 8 params.maxVoices ++ BitVec.ofNat 8 s.curPoly ++ 0#1
      ++ BitVec.ofBool (s.fault != .clear) ++ BitVec.ofBool s.prevSustain ++ BitVec.ofBool s.hostSustain
      ++ BitVec.ofBool s.switchPending ++ BitVec.ofBool s.resetReq ++ BitVec.ofBool (s.mode == .mono)
      ++ BitVec.ofBool s.configured)
    ∧ reads 0x0001 (0#24 ++ faultCode s.fault)
    ∧ reads 0x0002 s.fs ∧ reads 0x0003 s.blockMax
    ∧ reads 0x0004 (BitVec.ofNat 8 s.monoSeq.length ++ BitVec.ofNat 8 s.relQ.length ++ BitVec.ofNat 8 s.monoReq.length
      ++ BitVec.ofNat 8 s.polyReq.length)
    ∧ reads 0x0005 (0#8 ++ BitVec.ofNat 8 (s.voices.countP (fun v => v.state == .idle))
      ++ BitVec.ofNat 8 (s.voices.countP (fun v => v.state == .stolen))
      ++ BitVec.ofNat 8 (s.voices.countP (fun v => v.state == .playing || v.state == .releasing)))
    ∧ reads 0x0006 s.glfoPhase
    ∧ (∀ v, v < params.maxVoices → reads (0x0100 + v)
        (0#16 ++ (match (s.voice v).key with
            | some k => BitVec.ofNat 8 k
            | none => 0xFF#8)
          ++ 0#4 ++ BitVec.ofBool (isDone (s.voice v)) ++ BitVec.ofBool (s.voice v).sustained
          ++ stateCode (s.voice v).state))
    ∧ (∀ k, k < 128 → reads (0x0200 + k) (match s.keyVoice k with
        | some v => BitVec.ofNat 32 v
        | none => 0xFFFFFFFF#32))

/-- The queue entries and voice data of the status map (R90, R89): an entry beyond its queue's length reads 0. -/
def Obligations.StatusQueueAndVoiceWords : Prop :=
  ∀ s : State,
    let reads := fun (addr : Nat) (w : Word) =>
      exec (.statusRead addr) s = .next { s with respPort := s.respPort ++ [w] }
    (∀ i, i < 128 → (s.polyReq.length ≤ i → ∀ f, f < 4 → reads (0x0400 + 4 * i + f) 0)
      ∧ ∀ r, s.polyReq[i]? = some r →
        reads (0x0400 + 4 * i) (0#23 ++ BitVec.ofBool r.monoRetrigger ++ 0#1 ++ BitVec.ofNat 7 r.key)
        ∧ reads (0x0401 + 4 * i) r.freq ∧ reads (0x0402 + 4 * i) r.velocity ∧ reads (0x0403 + 4 * i) r.timestamp)
    ∧ (∀ i, i < 128 → (s.relQ.length ≤ i → ∀ f, f < 2 → reads (0x0600 + 2 * i + f) 0)
      ∧ ∀ r, s.relQ[i]? = some r →
        reads (0x0600 + 2 * i) (0#25 ++ BitVec.ofNat 7 r.key) ∧ reads (0x0601 + 2 * i) r.timestamp)
    ∧ (∀ i, i < 128 → (s.monoSeq.length ≤ i → ∀ f, f < 4 → reads (0x0700 + 4 * i + f) 0)
      ∧ ∀ e, s.monoSeq[i]? = some e →
        reads (0x0700 + 4 * i) (0#25 ++ BitVec.ofNat 7 e.key) ∧ reads (0x0701 + 4 * i) e.freq
        ∧ reads (0x0702 + 4 * i) e.velocity ∧ reads (0x0703 + 4 * i) 0)
    ∧ ((s.monoReq = [] → ∀ f, f < 4 → reads (0x0900 + f) 0)
      ∧ ∀ r, s.monoReq[0]? = some r →
        reads 0x0900 (0#23 ++ BitVec.ofBool r.monoRetrigger ++ 0#1 ++ BitVec.ofNat 7 r.key)
        ∧ reads 0x0901 r.freq ∧ reads 0x0902 r.velocity ∧ reads 0x0903 r.timestamp)
    ∧ (∀ v, v < params.maxVoices →
        reads (0x1000 + 16 * v) (s.voice v).freq ∧ reads (0x1001 + 16 * v) (s.voice v).velocity
        ∧ reads (0x1002 + 16 * v) (BitVec.ofNat 32 (s.voice v).glide)
        ∧ reads (0x1003 + 16 * v) (loudness (s.voice v))
        ∧ ∀ f, 4 ≤ f → f ≤ 9 → ∀ x, (s.voice v).prevMod[f - 4]? = some x → reads (0x1000 + 16 * v + f) x)

/-- STATUS_READ of an undefined address answers 0 and raises BAD_ADDRESS; while HALTED it answers 0 and FAULT keeps its code
(R155, 60_exceptions.md R332, R333). -/
def Obligations.UndefinedStatusAddressAnswersZero : Prop :=
  ∀ (s : State) (addr : Nat), ¬ statusWordDefined addr →
    (s.fault = .clear →
      exec (.statusRead addr) s = .next { s with fault := .badAddress, respPort := s.respPort ++ [0] })
    ∧ (s.fault ≠ .clear → exec (.statusRead addr) s = .next { s with respPort := s.respPort ++ [0] })

/-! ### Reset and the invariants -/

/-- Power-on reset (70_reset_and_hazards.md R360): every register of 10_state.md at its power-on value, the patch RAM at its
defaults, the ports empty. -/
def Obligations.ResetIsPowerOnState : Prop :=
  let s := State.reset
  s.configured = false ∧ s.fs = 0 ∧ s.blockMax = 0 ∧ s.mode = .poly ∧ s.curPoly = params.maxVoices
  ∧ s.resetReq = false ∧ s.switchPending = false ∧ s.hostSustain = false ∧ s.prevSustain = false ∧ s.fault = .clear
  ∧ s.glfoPhase = fZero
  ∧ (∀ x ∈ [s.gBend, s.gMod, s.gAft, s.gCutoff, s.gReso], x = ⟨fZero, fZero, fZero, 0⟩)
  ∧ s.voices.length = params.maxVoices
  ∧ (∀ v ∈ s.voices, v.state = .idle ∧ v.key = none ∧ v.sustained = false ∧ v.velocity = fZero ∧ v.freq = fZero
      ∧ v.glide = 0 ∧ v.prevMod = List.replicate 6 fZero ∧ v.vfilt = params.vfInit ∧ v.ops.length = 6
      ∧ (∀ e ∈ [v.filterEnv, v.pitchEnv], e = powerOnEnvelope)
      ∧ (∀ o ∈ [v.lfo1, v.lfo2, v.modLfo], o = ⟨fZero, fZero, fOne, 0, params.waveExtInit⟩)
      ∧ ∀ o ∈ v.ops, o.enabled = false ∧ o.carrier = false ∧ o.fixed = false ∧ o.waveform = 0 ∧ o.filterType = .off
          ∧ o.mod0 = 7 ∧ o.mod1 = 7 ∧ o.mod2 = 7 ∧ o.fbSrc = 7 ∧ o.ampMod = fZero ∧ o.pitchMod = fZero
          ∧ o.panMod = fZero ∧ o.filtCutoff = fZero ∧ o.filtQ = fZero
          ∧ o.osc = ⟨fZero, fZero, fOne, 0, params.waveExtInit⟩ ∧ o.env = powerOnEnvelope ∧ o.filt = params.ofInit
          ∧ (∀ x ∈ [o.freq, o.amp, o.drive, o.pan, o.feedback], x = ⟨fZero, fZero, fZero, 0⟩) ∧ o.fbState = fZero)
  ∧ s.polyReq = [] ∧ s.monoReq = [] ∧ s.relQ = [] ∧ s.monoSeq = []
  ∧ s.keymap = List.replicate 128 none
  ∧ (∀ addr, readWord params s.patch addr = patchDefault params addr)
  ∧ s.cmdPort = [] ∧ s.respPort = [] ∧ s.framePort = []

/-- The three invariants hold right after reset. -/
def Obligations.InvariantsHoldAtReset : Prop :=
  Inv params State.reset ∧ RecordInv State.reset ∧ DataInv params State.reset

/-- Every step keeps the lifecycle invariant (10_state.md R41). -/
def Obligations.StepKeepsLifecycleInvariant : Prop :=
  ∀ s t : State, Inv params s → step s = .next t → Inv params t

/-- Every step keeps every voice record in shape: six operators, no cycle in the modulation graph, no infinite carrier or
filter envelope (10_state.md R29, R30, 20_memory.md R88, 44_control_units.md R306). -/
def Obligations.StepKeepsVoiceRecords : Prop :=
  ∀ s t : State, RecordInv s → step s = .next t → RecordInv t

/-- Every step keeps the stored data in range: the patch RAM in canonical form with defined words only, a legal sampling
configuration, legal queued operands, finite frames (20_memory.md R87, 40_host_commands.md R142, R150, 41_lifecycle.md
R216). -/
def Obligations.StepKeepsDataRanges : Prop :=
  ∀ s t : State, DataInv params s → step s = .next t → DataInv params t
end

