-- ==== Sys2Proof/Laws/Params.lean ====
section
/-! SUPPORT. Bringing the implementation constants into their ranges (log 5) gives legal parameters, whatever the
constants are. -/

namespace Sys2Proof.Machine

/-- `within` meets the check it is given, where the reference value does. -/
theorem within_ok {α : Type} (ok : α → Bool) (x reference : α) (h : ok reference = true) :
    ok (within (ok x) x reference) = true := by
  unfold within
  split
  · assumption
  · exact h

/-- The machine's parameters are in the ranges of 00_scope.md R7. -/
theorem params_legal : paramsLegal params = true := by
  unfold paramsLegal
  simp only [Bool.and_eq_true]
  refine ⟨⟨⟨⟨⟨⟨?_, ?_⟩, ?_⟩, ?_⟩, ?_⟩, ?_⟩, ?_⟩
  · exact within_ok (fun n => decide (2 ≤ n ∧ n ≤ 128)) Config.maxVoices 8 (by decide)
  · exact within_ok (fun n => decide (1 ≤ n ∧ n ≤ 65535)) Config.maxBlock 4096 (by decide)
  · exact (Bool.and_eq_true _ _).mp
      (within_ok (fun x => flt fZero x && flt x fOne) Config.stealReleaseBias 0x3F000000#32 (by decide))
  · exact (Bool.and_eq_true _ _).mp
      (within_ok (fun x => flt fZero x && isFinite x) Config.feedbackBrightness 0x3F000000#32 (by decide))
  · exact (Bool.and_eq_true _ _).mp
      (within_ok (fun x => flt fZero x && fle x fOne) Config.feedbackEma 0x3E800000#32 (by decide))
  · exact (Bool.and_eq_true _ _).mp
      (within_ok (fun x => fle fZero x && isFinite x) Config.silenceEps fZero (by decide))
  · exact (Bool.and_eq_true _ _).mp
      (within_ok (fun x => fle fZero x && isFinite x) Config.vibratoRange fOne (by decide))

/-- SILENCE_EPS is a finite number that is not negative (R7). -/
theorem silenceEps_of_legal {P : Params} (h : paramsLegal P = true) :
    fle fZero P.silenceEps = true ∧ isFinite P.silenceEps = true := by
  unfold paramsLegal at h
  simp only [Bool.and_eq_true] at h
  exact h.1.2

/-- A legal pool has 2 to 128 voices. -/
theorem maxVoices_of_legal {P : Params} (h : paramsLegal P = true) : 2 ≤ P.maxVoices ∧ P.maxVoices ≤ 128 := by
  unfold paramsLegal at h
  simp only [Bool.and_eq_true, decide_eq_true_eq] at h
  exact h.1.1.1.1.1.1

theorem maxBlock_of_legal {P : Params} (h : paramsLegal P = true) : 1 ≤ P.maxBlock ∧ P.maxBlock ≤ 65535 := by
  unfold paramsLegal at h
  simp only [Bool.and_eq_true, decide_eq_true_eq] at h
  exact h.1.1.1.1.1.2

/-- The machine's pool has 2 to 128 voices (R7). -/
theorem params_maxVoices : 2 ≤ params.maxVoices ∧ params.maxVoices ≤ 128 := maxVoices_of_legal params_legal

theorem params_maxBlock : 1 ≤ params.maxBlock ∧ params.maxBlock ≤ 65535 := maxBlock_of_legal params_legal

end Sys2Proof.Machine
end

