-- ==== Sys2Proof/Laws/State.lean ====
section
/-! SUPPORT. One lemma per field per update of the state: `setVoice`, `setKey`, `respond`, `emit`, `taken` (all true
by rfl), and the same for the updates that branch (`clearKey`, `endResponse`, `raise`), so that no later proof unfolds
a record update. -/

namespace Sys2Proof.Machine

/-! ### setVoice -/

@[simp] theorem setVoice_configured (s : State) (v : Nat) (x : Voice) : (s.setVoice v x).configured = s.configured := rfl
@[simp] theorem setVoice_fs (s : State) (v : Nat) (x : Voice) : (s.setVoice v x).fs = s.fs := rfl
@[simp] theorem setVoice_blockMax (s : State) (v : Nat) (x : Voice) : (s.setVoice v x).blockMax = s.blockMax := rfl
@[simp] theorem setVoice_mode (s : State) (v : Nat) (x : Voice) : (s.setVoice v x).mode = s.mode := rfl
@[simp] theorem setVoice_curPoly (s : State) (v : Nat) (x : Voice) : (s.setVoice v x).curPoly = s.curPoly := rfl
@[simp] theorem setVoice_resetReq (s : State) (v : Nat) (x : Voice) : (s.setVoice v x).resetReq = s.resetReq := rfl
@[simp] theorem setVoice_switchPending (s : State) (v : Nat) (x : Voice) : (s.setVoice v x).switchPending = s.switchPending := rfl
@[simp] theorem setVoice_hostSustain (s : State) (v : Nat) (x : Voice) : (s.setVoice v x).hostSustain = s.hostSustain := rfl
@[simp] theorem setVoice_prevSustain (s : State) (v : Nat) (x : Voice) : (s.setVoice v x).prevSustain = s.prevSustain := rfl
@[simp] theorem setVoice_fault (s : State) (v : Nat) (x : Voice) : (s.setVoice v x).fault = s.fault := rfl
@[simp] theorem setVoice_glfoPhase (s : State) (v : Nat) (x : Voice) : (s.setVoice v x).glfoPhase = s.glfoPhase := rfl
@[simp] theorem setVoice_gBend (s : State) (v : Nat) (x : Voice) : (s.setVoice v x).gBend = s.gBend := rfl
@[simp] theorem setVoice_gMod (s : State) (v : Nat) (x : Voice) : (s.setVoice v x).gMod = s.gMod := rfl
@[simp] theorem setVoice_gAft (s : State) (v : Nat) (x : Voice) : (s.setVoice v x).gAft = s.gAft := rfl
@[simp] theorem setVoice_gCutoff (s : State) (v : Nat) (x : Voice) : (s.setVoice v x).gCutoff = s.gCutoff := rfl
@[simp] theorem setVoice_gReso (s : State) (v : Nat) (x : Voice) : (s.setVoice v x).gReso = s.gReso := rfl
@[simp] theorem setVoice_voices (s : State) (v : Nat) (x : Voice) : (s.setVoice v x).voices = s.voices.set v x := rfl
@[simp] theorem setVoice_polyReq (s : State) (v : Nat) (x : Voice) : (s.setVoice v x).polyReq = s.polyReq := rfl
@[simp] theorem setVoice_monoReq (s : State) (v : Nat) (x : Voice) : (s.setVoice v x).monoReq = s.monoReq := rfl
@[simp] theorem setVoice_relQ (s : State) (v : Nat) (x : Voice) : (s.setVoice v x).relQ = s.relQ := rfl
@[simp] theorem setVoice_monoSeq (s : State) (v : Nat) (x : Voice) : (s.setVoice v x).monoSeq = s.monoSeq := rfl
@[simp] theorem setVoice_keymap (s : State) (v : Nat) (x : Voice) : (s.setVoice v x).keymap = s.keymap := rfl
@[simp] theorem setVoice_patch (s : State) (v : Nat) (x : Voice) : (s.setVoice v x).patch = s.patch := rfl
@[simp] theorem setVoice_cmdPort (s : State) (v : Nat) (x : Voice) : (s.setVoice v x).cmdPort = s.cmdPort := rfl
@[simp] theorem setVoice_respPort (s : State) (v : Nat) (x : Voice) : (s.setVoice v x).respPort = s.respPort := rfl
@[simp] theorem setVoice_framePort (s : State) (v : Nat) (x : Voice) : (s.setVoice v x).framePort = s.framePort := rfl

/-! ### setKey -/

@[simp] theorem setKey_configured (s : State) (k : Nat) (v : Option Nat) : (s.setKey k v).configured = s.configured := rfl
@[simp] theorem setKey_fs (s : State) (k : Nat) (v : Option Nat) : (s.setKey k v).fs = s.fs := rfl
@[simp] theorem setKey_blockMax (s : State) (k : Nat) (v : Option Nat) : (s.setKey k v).blockMax = s.blockMax := rfl
@[simp] theorem setKey_mode (s : State) (k : Nat) (v : Option Nat) : (s.setKey k v).mode = s.mode := rfl
@[simp] theorem setKey_curPoly (s : State) (k : Nat) (v : Option Nat) : (s.setKey k v).curPoly = s.curPoly := rfl
@[simp] theorem setKey_resetReq (s : State) (k : Nat) (v : Option Nat) : (s.setKey k v).resetReq = s.resetReq := rfl
@[simp] theorem setKey_switchPending (s : State) (k : Nat) (v : Option Nat) : (s.setKey k v).switchPending = s.switchPending := rfl
@[simp] theorem setKey_hostSustain (s : State) (k : Nat) (v : Option Nat) : (s.setKey k v).hostSustain = s.hostSustain := rfl
@[simp] theorem setKey_prevSustain (s : State) (k : Nat) (v : Option Nat) : (s.setKey k v).prevSustain = s.prevSustain := rfl
@[simp] theorem setKey_fault (s : State) (k : Nat) (v : Option Nat) : (s.setKey k v).fault = s.fault := rfl
@[simp] theorem setKey_glfoPhase (s : State) (k : Nat) (v : Option Nat) : (s.setKey k v).glfoPhase = s.glfoPhase := rfl
@[simp] theorem setKey_gBend (s : State) (k : Nat) (v : Option Nat) : (s.setKey k v).gBend = s.gBend := rfl
@[simp] theorem setKey_gMod (s : State) (k : Nat) (v : Option Nat) : (s.setKey k v).gMod = s.gMod := rfl
@[simp] theorem setKey_gAft (s : State) (k : Nat) (v : Option Nat) : (s.setKey k v).gAft = s.gAft := rfl
@[simp] theorem setKey_gCutoff (s : State) (k : Nat) (v : Option Nat) : (s.setKey k v).gCutoff = s.gCutoff := rfl
@[simp] theorem setKey_gReso (s : State) (k : Nat) (v : Option Nat) : (s.setKey k v).gReso = s.gReso := rfl
@[simp] theorem setKey_voices (s : State) (k : Nat) (v : Option Nat) : (s.setKey k v).voices = s.voices := rfl
@[simp] theorem setKey_polyReq (s : State) (k : Nat) (v : Option Nat) : (s.setKey k v).polyReq = s.polyReq := rfl
@[simp] theorem setKey_monoReq (s : State) (k : Nat) (v : Option Nat) : (s.setKey k v).monoReq = s.monoReq := rfl
@[simp] theorem setKey_relQ (s : State) (k : Nat) (v : Option Nat) : (s.setKey k v).relQ = s.relQ := rfl
@[simp] theorem setKey_monoSeq (s : State) (k : Nat) (v : Option Nat) : (s.setKey k v).monoSeq = s.monoSeq := rfl
@[simp] theorem setKey_keymap (s : State) (k : Nat) (v : Option Nat) : (s.setKey k v).keymap = s.keymap.set k v := rfl
@[simp] theorem setKey_patch (s : State) (k : Nat) (v : Option Nat) : (s.setKey k v).patch = s.patch := rfl
@[simp] theorem setKey_cmdPort (s : State) (k : Nat) (v : Option Nat) : (s.setKey k v).cmdPort = s.cmdPort := rfl
@[simp] theorem setKey_respPort (s : State) (k : Nat) (v : Option Nat) : (s.setKey k v).respPort = s.respPort := rfl
@[simp] theorem setKey_framePort (s : State) (k : Nat) (v : Option Nat) : (s.setKey k v).framePort = s.framePort := rfl

/-! ### respond -/

@[simp] theorem respond_configured (w : Word) (s : State) : (respond w s).configured = s.configured := rfl
@[simp] theorem respond_fs (w : Word) (s : State) : (respond w s).fs = s.fs := rfl
@[simp] theorem respond_blockMax (w : Word) (s : State) : (respond w s).blockMax = s.blockMax := rfl
@[simp] theorem respond_mode (w : Word) (s : State) : (respond w s).mode = s.mode := rfl
@[simp] theorem respond_curPoly (w : Word) (s : State) : (respond w s).curPoly = s.curPoly := rfl
@[simp] theorem respond_resetReq (w : Word) (s : State) : (respond w s).resetReq = s.resetReq := rfl
@[simp] theorem respond_switchPending (w : Word) (s : State) : (respond w s).switchPending = s.switchPending := rfl
@[simp] theorem respond_hostSustain (w : Word) (s : State) : (respond w s).hostSustain = s.hostSustain := rfl
@[simp] theorem respond_prevSustain (w : Word) (s : State) : (respond w s).prevSustain = s.prevSustain := rfl
@[simp] theorem respond_fault (w : Word) (s : State) : (respond w s).fault = s.fault := rfl
@[simp] theorem respond_glfoPhase (w : Word) (s : State) : (respond w s).glfoPhase = s.glfoPhase := rfl
@[simp] theorem respond_gBend (w : Word) (s : State) : (respond w s).gBend = s.gBend := rfl
@[simp] theorem respond_gMod (w : Word) (s : State) : (respond w s).gMod = s.gMod := rfl
@[simp] theorem respond_gAft (w : Word) (s : State) : (respond w s).gAft = s.gAft := rfl
@[simp] theorem respond_gCutoff (w : Word) (s : State) : (respond w s).gCutoff = s.gCutoff := rfl
@[simp] theorem respond_gReso (w : Word) (s : State) : (respond w s).gReso = s.gReso := rfl
@[simp] theorem respond_voices (w : Word) (s : State) : (respond w s).voices = s.voices := rfl
@[simp] theorem respond_polyReq (w : Word) (s : State) : (respond w s).polyReq = s.polyReq := rfl
@[simp] theorem respond_monoReq (w : Word) (s : State) : (respond w s).monoReq = s.monoReq := rfl
@[simp] theorem respond_relQ (w : Word) (s : State) : (respond w s).relQ = s.relQ := rfl
@[simp] theorem respond_monoSeq (w : Word) (s : State) : (respond w s).monoSeq = s.monoSeq := rfl
@[simp] theorem respond_keymap (w : Word) (s : State) : (respond w s).keymap = s.keymap := rfl
@[simp] theorem respond_patch (w : Word) (s : State) : (respond w s).patch = s.patch := rfl
@[simp] theorem respond_cmdPort (w : Word) (s : State) : (respond w s).cmdPort = s.cmdPort := rfl
@[simp] theorem respond_respPort (w : Word) (s : State) : (respond w s).respPort = s.respPort ++ [w] := rfl
@[simp] theorem respond_framePort (w : Word) (s : State) : (respond w s).framePort = s.framePort := rfl

/-! ### emit -/

@[simp] theorem emit_configured (l r : F32) (s : State) : (emit l r s).configured = s.configured := rfl
@[simp] theorem emit_fs (l r : F32) (s : State) : (emit l r s).fs = s.fs := rfl
@[simp] theorem emit_blockMax (l r : F32) (s : State) : (emit l r s).blockMax = s.blockMax := rfl
@[simp] theorem emit_mode (l r : F32) (s : State) : (emit l r s).mode = s.mode := rfl
@[simp] theorem emit_curPoly (l r : F32) (s : State) : (emit l r s).curPoly = s.curPoly := rfl
@[simp] theorem emit_resetReq (l r : F32) (s : State) : (emit l r s).resetReq = s.resetReq := rfl
@[simp] theorem emit_switchPending (l r : F32) (s : State) : (emit l r s).switchPending = s.switchPending := rfl
@[simp] theorem emit_hostSustain (l r : F32) (s : State) : (emit l r s).hostSustain = s.hostSustain := rfl
@[simp] theorem emit_prevSustain (l r : F32) (s : State) : (emit l r s).prevSustain = s.prevSustain := rfl
@[simp] theorem emit_fault (l r : F32) (s : State) : (emit l r s).fault = s.fault := rfl
@[simp] theorem emit_glfoPhase (l r : F32) (s : State) : (emit l r s).glfoPhase = s.glfoPhase := rfl
@[simp] theorem emit_gBend (l r : F32) (s : State) : (emit l r s).gBend = s.gBend := rfl
@[simp] theorem emit_gMod (l r : F32) (s : State) : (emit l r s).gMod = s.gMod := rfl
@[simp] theorem emit_gAft (l r : F32) (s : State) : (emit l r s).gAft = s.gAft := rfl
@[simp] theorem emit_gCutoff (l r : F32) (s : State) : (emit l r s).gCutoff = s.gCutoff := rfl
@[simp] theorem emit_gReso (l r : F32) (s : State) : (emit l r s).gReso = s.gReso := rfl
@[simp] theorem emit_voices (l r : F32) (s : State) : (emit l r s).voices = s.voices := rfl
@[simp] theorem emit_polyReq (l r : F32) (s : State) : (emit l r s).polyReq = s.polyReq := rfl
@[simp] theorem emit_monoReq (l r : F32) (s : State) : (emit l r s).monoReq = s.monoReq := rfl
@[simp] theorem emit_relQ (l r : F32) (s : State) : (emit l r s).relQ = s.relQ := rfl
@[simp] theorem emit_monoSeq (l r : F32) (s : State) : (emit l r s).monoSeq = s.monoSeq := rfl
@[simp] theorem emit_keymap (l r : F32) (s : State) : (emit l r s).keymap = s.keymap := rfl
@[simp] theorem emit_patch (l r : F32) (s : State) : (emit l r s).patch = s.patch := rfl
@[simp] theorem emit_cmdPort (l r : F32) (s : State) : (emit l r s).cmdPort = s.cmdPort := rfl
@[simp] theorem emit_respPort (l r : F32) (s : State) : (emit l r s).respPort = s.respPort := rfl
@[simp] theorem emit_framePort (l r : F32) (s : State) : (emit l r s).framePort = s.framePort ++ [⟨l, r⟩] := rfl

/-! ### taken -/

@[simp] theorem taken_configured (rest : List Word) (s : State) : (taken rest s).configured = s.configured := rfl
@[simp] theorem taken_fs (rest : List Word) (s : State) : (taken rest s).fs = s.fs := rfl
@[simp] theorem taken_blockMax (rest : List Word) (s : State) : (taken rest s).blockMax = s.blockMax := rfl
@[simp] theorem taken_mode (rest : List Word) (s : State) : (taken rest s).mode = s.mode := rfl
@[simp] theorem taken_curPoly (rest : List Word) (s : State) : (taken rest s).curPoly = s.curPoly := rfl
@[simp] theorem taken_resetReq (rest : List Word) (s : State) : (taken rest s).resetReq = s.resetReq := rfl
@[simp] theorem taken_switchPending (rest : List Word) (s : State) : (taken rest s).switchPending = s.switchPending := rfl
@[simp] theorem taken_hostSustain (rest : List Word) (s : State) : (taken rest s).hostSustain = s.hostSustain := rfl
@[simp] theorem taken_prevSustain (rest : List Word) (s : State) : (taken rest s).prevSustain = s.prevSustain := rfl
@[simp] theorem taken_fault (rest : List Word) (s : State) : (taken rest s).fault = s.fault := rfl
@[simp] theorem taken_glfoPhase (rest : List Word) (s : State) : (taken rest s).glfoPhase = s.glfoPhase := rfl
@[simp] theorem taken_gBend (rest : List Word) (s : State) : (taken rest s).gBend = s.gBend := rfl
@[simp] theorem taken_gMod (rest : List Word) (s : State) : (taken rest s).gMod = s.gMod := rfl
@[simp] theorem taken_gAft (rest : List Word) (s : State) : (taken rest s).gAft = s.gAft := rfl
@[simp] theorem taken_gCutoff (rest : List Word) (s : State) : (taken rest s).gCutoff = s.gCutoff := rfl
@[simp] theorem taken_gReso (rest : List Word) (s : State) : (taken rest s).gReso = s.gReso := rfl
@[simp] theorem taken_voices (rest : List Word) (s : State) : (taken rest s).voices = s.voices := rfl
@[simp] theorem taken_polyReq (rest : List Word) (s : State) : (taken rest s).polyReq = s.polyReq := rfl
@[simp] theorem taken_monoReq (rest : List Word) (s : State) : (taken rest s).monoReq = s.monoReq := rfl
@[simp] theorem taken_relQ (rest : List Word) (s : State) : (taken rest s).relQ = s.relQ := rfl
@[simp] theorem taken_monoSeq (rest : List Word) (s : State) : (taken rest s).monoSeq = s.monoSeq := rfl
@[simp] theorem taken_keymap (rest : List Word) (s : State) : (taken rest s).keymap = s.keymap := rfl
@[simp] theorem taken_patch (rest : List Word) (s : State) : (taken rest s).patch = s.patch := rfl
@[simp] theorem taken_cmdPort (rest : List Word) (s : State) : (taken rest s).cmdPort = rest := rfl
@[simp] theorem taken_respPort (rest : List Word) (s : State) : (taken rest s).respPort = s.respPort := rfl
@[simp] theorem taken_framePort (rest : List Word) (s : State) : (taken rest s).framePort = s.framePort := rfl

/-! ### clearKey -/

@[simp] theorem clearKey_configured (s : State) (k : Option Nat) : (s.clearKey k).configured = s.configured := by cases k <;> rfl
@[simp] theorem clearKey_fs (s : State) (k : Option Nat) : (s.clearKey k).fs = s.fs := by cases k <;> rfl
@[simp] theorem clearKey_blockMax (s : State) (k : Option Nat) : (s.clearKey k).blockMax = s.blockMax := by cases k <;> rfl
@[simp] theorem clearKey_mode (s : State) (k : Option Nat) : (s.clearKey k).mode = s.mode := by cases k <;> rfl
@[simp] theorem clearKey_curPoly (s : State) (k : Option Nat) : (s.clearKey k).curPoly = s.curPoly := by cases k <;> rfl
@[simp] theorem clearKey_resetReq (s : State) (k : Option Nat) : (s.clearKey k).resetReq = s.resetReq := by cases k <;> rfl
@[simp] theorem clearKey_switchPending (s : State) (k : Option Nat) : (s.clearKey k).switchPending = s.switchPending := by cases k <;> rfl
@[simp] theorem clearKey_hostSustain (s : State) (k : Option Nat) : (s.clearKey k).hostSustain = s.hostSustain := by cases k <;> rfl
@[simp] theorem clearKey_prevSustain (s : State) (k : Option Nat) : (s.clearKey k).prevSustain = s.prevSustain := by cases k <;> rfl
@[simp] theorem clearKey_fault (s : State) (k : Option Nat) : (s.clearKey k).fault = s.fault := by cases k <;> rfl
@[simp] theorem clearKey_glfoPhase (s : State) (k : Option Nat) : (s.clearKey k).glfoPhase = s.glfoPhase := by cases k <;> rfl
@[simp] theorem clearKey_gBend (s : State) (k : Option Nat) : (s.clearKey k).gBend = s.gBend := by cases k <;> rfl
@[simp] theorem clearKey_gMod (s : State) (k : Option Nat) : (s.clearKey k).gMod = s.gMod := by cases k <;> rfl
@[simp] theorem clearKey_gAft (s : State) (k : Option Nat) : (s.clearKey k).gAft = s.gAft := by cases k <;> rfl
@[simp] theorem clearKey_gCutoff (s : State) (k : Option Nat) : (s.clearKey k).gCutoff = s.gCutoff := by cases k <;> rfl
@[simp] theorem clearKey_gReso (s : State) (k : Option Nat) : (s.clearKey k).gReso = s.gReso := by cases k <;> rfl
@[simp] theorem clearKey_voices (s : State) (k : Option Nat) : (s.clearKey k).voices = s.voices := by cases k <;> rfl
@[simp] theorem clearKey_polyReq (s : State) (k : Option Nat) : (s.clearKey k).polyReq = s.polyReq := by cases k <;> rfl
@[simp] theorem clearKey_monoReq (s : State) (k : Option Nat) : (s.clearKey k).monoReq = s.monoReq := by cases k <;> rfl
@[simp] theorem clearKey_relQ (s : State) (k : Option Nat) : (s.clearKey k).relQ = s.relQ := by cases k <;> rfl
@[simp] theorem clearKey_monoSeq (s : State) (k : Option Nat) : (s.clearKey k).monoSeq = s.monoSeq := by cases k <;> rfl
@[simp] theorem clearKey_patch (s : State) (k : Option Nat) : (s.clearKey k).patch = s.patch := by cases k <;> rfl
@[simp] theorem clearKey_cmdPort (s : State) (k : Option Nat) : (s.clearKey k).cmdPort = s.cmdPort := by cases k <;> rfl
@[simp] theorem clearKey_respPort (s : State) (k : Option Nat) : (s.clearKey k).respPort = s.respPort := by cases k <;> rfl
@[simp] theorem clearKey_framePort (s : State) (k : Option Nat) : (s.clearKey k).framePort = s.framePort := by cases k <;> rfl

@[simp] theorem clearKey_none (s : State) : s.clearKey none = s := rfl

@[simp] theorem clearKey_some (s : State) (k : Nat) : s.clearKey (some k) = s.setKey k none := rfl

/-! ### endResponse -/

@[simp] theorem endResponse_configured (b : Bool) (s : State) : (endResponse b s).configured = s.configured := by cases b <;> rfl
@[simp] theorem endResponse_fs (b : Bool) (s : State) : (endResponse b s).fs = s.fs := by cases b <;> rfl
@[simp] theorem endResponse_blockMax (b : Bool) (s : State) : (endResponse b s).blockMax = s.blockMax := by cases b <;> rfl
@[simp] theorem endResponse_mode (b : Bool) (s : State) : (endResponse b s).mode = s.mode := by cases b <;> rfl
@[simp] theorem endResponse_curPoly (b : Bool) (s : State) : (endResponse b s).curPoly = s.curPoly := by cases b <;> rfl
@[simp] theorem endResponse_resetReq (b : Bool) (s : State) : (endResponse b s).resetReq = s.resetReq := by cases b <;> rfl
@[simp] theorem endResponse_switchPending (b : Bool) (s : State) : (endResponse b s).switchPending = s.switchPending := by cases b <;> rfl
@[simp] theorem endResponse_hostSustain (b : Bool) (s : State) : (endResponse b s).hostSustain = s.hostSustain := by cases b <;> rfl
@[simp] theorem endResponse_prevSustain (b : Bool) (s : State) : (endResponse b s).prevSustain = s.prevSustain := by cases b <;> rfl
@[simp] theorem endResponse_fault (b : Bool) (s : State) : (endResponse b s).fault = s.fault := by cases b <;> rfl
@[simp] theorem endResponse_glfoPhase (b : Bool) (s : State) : (endResponse b s).glfoPhase = s.glfoPhase := by cases b <;> rfl
@[simp] theorem endResponse_gBend (b : Bool) (s : State) : (endResponse b s).gBend = s.gBend := by cases b <;> rfl
@[simp] theorem endResponse_gMod (b : Bool) (s : State) : (endResponse b s).gMod = s.gMod := by cases b <;> rfl
@[simp] theorem endResponse_gAft (b : Bool) (s : State) : (endResponse b s).gAft = s.gAft := by cases b <;> rfl
@[simp] theorem endResponse_gCutoff (b : Bool) (s : State) : (endResponse b s).gCutoff = s.gCutoff := by cases b <;> rfl
@[simp] theorem endResponse_gReso (b : Bool) (s : State) : (endResponse b s).gReso = s.gReso := by cases b <;> rfl
@[simp] theorem endResponse_voices (b : Bool) (s : State) : (endResponse b s).voices = s.voices := by cases b <;> rfl
@[simp] theorem endResponse_polyReq (b : Bool) (s : State) : (endResponse b s).polyReq = s.polyReq := by cases b <;> rfl
@[simp] theorem endResponse_monoReq (b : Bool) (s : State) : (endResponse b s).monoReq = s.monoReq := by cases b <;> rfl
@[simp] theorem endResponse_relQ (b : Bool) (s : State) : (endResponse b s).relQ = s.relQ := by cases b <;> rfl
@[simp] theorem endResponse_monoSeq (b : Bool) (s : State) : (endResponse b s).monoSeq = s.monoSeq := by cases b <;> rfl
@[simp] theorem endResponse_keymap (b : Bool) (s : State) : (endResponse b s).keymap = s.keymap := by cases b <;> rfl
@[simp] theorem endResponse_patch (b : Bool) (s : State) : (endResponse b s).patch = s.patch := by cases b <;> rfl
@[simp] theorem endResponse_cmdPort (b : Bool) (s : State) : (endResponse b s).cmdPort = s.cmdPort := by cases b <;> rfl
@[simp] theorem endResponse_framePort (b : Bool) (s : State) : (endResponse b s).framePort = s.framePort := by cases b <;> rfl

theorem endResponse_respPort (b : Bool) (s : State) :
    (endResponse b s).respPort = s.respPort ++ (if b then [0] else []) := by cases b <;> simp [endResponse]

/-! ### raise -/

@[simp] theorem raise_configured (c : FaultCode) (b : Bool) (s : State) : (raise c b s).configured = s.configured := by cases b <;> rfl
@[simp] theorem raise_fs (c : FaultCode) (b : Bool) (s : State) : (raise c b s).fs = s.fs := by cases b <;> rfl
@[simp] theorem raise_blockMax (c : FaultCode) (b : Bool) (s : State) : (raise c b s).blockMax = s.blockMax := by cases b <;> rfl
@[simp] theorem raise_mode (c : FaultCode) (b : Bool) (s : State) : (raise c b s).mode = s.mode := by cases b <;> rfl
@[simp] theorem raise_curPoly (c : FaultCode) (b : Bool) (s : State) : (raise c b s).curPoly = s.curPoly := by cases b <;> rfl
@[simp] theorem raise_resetReq (c : FaultCode) (b : Bool) (s : State) : (raise c b s).resetReq = s.resetReq := by cases b <;> rfl
@[simp] theorem raise_switchPending (c : FaultCode) (b : Bool) (s : State) : (raise c b s).switchPending = s.switchPending := by cases b <;> rfl
@[simp] theorem raise_hostSustain (c : FaultCode) (b : Bool) (s : State) : (raise c b s).hostSustain = s.hostSustain := by cases b <;> rfl
@[simp] theorem raise_prevSustain (c : FaultCode) (b : Bool) (s : State) : (raise c b s).prevSustain = s.prevSustain := by cases b <;> rfl
@[simp] theorem raise_glfoPhase (c : FaultCode) (b : Bool) (s : State) : (raise c b s).glfoPhase = s.glfoPhase := by cases b <;> rfl
@[simp] theorem raise_gBend (c : FaultCode) (b : Bool) (s : State) : (raise c b s).gBend = s.gBend := by cases b <;> rfl
@[simp] theorem raise_gMod (c : FaultCode) (b : Bool) (s : State) : (raise c b s).gMod = s.gMod := by cases b <;> rfl
@[simp] theorem raise_gAft (c : FaultCode) (b : Bool) (s : State) : (raise c b s).gAft = s.gAft := by cases b <;> rfl
@[simp] theorem raise_gCutoff (c : FaultCode) (b : Bool) (s : State) : (raise c b s).gCutoff = s.gCutoff := by cases b <;> rfl
@[simp] theorem raise_gReso (c : FaultCode) (b : Bool) (s : State) : (raise c b s).gReso = s.gReso := by cases b <;> rfl
@[simp] theorem raise_voices (c : FaultCode) (b : Bool) (s : State) : (raise c b s).voices = s.voices := by cases b <;> rfl
@[simp] theorem raise_polyReq (c : FaultCode) (b : Bool) (s : State) : (raise c b s).polyReq = s.polyReq := by cases b <;> rfl
@[simp] theorem raise_monoReq (c : FaultCode) (b : Bool) (s : State) : (raise c b s).monoReq = s.monoReq := by cases b <;> rfl
@[simp] theorem raise_relQ (c : FaultCode) (b : Bool) (s : State) : (raise c b s).relQ = s.relQ := by cases b <;> rfl
@[simp] theorem raise_monoSeq (c : FaultCode) (b : Bool) (s : State) : (raise c b s).monoSeq = s.monoSeq := by cases b <;> rfl
@[simp] theorem raise_keymap (c : FaultCode) (b : Bool) (s : State) : (raise c b s).keymap = s.keymap := by cases b <;> rfl
@[simp] theorem raise_patch (c : FaultCode) (b : Bool) (s : State) : (raise c b s).patch = s.patch := by cases b <;> rfl
@[simp] theorem raise_cmdPort (c : FaultCode) (b : Bool) (s : State) : (raise c b s).cmdPort = s.cmdPort := by cases b <;> rfl
@[simp] theorem raise_framePort (c : FaultCode) (b : Bool) (s : State) : (raise c b s).framePort = s.framePort := by cases b <;> rfl

@[simp] theorem raise_fault (c : FaultCode) (b : Bool) (s : State) :
    (raise c b s).fault = if s.fault = .clear then c else s.fault := by simp [raise]

theorem raise_respPort (c : FaultCode) (b : Bool) (s : State) :
    (raise c b s).respPort = s.respPort ++ (if b then [0] else []) := by simp [raise, endResponse_respPort]

/-! ### unbound, the shared end of release-and-unbind, steal and free -/

@[simp] theorem unbound_state (st : VoiceState) (v : Voice) : (unbound st v).state = st := rfl
@[simp] theorem unbound_key (st : VoiceState) (v : Voice) : (unbound st v).key = none := rfl
@[simp] theorem unbound_velocity (st : VoiceState) (v : Voice) : (unbound st v).velocity = v.velocity := rfl
@[simp] theorem unbound_freq (st : VoiceState) (v : Voice) : (unbound st v).freq = v.freq := rfl
@[simp] theorem unbound_sustained (st : VoiceState) (v : Voice) : (unbound st v).sustained = false := rfl
@[simp] theorem unbound_glide (st : VoiceState) (v : Voice) : (unbound st v).glide = v.glide := rfl
@[simp] theorem unbound_ops (st : VoiceState) (v : Voice) : (unbound st v).ops = v.ops := rfl
@[simp] theorem unbound_prevMod (st : VoiceState) (v : Voice) : (unbound st v).prevMod = v.prevMod := rfl
@[simp] theorem unbound_filterEnv (st : VoiceState) (v : Voice) : (unbound st v).filterEnv = v.filterEnv := rfl
@[simp] theorem unbound_pitchEnv (st : VoiceState) (v : Voice) : (unbound st v).pitchEnv = v.pitchEnv := rfl
@[simp] theorem unbound_lfo1 (st : VoiceState) (v : Voice) : (unbound st v).lfo1 = v.lfo1 := rfl
@[simp] theorem unbound_lfo2 (st : VoiceState) (v : Voice) : (unbound st v).lfo2 = v.lfo2 := rfl
@[simp] theorem unbound_modLfo (st : VoiceState) (v : Voice) : (unbound st v).modLfo = v.modLfo := rfl
@[simp] theorem unbound_vfilt (st : VoiceState) (v : Voice) : (unbound st v).vfilt = v.vfilt := rfl

/-! ### releaseVoice -/

@[simp] theorem releaseVoice_key (v : Voice) : (releaseVoice v).key = v.key := rfl
@[simp] theorem releaseVoice_velocity (v : Voice) : (releaseVoice v).velocity = v.velocity := rfl
@[simp] theorem releaseVoice_freq (v : Voice) : (releaseVoice v).freq = v.freq := rfl
@[simp] theorem releaseVoice_sustained (v : Voice) : (releaseVoice v).sustained = v.sustained := rfl
@[simp] theorem releaseVoice_glide (v : Voice) : (releaseVoice v).glide = v.glide := rfl
@[simp] theorem releaseVoice_prevMod (v : Voice) : (releaseVoice v).prevMod = v.prevMod := rfl
@[simp] theorem releaseVoice_lfo1 (v : Voice) : (releaseVoice v).lfo1 = v.lfo1 := rfl
@[simp] theorem releaseVoice_lfo2 (v : Voice) : (releaseVoice v).lfo2 = v.lfo2 := rfl
@[simp] theorem releaseVoice_modLfo (v : Voice) : (releaseVoice v).modLfo = v.modLfo := rfl
@[simp] theorem releaseVoice_vfilt (v : Voice) : (releaseVoice v).vfilt = v.vfilt := rfl
@[simp] theorem releaseVoice_state (v : Voice) : (releaseVoice v).state = .releasing := rfl

end Sys2Proof.Machine
end

