-- ==== Sys2Proof/Laws/Ops.lean ====
section
/-! SUPPORT. One lemma per shared operation of Machine/Ops.lean, saying what it does: the voice pool and the key map
read back what was written, the queue primitives in terms of membership, the loop over the voices as an induction, and
what a HALTED engine does with a packet. -/

namespace Sys2Proof.Machine

/-! ### Voice pool -/

theorem voice_eq_getElem (s : State) {v : Nat} (h : v < s.voices.length) : s.voice v = s.voices[v] := by
  simp [State.voice, List.getD_eq_getElem?_getD, List.getElem?_eq_getElem h]

theorem voice_setVoice_same (s : State) {v : Nat} (x : Voice) (h : v < s.voices.length) :
    (s.setVoice v x).voice v = x := by
  simp [State.voice, State.setVoice, List.getD_eq_getElem?_getD, h]

theorem voice_setVoice_ne (s : State) {u v : Nat} (x : Voice) (h : u ≠ v) : (s.setVoice v x).voice u = s.voice u := by
  simp [State.voice, State.setVoice, List.getD_eq_getElem?_getD, List.getElem?_set_ne (Ne.symm h)]

theorem voice_setVoice (s : State) (u v : Nat) (x : Voice) (h : v < s.voices.length) :
    (s.setVoice v x).voice u = if u = v then x else s.voice u := by
  split
  · next e => rw [e, voice_setVoice_same s x h]
  · next e => exact voice_setVoice_ne s x e

/-- The pool after a write, wherever it goes: one outside the pool is no write. -/
theorem voice_setVoice_any (s : State) (u v : Nat) (x : Voice) :
    (s.setVoice v x).voice u = if u = v ∧ v < s.voices.length then x else s.voice u := by
  rcases Nat.lt_or_ge v s.voices.length with h | h
  · simp [voice_setVoice s u v x h, h]
  · rw [if_neg (by omega)]
    simp [State.setVoice, State.voice, List.set_eq_of_length_le h]

@[simp] theorem voices_length_setVoice (s : State) (v : Nat) (x : Voice) :
    (s.setVoice v x).voices.length = s.voices.length := by simp [State.setVoice]

@[simp] theorem voice_setKey (s : State) (k : Nat) (w : Option Nat) (v : Nat) : (s.setKey k w).voice v = s.voice v := rfl

@[simp] theorem keymap_length_setKey (s : State) (k : Nat) (w : Option Nat) :
    (s.setKey k w).keymap.length = s.keymap.length := by simp [State.setKey]

@[simp] theorem keymap_length_clearKey (s : State) (k : Option Nat) :
    (s.clearKey k).keymap.length = s.keymap.length := by cases k <;> simp [State.clearKey]

@[simp] theorem voice_clearKey (s : State) (k : Option Nat) (v : Nat) : (s.clearKey k).voice v = s.voice v := by
  simp [State.voice]

/-! ### Key map -/

theorem keyVoice_setKey_same (s : State) {k : Nat} (w : Option Nat) (h : k < s.keymap.length) :
    (s.setKey k w).keyVoice k = w := by
  simp [State.keyVoice, State.setKey, List.getD_eq_getElem?_getD, h]

theorem keyVoice_setKey_ne (s : State) {j k : Nat} (w : Option Nat) (h : j ≠ k) :
    (s.setKey k w).keyVoice j = s.keyVoice j := by
  simp [State.keyVoice, State.setKey, List.getD_eq_getElem?_getD, List.getElem?_set_ne (Ne.symm h)]

theorem keyVoice_setKey_none (s : State) (j k : Nat) :
    (s.setKey k none).keyVoice j = if j = k then none else s.keyVoice j := by
  split
  · next e =>
    subst e
    rcases Nat.lt_or_ge j s.keymap.length with h | h
    · exact keyVoice_setKey_same s none h
    · simp [State.keyVoice, State.setKey, List.getD_eq_getElem?_getD, h]
  · next e => exact keyVoice_setKey_ne s none e

theorem keyVoice_clearKey (s : State) (k : Option Nat) (j : Nat) :
    (s.clearKey k).keyVoice j = if k = some j then none else s.keyVoice j := by
  cases k with
  | none => simp
  | some k => simp [keyVoice_setKey_none, eq_comm]

@[simp] theorem keyVoice_setVoice (s : State) (v : Nat) (x : Voice) (k : Nat) :
    (s.setVoice v x).keyVoice k = s.keyVoice k := rfl

theorem keyVoice_lt (s : State) {k v : Nat} (h : s.keyVoice k = some v) : k < s.keymap.length := by
  by_contra hk
  simp [State.keyVoice, List.getD_eq_getElem?_getD, Nat.le_of_not_lt hk] at h

/-! ### The loop over the voices -/

/-- What every turn of the loop keeps holds at its end. -/
theorem forVoices_induct {P : Params} {f : Nat → State → State} {s : State} (Q : State → Prop) (h0 : Q s)
    (hs : ∀ v t, v < P.maxVoices → Q t → Q (f v t)) : Q (forVoices P f s) := by
  unfold forVoices
  have key : ∀ (l : List Nat) (t : State), (∀ v ∈ l, v < P.maxVoices) → Q t → Q (l.foldl (fun t v => f v t) t) := by
    intro l
    induction l with
    | nil => intro t _ h; exact h
    | cons a l ih =>
      intro t hl h
      exact ih _ (fun v hv => hl v (List.mem_cons_of_mem _ hv)) (hs a t (hl a List.mem_cons_self) h)
  exact key _ s (fun v hv => List.mem_range.mp hv) h0

/-- The same with the number of turns made so far. -/
theorem forVoices_induct_upto {P : Params} {f : Nat → State → State} {s : State} (Q : Nat → State → Prop) (h0 : Q 0 s)
    (hs : ∀ v t, v < P.maxVoices → Q v t → Q (v + 1) (f v t)) : Q P.maxVoices (forVoices P f s) := by
  unfold forVoices
  have key : ∀ n, n ≤ P.maxVoices → Q n ((List.range n).foldl (fun t v => f v t) s) := by
    intro n
    induction n with
    | zero => intro _; exact h0
    | succ n ih =>
      intro h
      rw [List.range_succ, List.foldl_append]
      exact hs n _ h (ih (Nat.le_of_succ_le h))
  exact key _ (Nat.le_refl _)

theorem mapIdx_id {α : Type} (l : List α) : l.mapIdx (fun _ x => x) = l := by
  apply List.ext_getElem?
  intro u
  simp

/-- A loop that rewrites each voice by itself: its effect on the pool, everything else as it was. -/
theorem forVoices_setVoice (P : Params) (g : State → Voice → Voice) (s : State)
    (hg : ∀ t : State, { t with voices := s.voices } = s → g t = g s) :
    forVoices P (fun v t => t.setVoice v (g t (t.voice v))) s
      = { s with voices := s.voices.mapIdx (fun v x => if v < P.maxVoices then g s x else x) } := by
  have key := forVoices_induct_upto (P := P) (f := fun v t => t.setVoice v (g t (t.voice v))) (s := s)
    (fun n t => t = { s with voices := s.voices.mapIdx (fun v x => if v < n then g s x else x) })
    (by simp [mapIdx_id]) (by
      intro v t _ ht
      have hgt : g t = g s := hg t (by rw [ht])
      rw [hgt, ht]
      simp only [State.setVoice, State.voice, State.mk.injEq, true_and, and_true]
      apply List.ext_getElem?
      intro u
      by_cases hu : u = v
      · subst hu
        rcases Nat.lt_or_ge u s.voices.length with h | h
        · simp [h]
        · simp [h]
      · rw [List.getElem?_set_ne (Ne.symm hu)]
        simp only [List.getElem?_mapIdx]
        have : (u < v) ↔ (u < v + 1) := by omega
        simp [this])
  exact key

/-! ### Queue primitives -/

theorem hasKey_iff {α : Type} (key : α → Nat) (k : Nat) (q : List α) : hasKey key k q = true ↔ k ∈ q.map key := by
  simp [hasKey]

theorem mem_removeKey {α : Type} (key : α → Nat) (k : Nat) (q : List α) (e : α) :
    e ∈ removeKey key k q ↔ e ∈ q ∧ key e ≠ k := by
  simp [removeKey]

theorem removeKey_keys {α : Type} (key : α → Nat) (k : Nat) (q : List α) :
    (removeKey key k q).map key = (q.map key).filter (fun j => j != k) := by
  simp only [removeKey, List.filter_map]
  congr 1

/-- The loop that makes room drops just enough from the front. -/
theorem popWhileFull_eq_drop {α : Type} (n : Nat) (q : List α) :
    popWhileFull n q = q.drop (q.length + 1 - n) := by
  induction q with
  | nil => simp [popWhileFull]
  | cons e q ih =>
    unfold popWhileFull
    split
    · next hl =>
      rw [ih, List.length_cons]
      have : q.length + 1 + 1 - n = (q.length + 1 - n) + 1 := by omega
      rw [this, List.drop_succ_cons]
    · next hl =>
      have : (e :: q).length + 1 - n = 0 := by simp; omega
      rw [this, List.drop_zero]

theorem popWhileFull_sublist {α : Type} (n : Nat) (q : List α) : (popWhileFull n q).Sublist q := by
  induction q with
  | nil => exact List.Sublist.refl _
  | cons e q ih =>
    unfold popWhileFull
    split
    · exact ih.cons e
    · exact List.Sublist.refl _

theorem popWhileFull_length_lt {α : Type} (n : Nat) (q : List α) (h : 0 < n) : (popWhileFull n q).length < n := by
  rw [popWhileFull_eq_drop n q, List.length_drop]
  omega

/-! ### Faults and HALTED -/

@[simp] theorem halted_iff (s : State) : s.halted = true ↔ s.fault ≠ .clear := by simp [State.halted]

theorem unlessHalted_running (owes : Bool) (run : State → State) {s : State} (h : s.halted = false) :
    unlessHalted owes run s = run s := by simp [unlessHalted, h]

theorem unlessHalted_halted (owes : Bool) (run : State → State) {s : State} (h : s.halted = true) :
    unlessHalted owes run s = endResponse owes s := by simp [unlessHalted, h]

/-- What the shared guard keeps: anything that ending a response keeps, and running keeps. -/
theorem unlessHalted_induct {owes : Bool} {run : State → State} {s : State} (Q : State → Prop)
    (h0 : Q (endResponse owes s)) (h1 : s.halted = false → Q (run s)) : Q (unlessHalted owes run s) := by
  unfold unlessHalted
  split
  · exact h0
  · next h => exact h1 (Bool.eq_false_iff.mpr h)

end Sys2Proof.Machine
end

