-- ==== Sys2Proof/Laws/Pool.lean ====
section
/-! SUPPORT. The voice-level micro-operations (42_voice_ops.md) keep the agreement of the voice pool and the key map,
and write nothing outside the two. -/

namespace Sys2Proof.Machine

/-- `t` differs from `s` in the voice pool and the key map only. -/
def PoolOnly (s t : State) : Prop := t = { s with voices := t.voices, keymap := t.keymap }

theorem PoolOnly.refl (s : State) : PoolOnly s s := rfl

theorem PoolOnly.trans {s t u : State} (h : PoolOnly s t) (h' : PoolOnly t u) : PoolOnly s u := by
  unfold PoolOnly at *
  rw [h', h]

theorem PoolOnly.setVoice (s : State) (v : Nat) (x : Voice) : PoolOnly s (s.setVoice v x) := rfl

theorem PoolOnly.setKey (s : State) (k : Nat) (w : Option Nat) : PoolOnly s (s.setKey k w) := rfl

theorem PoolOnly.clearKey (s : State) (k : Option Nat) : PoolOnly s (s.clearKey k) := by cases k <;> rfl

theorem PoolOnly.clearOwnKey (v : Nat) (k : Option Nat) (s : State) : PoolOnly s (clearOwnKey v k s) := by
  cases k with
  | none => rfl
  | some k =>
    unfold Machine.clearOwnKey
    dsimp only
    split <;> rfl

theorem PoolOnly.stealVoice (v : Nat) (s : State) : PoolOnly s (stealVoice v s) :=
  (PoolOnly.setVoice s v _).trans (PoolOnly.clearKey _ _)

theorem PoolOnly.releaseAndUnbind (v : Nat) (s : State) : PoolOnly s (releaseAndUnbind v s) :=
  (PoolOnly.setVoice s v _).trans (PoolOnly.clearKey _ _)

theorem PoolOnly.freeVoice (v : Nat) (s : State) : PoolOnly s (freeVoice v s) :=
  (PoolOnly.clearOwnKey v _ s).trans (PoolOnly.setVoice _ v _)

theorem PoolOnly.fullReset (P : Params) (v : Nat) (s : State) : PoolOnly s (fullReset P v s) :=
  (PoolOnly.clearOwnKey v _ s).trans (PoolOnly.setVoice _ v _)

theorem PoolOnly.initializeVoice (P : Params) (pt : Patch) (v : Nat) (req : VoiceRequest) (s : State) :
    PoolOnly s (initializeVoice P pt v req s) :=
  ((PoolOnly.clearKey s _).trans (PoolOnly.setVoice _ v _)).trans (PoolOnly.setKey _ _ _)

theorem PoolOnly.legato (P : Params) (pt : Patch) (req : VoiceRequest) (s : State) :
    PoolOnly s (legato P pt req s) :=
  ((PoolOnly.clearKey s _).trans (PoolOnly.setVoice _ 0 _)).trans (PoolOnly.setKey _ _ _)

theorem PoolOnly.initializeMonoVoice (P : Params) (pt : Patch) (req : VoiceRequest) (s : State) :
    PoolOnly s (initializeMonoVoice P pt req s) := by
  unfold Machine.initializeMonoVoice
  split
  · exact (PoolOnly.setVoice s 1 _).trans (PoolOnly.initializeVoice P pt 0 req _)
  · exact PoolOnly.legato P pt req s
  · exact PoolOnly.initializeVoice P pt 0 req s
  · exact PoolOnly.initializeVoice P pt 0 req s

/-- A loop over the voices writes what its turns write. -/
theorem PoolOnly.forVoices {P : Params} {f : Nat → State → State} (hf : ∀ v t, PoolOnly t (f v t)) (s : State) :
    PoolOnly s (forVoices P f s) :=
  forVoices_induct (fun t => PoolOnly s t) (PoolOnly.refl s) (fun v t _ h => h.trans (hf v t))

/-! ### The agreement of the pool and the key map -/

variable {P : Params} {s t : State}

/-- It depends on the pool and the key map only. -/
theorem PoolInv.congr (h : PoolInv P s) (hv : t.voices = s.voices) (hk : t.keymap = s.keymap) : PoolInv P t := by
  have ev : ∀ v, t.voice v = s.voice v := fun v => by simp [State.voice, hv]
  have ek : ∀ k, t.keyVoice k = s.keyVoice k := fun k => by simp [State.keyVoice, hk]
  constructor
  · rw [hv]; exact h.poolSize
  · rw [hk]; exact h.keymapSize
  · intro v k hlt; rw [ev, ek]; exact h.bound v k hlt
  · intro k v e; rw [ek] at e; exact h.mapped k v e
  · intro v hlt; rw [ev]; exact h.boundLive v hlt
  · intro v hlt; rw [ev]; exact h.sustainedPlaying v hlt

/-- A key that a voice holds is a key. -/
theorem PoolInv.key_lt (h : PoolInv P s) {v k : Nat} (hv : v < P.maxVoices) (hk : (s.voice v).key = some k) : k < 128 :=
  h.keymapSize ▸ keyVoice_lt s ((h.bound v k hv).mp hk)

/-- A voice that is not live holds no key. -/
theorem PoolInv.key_none (h : PoolInv P s) {v : Nat} (hv : v < P.maxVoices) (hl : isLive (s.voice v).state = false) :
    (s.voice v).key = none := by
  by_contra hk
  rw [h.boundLive v hv hk] at hl
  exact Bool.noConfusion hl

/-- Rewriting a voice that keeps its key. -/
theorem PoolInv.setVoice (h : PoolInv P s) (v : Nat) {x : Voice} (hkey : x.key = (s.voice v).key)
    (hlive : x.key ≠ none → isLive x.state = true) (hsus : x.sustained = true → x.state = .playing) :
    PoolInv P (s.setVoice v x) where
  poolSize := by simp [h.poolSize]
  keymapSize := h.keymapSize
  bound := fun u k hu => by
    rw [voice_setVoice_any, keyVoice_setVoice]
    split
    · next e => rw [hkey, ← e.1]; exact h.bound u k hu
    · exact h.bound u k hu
  mapped := h.mapped
  boundLive := fun u hu => by
    rw [voice_setVoice_any]
    split
    · exact hlive
    · exact h.boundLive u hu
  sustainedPlaying := fun u hu => by
    rw [voice_setVoice_any]
    split
    · exact hsus
    · exact h.sustainedPlaying u hu

/-- Taking a voice's key away, in the pool and in the map. -/
theorem PoolInv.unbind (h : PoolInv P s) {v : Nat} (hv : v < P.maxVoices) {x : Voice} (hkey : x.key = none)
    (hsus : x.sustained = false) : PoolInv P ((s.setVoice v x).clearKey (s.voice v).key) where
  poolSize := by simp [h.poolSize]
  keymapSize := by simp [h.keymapSize]
  bound := fun u k hu => by
    rw [voice_clearKey, keyVoice_clearKey, keyVoice_setVoice, voice_setVoice_any, h.poolSize]
    have hb := h.bound u k hu
    have hvb := h.bound v k hv
    by_cases e : u = v
    · subst e
      rw [if_pos ⟨rfl, hv⟩, hkey]
      by_cases hk : (s.voice u).key = some k
      · simp [hk]
      · rw [if_neg hk, ← hb]
        simp [hk]
    · rw [if_neg (by simp [e])]
      by_cases hk : (s.voice v).key = some k
      · rw [if_pos hk, hb, hvb.mp hk]
        simp
        exact fun e' => e e'.symm
      · rw [if_neg hk]
        exact hb
  mapped := fun k u e => by
    rw [keyVoice_clearKey, keyVoice_setVoice] at e
    split at e
    · exact absurd e (by simp)
    · exact h.mapped k u e
  boundLive := fun u hu => by
    rw [voice_clearKey, voice_setVoice_any]
    split
    · intro hn; exact absurd hkey hn
    · exact h.boundLive u hu
  sustainedPlaying := fun u hu => by
    rw [voice_clearKey, voice_setVoice_any]
    split
    · intro hs; rw [hsus] at hs; exact Bool.noConfusion hs
    · exact h.sustainedPlaying u hu

/-- Binding a voice to a key that no other voice holds. -/
theorem PoolInv.bind (h : PoolInv P s) {v k : Nat} (hv : v < P.maxVoices) (hk : k < 128)
    (hfree : s.keyVoice k = none ∨ s.keyVoice k = some v) {x : Voice} (hkey : x.key = some k)
    (hlive : isLive x.state = true) (hsus : x.sustained = true → x.state = .playing) :
    PoolInv P (((s.clearKey (s.voice v).key).setVoice v x).setKey k (some v)) where
  poolSize := by simp [h.poolSize]
  keymapSize := by
    rw [keymap_length_setKey]
    exact (keymap_length_clearKey s _).trans h.keymapSize
  bound := fun u j hu => by
    rw [voice_setKey, voice_setVoice_any, voice_clearKey, clearKey_voices, h.poolSize]
    have hb := h.bound u j hu
    have hvb := h.bound v j hv
    by_cases ej : j = k
    · subst ej
      rw [keyVoice_setKey_same _ _ (by rw [setVoice_keymap, keymap_length_clearKey, h.keymapSize]; exact hk)]
      by_cases e : u = v
      · subst e
        rw [if_pos ⟨rfl, hv⟩]
        simp [hkey]
      · rw [if_neg (by simp [e]), hb]
        constructor
        · intro e'
          rcases hfree with hf | hf <;> rw [hf] at e'
          · exact absurd e' (by simp)
          · exact e'
        · intro e'
          exact absurd (Option.some.inj e').symm e
    · rw [keyVoice_setKey_ne _ _ ej, keyVoice_setVoice, keyVoice_clearKey]
      by_cases e : u = v
      · subst e
        rw [if_pos ⟨rfl, hv⟩, hkey]
        by_cases hj : (s.voice u).key = some j
        · simp [hj]
          exact fun e' => ej e'.symm
        · rw [if_neg hj, ← hb]
          simp [hj]
          exact fun e' => ej e'.symm
      · rw [if_neg (by simp [e])]
        by_cases hj : (s.voice v).key = some j
        · rw [if_pos hj, hb, hvb.mp hj]
          simp
          exact fun e' => e e'.symm
        · rw [if_neg hj]
          exact hb
  mapped := fun j u e => by
    by_cases ej : j = k
    · subst ej
      rw [keyVoice_setKey_same _ _ (by rw [setVoice_keymap, keymap_length_clearKey, h.keymapSize]; exact hk)] at e
      exact Option.some.inj e ▸ hv
    · rw [keyVoice_setKey_ne _ _ ej, keyVoice_setVoice, keyVoice_clearKey] at e
      split at e
      · exact absurd e (by simp)
      · exact h.mapped j u e
  boundLive := fun u hu => by
    rw [voice_setKey, voice_setVoice_any, voice_clearKey]
    split
    · exact fun _ => hlive
    · exact h.boundLive u hu
  sustainedPlaying := fun u hu => by
    rw [voice_setKey, voice_setVoice_any, voice_clearKey]
    split
    · exact hsus
    · exact h.sustainedPlaying u hu

/-! ### The operations -/

theorem PoolInv.stealVoice (h : PoolInv P s) {v : Nat} (hv : v < P.maxVoices) : PoolInv P (stealVoice v s) :=
  h.unbind hv rfl rfl

theorem PoolInv.releaseAndUnbind (h : PoolInv P s) {v : Nat} (hv : v < P.maxVoices) :
    PoolInv P (releaseAndUnbind v s) := h.unbind hv rfl rfl

/-- Where the pool and the map agree, a voice's key is its own to clear. -/
theorem PoolInv.clearOwnKey_eq (h : PoolInv P s) {v : Nat} (hv : v < P.maxVoices) :
    clearOwnKey v (s.voice v).key s = s.clearKey (s.voice v).key := by
  cases e : (s.voice v).key with
  | none => rfl
  | some k =>
    show (if s.keyVoice k = some v then s.setKey k none else s) = s.setKey k none
    exact if_pos ((h.bound v k hv).mp e)

theorem setVoice_clearKey (s : State) (v : Nat) (x : Voice) (k : Option Nat) :
    (s.clearKey k).setVoice v x = (s.setVoice v x).clearKey k := by
  cases k <;> rfl

theorem PoolInv.freeVoice (h : PoolInv P s) {v : Nat} (hv : v < P.maxVoices) : PoolInv P (freeVoice v s) := by
  unfold Machine.freeVoice
  dsimp only
  rw [h.clearOwnKey_eq hv, setVoice_clearKey]
  exact h.unbind hv rfl rfl

theorem PoolInv.fullReset (h : PoolInv P s) {v : Nat} (hv : v < P.maxVoices) : PoolInv P (fullReset P v s) := by
  unfold Machine.fullReset
  rw [h.clearOwnKey_eq hv, setVoice_clearKey]
  exact h.unbind hv rfl rfl

/-- Initialising a voice for a key that no other voice holds. -/
theorem PoolInv.initializeVoice (h : PoolInv P s) (pt : Patch) {v : Nat} (hv : v < P.maxVoices) {req : VoiceRequest}
    (hk : req.key < 128) (hfree : s.keyVoice req.key = none ∨ s.keyVoice req.key = some v) :
    PoolInv P (initializeVoice P pt v req s) :=
  h.bind hv hk hfree rfl rfl (fun _ => rfl)

/-- Rebinding the Playing voice 0. -/
theorem PoolInv.legato (h : PoolInv P s) (pt : Patch) (h0 : 0 < P.maxVoices) {req : VoiceRequest}
    (hk : req.key < 128) (hp : (s.voice 0).state = .playing)
    (hfree : s.keyVoice req.key = none ∨ s.keyVoice req.key = some 0) : PoolInv P (legato P pt req s) := by
  have e : ((s.clearKey (s.voice 0).key).voice 0).state = .playing := by rw [voice_clearKey, hp]
  exact h.bind h0 hk hfree rfl (by show isLive (_ : VoiceState) = true; dsimp only [legatoVoice]; rw [e]; rfl)
    (fun _ => e)

/-- After power-on the pool and the key map agree (70_reset_and_hazards.md R360). -/
theorem poolInv_resetWith (P : Params) : PoolInv P (resetWith P) := by
  have hk : ∀ k, (resetWith P).keyVoice k = none := by
    intro k
    show (List.replicate 128 (none : Option Nat)).getD k none = none
    rw [List.getD_eq_getElem?_getD, List.getElem?_replicate]
    split <;> rfl
  have hv : ∀ v, v < P.maxVoices → (resetWith P).voice v = voicePowerOn P := by
    intro v hv
    show (List.replicate P.maxVoices (voicePowerOn P)).getD v default = voicePowerOn P
    rw [List.getD_eq_getElem?_getD, List.getElem?_replicate, if_pos hv, Option.getD_some]
  exact {
    poolSize := List.length_replicate
    keymapSize := List.length_replicate
    bound := fun v k h => by rw [hv v h, hk]; simp [voicePowerOn]
    mapped := fun k v e => by rw [hk] at e; exact absurd e (by simp)
    boundLive := fun v h e => by rw [hv v h] at e; exact absurd rfl e
    sustainedPlaying := fun v h e => by rw [hv v h] at e; exact Bool.noConfusion e }

end Sys2Proof.Machine
end

