-- ==== Sys2Proof/Laws/Graph.lean ====
section
/-! SUPPORT. What one evaluation of a voice keeps: the note, the lifecycle state and the configuration of every operator,
whether it ends normally or at a NUMERIC fault (43_operator_graph.md R260, R274). -/

namespace Sys2Proof.Machine

/-! ### Configurations -/

theorem SameConfig.refl (o : Operator) : SameConfig o o := by constructor <;> rfl

theorem SameConfig.trans {a b c : Operator} (h : SameConfig a b) (h' : SameConfig b c) : SameConfig a c where
  enabled := h'.enabled.trans h.enabled
  carrier := h'.carrier.trans h.carrier
  fixed := h'.fixed.trans h.fixed
  waveform := h'.waveform.trans h.waveform
  filterType := h'.filterType.trans h.filterType
  mod0 := h'.mod0.trans h.mod0
  mod1 := h'.mod1.trans h.mod1
  mod2 := h'.mod2.trans h.mod2
  fbSrc := h'.fbSrc.trans h.fbSrc
  ampMod := h'.ampMod.trans h.ampMod
  pitchMod := h'.pitchMod.trans h.pitchMod
  panMod := h'.panMod.trans h.panMod
  filtCutoff := h'.filtCutoff.trans h.filtCutoff
  filtQ := h'.filtQ.trans h.filtQ
  infinite := h'.infinite.trans h.infinite
  envCarrier := h'.envCarrier.trans h.envCarrier
  envParams := h'.envParams.trans h.envParams

theorem SameConfigs.refl (l : List Operator) : SameConfigs l l :=
  ⟨rfl, fun i o o' h h' => by rw [h] at h'; cases h'; exact SameConfig.refl o⟩

theorem SameConfigs.trans {a b c : List Operator} (h : SameConfigs a b) (h' : SameConfigs b c) : SameConfigs a c := by
  refine ⟨h'.1.trans h.1, fun i o o'' ha hc => ?_⟩
  have hlt : i < b.length := by
    have := (List.getElem?_eq_some_iff.mp ha).1
    rw [h.1]; exact this
  have hb : b[i]? = some b[i] := List.getElem?_eq_getElem hlt
  exact (h.2 i o _ ha hb).trans (h'.2 i _ o'' hb hc)

/-- Replacing an operator by one of its own configuration. -/
theorem SameConfigs.set {a b : List Operator} (h : SameConfigs a b) (i : Nat) {o : Operator}
    (ho : SameConfig (b.getD i default) o) : SameConfigs a (b.set i o) := by
  refine h.trans ⟨by simp, fun j x y hx hy => ?_⟩
  by_cases e : i = j
  · subst e
    have hlt := (List.getElem?_eq_some_iff.mp hx).1
    rw [List.getElem?_set_self hlt] at hy
    cases hy
    rwa [List.getD_eq_getElem?_getD, hx, Option.getD_some] at ho
  · rw [List.getElem?_set_ne e, hx] at hy
    cases hy
    exact SameConfig.refl x

theorem SameConfigs.map {l : List Operator} {f : Operator → Operator} (hf : ∀ o, SameConfig o (f o)) :
    SameConfigs l (l.map f) := by
  refine ⟨by simp, fun i o o' h h' => ?_⟩
  rw [List.getElem?_map, h] at h'
  cases h'
  exact hf o

theorem SameConfigs.mapOps {pt : Patch} {l : List Operator} {f : Operator → OpPatch → Operator}
    (hf : ∀ o q, SameConfig o (f o q)) : SameConfigs l (mapOps pt f l) := by
  refine ⟨by simp [Machine.mapOps], fun i o o' h h' => ?_⟩
  simp only [Machine.mapOps, List.getElem?_mapIdx, h, Option.map_some] at h'
  cases h'
  exact hf o _

/-! ### Envelopes keep what EnvStart wrote -/

theorem envSample_keeps (P : Params) (e : Envelope) :
    (envSample P e).2.infinite = e.infinite ∧ (envSample P e).2.carrier = e.carrier
      ∧ (envSample P e).2.params = e.params := by
  unfold envSample
  split <;> exact ⟨rfl, rfl, rfl⟩

theorem envStop_keeps (e : Envelope) :
    (envStop e).infinite = e.infinite ∧ (envStop e).carrier = e.carrier ∧ (envStop e).params = e.params := by
  unfold envStop
  split
  · exact ⟨rfl, rfl, rfl⟩
  · split <;> exact ⟨rfl, rfl, rfl⟩

theorem onPianoSustain_keeps (P : Params) (fs : Word) (falloff relMul : F32) (e : Envelope) :
    (onPianoSustain P fs falloff relMul e).infinite = e.infinite
      ∧ (onPianoSustain P fs falloff relMul e).carrier = e.carrier
      ∧ (onPianoSustain P fs falloff relMul e).params = e.params := by
  unfold onPianoSustain
  split <;> exact ⟨rfl, rfl, rfl⟩

theorem sameConfig_env {o : Operator} {e : Envelope} (h : e.infinite = o.env.infinite ∧ e.carrier = o.env.carrier
    ∧ e.params = o.env.params) : SameConfig o { o with env := e } := by
  constructor <;> first | rfl | exact h.1 | exact h.2.1 | exact h.2.2

/-! ### One operator -/

theorem operatorOutput_config (P : Params) (c : SampleInputs) (ops : List Operator) (o : Operator) :
    SameConfig o (operatorOutput P c ops o).2 := by
  have h := envSample_keeps P o.env
  constructor <;> first | rfl | exact h.1 | exact h.2.1 | exact h.2.2

/-- What one operator's turn does: a disabled one stores +0.0 and is left alone (R276); an enabled one ends the
evaluation where its output is not finite (R274), and otherwise stores its output. -/
theorem operatorStep_cases (P : Params) (c : SampleInputs) (i : Nat) (g : GraphRun) :
    ((g.ops.getD i default).enabled = false ∧ operatorStep P c i g = .ok { g with curMod := g.curMod ++ [fZero] })
    ∨ ∃ out o, (g.ops.getD i default).enabled = true ∧ SameConfig (g.ops.getD i default) o
        ∧ ((isFinite out = false ∧ operatorStep P c i g = .error (g.ops.set i o))
          ∨ (isFinite out = true ∧ ∃ mixL mixR,
              operatorStep P c i g = .ok ⟨g.ops.set i o, g.curMod ++ [out], mixL, mixR⟩)) := by
  rcases Bool.eq_false_or_eq_true (g.ops.getD i default).enabled with he | he
  · right
    generalize hout : operatorOutput P c g.ops (g.ops.getD i default) = r
    have hc : SameConfig (g.ops.getD i default) r.2 := hout ▸ operatorOutput_config P c g.ops _
    rcases Bool.eq_false_or_eq_true (isFinite r.1) with hf | hf
    · refine ⟨r.1, { r.2 with fbState := feedbackState P r.2 r.1, pan := interpSample r.2.pan }, he,
        hc.trans (by constructor <;> rfl), .inr ⟨hf, ?_⟩⟩
      unfold operatorStep
      simp only [he, hout, hf, Bool.true_eq_false, if_false]
      split
      · exact ⟨_, _, rfl⟩
      · exact ⟨_, _, rfl⟩
    · refine ⟨r.1, r.2, he, hc, .inl ⟨hf, ?_⟩⟩
      unfold operatorStep
      simp only [he, hout, hf, Bool.true_eq_false, if_false, if_true]
  · left
    refine ⟨he, ?_⟩
    unfold operatorStep
    simp only [he, if_true]

/-- The operators of one evaluation, whether it ends normally or at a fault. -/
theorem operatorRun_spec (P : Params) (c : SampleInputs) (is : List Nat) (g : GraphRun) :
    (∃ ops, operatorRun P c is g = .error ops ∧ SameConfigs g.ops ops)
    ∨ ∃ h, operatorRun P c is g = .ok h ∧ SameConfigs g.ops h.ops ∧ h.curMod.length = g.curMod.length + is.length := by
  induction is generalizing g with
  | nil => exact .inr ⟨g, rfl, SameConfigs.refl _, rfl⟩
  | cons i is ih =>
    rcases operatorStep_cases P c i g with ⟨-, e⟩ | ⟨out, o, -, hc, ⟨-, e⟩ | ⟨-, mixL, mixR, e⟩⟩
    · rcases ih { g with curMod := g.curMod ++ [fZero] } with ⟨ops, e', h⟩ | ⟨h, e', hs, hl⟩
      · exact .inl ⟨ops, by rw [operatorRun, e]; exact e', h⟩
      · exact .inr ⟨h, by rw [operatorRun, e]; exact e', hs, by simp at hl ⊢; omega⟩
    · exact .inl ⟨_, by rw [operatorRun, e], (SameConfigs.refl _).set i hc⟩
    · rcases ih ⟨g.ops.set i o, g.curMod ++ [out], mixL, mixR⟩ with ⟨ops, e', h⟩ | ⟨h, e', hs, hl⟩
      · exact .inl ⟨ops, by rw [operatorRun, e]; exact e', ((SameConfigs.refl _).set i hc).trans h⟩
      · exact .inr ⟨h, by rw [operatorRun, e]; exact e', ((SameConfigs.refl _).set i hc).trans hs,
          by simp at hl ⊢; omega⟩

/-! ### One voice -/

/-- What an evaluation of a voice keeps: its note, lifecycle state and configuration; at its normal end six outputs are
stored, at a NUMERIC fault the outputs stored before stand (R274, R275). -/
theorem voiceSample_spec (P : Params) (pt : Patch) (fs : Word) (v : Voice) (b m : F32) :
    (∃ w, voiceSample P pt fs v b m = .error w ∧ SameNote v w ∧ w.prevMod = v.prevMod)
    ∨ ∃ l r w, voiceSample P pt fs v b m = .ok (l, r, w) ∧ SameNote v w ∧ w.prevMod.length = 6 := by
  unfold voiceSample
  dsimp only
  generalize hc : (SampleInputs.mk _ _ _ _ _ _) = c
  rcases operatorRun_spec P c (List.range 6) ⟨v.ops, [], fZero, fZero⟩ with ⟨ops, e, h⟩ | ⟨g, e, h, hl⟩
  · rw [show operatorRun P c (List.range 6) ⟨(pitchMultipliers P pt (blendedLfo P pt fs v).2 b).2.2.ops, [], fZero, fZero⟩
      = .error ops from e]
    refine .inl ⟨_, rfl, ?_, rfl⟩
    constructor <;> first | rfl | exact h
  · rw [show operatorRun P c (List.range 6) ⟨(pitchMultipliers P pt (blendedLfo P pt fs v).2 b).2.2.ops, [], fZero, fZero⟩
      = .ok g from e]
    refine .inr ⟨_, _, _, rfl, ?_, hl⟩
    constructor <;> first | rfl | exact h

theorem SameNote.refl (v : Voice) : SameNote v v := by
  constructor <;> first | rfl | exact SameConfigs.refl _

theorem SameNote.trans {u v w : Voice} (h : SameNote u v) (h' : SameNote v w) : SameNote u w where
  state := h'.state.trans h.state
  key := h'.key.trans h.key
  velocity := h'.velocity.trans h.velocity
  freq := h'.freq.trans h.freq
  sustained := h'.sustained.trans h.sustained
  glide := h'.glide.trans h.glide
  configs := h.configs.trans h'.configs
  filterInfinite := h'.filterInfinite.trans h.filterInfinite

/-- A voice that keeps its note and has six outputs stored is still as the rules keep it. -/
theorem VoiceWf.of_sameNote {v w : Voice} (h : VoiceWf v) (hn : SameNote v w) (hp : w.prevMod.length = 6) :
    VoiceWf w where
  sixOperators := hn.configs.1.trans h.sixOperators
  sixOutputs := hp
  acyclic := by
    intro i o' ho'
    have hlt : i < v.ops.length := hn.configs.1 ▸ (List.getElem?_eq_some_iff.mp ho').1
    have ho : v.ops[i]? = some v.ops[i] := List.getElem?_eq_getElem hlt
    have hs := hn.configs.2 i _ o' ho ho'
    have hr := h.acyclic i _ ho
    unfold routed at *
    rw [hs.mod0, hs.mod1, hs.mod2, hs.fbSrc]
    exact hr
  carriersEnd := by
    intro o' hm hh
    obtain ⟨i, hi, rfl⟩ := List.getElem_of_mem hm
    have hlt : i < v.ops.length := hn.configs.1 ▸ hi
    have hs := hn.configs.2 i _ _ (List.getElem?_eq_getElem hlt) (List.getElem?_eq_getElem hi)
    rw [hs.infinite]
    refine h.carriersEnd _ (List.getElem_mem hlt) ?_
    unfold heard at *
    rw [hs.enabled, hs.carrier] at hh
    exact hh
  filterEnvEnds := hn.filterInfinite.trans h.filterEnvEnds

end Sys2Proof.Machine
end

