-- ==== Sys2Proof/Laws/Render.lean ====
section
/-! SUPPORT. What rendering samples does to the state (41_lifecycle.md R210 to R216): the voices keep their notes, Idle
voices are left alone, nothing but the voices, the global controls and the frame port moves, and each sample that does
not fault emits one finite frame. -/

namespace Sys2Proof.Machine

/-- What one voice's part of a sample keeps. -/
theorem renderVoice_spec (P : Params) (pt : Patch) (j n : Nat) (s : State) (v : Voice) :
    (∃ w, renderVoice P pt j n s v = .error w ∧ SameNote v w ∧ w.prevMod = v.prevMod)
    ∨ ∃ l r w, renderVoice P pt j n s v = .ok (l, r, w) ∧ SameNote v w ∧ w.prevMod.length = 6 := by
  unfold renderVoice
  rcases voiceSample_spec P pt s.fs v s.gBend.cur s.gMod.cur with ⟨w, e, h, hp⟩ | ⟨l, r, w, e, h, hp⟩
  · rw [e]
    exact .inl ⟨w, rfl, h, hp⟩
  · rw [e]
    refine .inr ⟨_, _, _, rfl, h.trans ?_, hp⟩
    constructor <;> first | rfl | exact SameConfigs.refl _ | exact (envSample_keeps P w.filterEnv).1

/-- The relation between the states before and after some part of the samples of a RENDER. -/
structure Rendered (s t : State) : Prop where
  /-- Nothing else is written (40_host_commands.md R148). -/
  frame : t = { s with voices := t.voices, gBend := t.gBend, gMod := t.gMod, gAft := t.gAft, gCutoff := t.gCutoff
                       gReso := t.gReso, glfoPhase := t.glfoPhase, framePort := t.framePort }
  /-- The pool keeps its size. -/
  pool : t.voices.length = s.voices.length
  /-- Every voice keeps its note. -/
  notes : ∀ v, SameNote (s.voice v) (t.voice v)
  /-- An Idle voice is not evaluated (R212). -/
  idle : ∀ v, (s.voice v).state = .idle → t.voice v = s.voice v
  /-- The stored outputs stay as they were or are six new ones. -/
  outputs : ∀ v, (t.voice v).prevMod = (s.voice v).prevMod ∨ (t.voice v).prevMod.length = 6
  /-- Frames are only appended, and every one is finite (R216). -/
  frames : ∃ fs, t.framePort = s.framePort ++ fs ∧ ∀ f ∈ fs, isFinite f.left = true ∧ isFinite f.right = true

theorem Rendered.refl (s : State) : Rendered s s :=
  ⟨rfl, rfl, fun _ => SameNote.refl _, fun _ _ => rfl, fun _ => .inl rfl, [], by simp, by simp⟩

theorem Rendered.trans {s t u : State} (h : Rendered s t) (h' : Rendered t u) : Rendered s u where
  frame := by rw [h'.frame, h.frame]
  pool := h'.pool.trans h.pool
  notes := fun v => (h.notes v).trans (h'.notes v)
  idle := fun v hv => by
    have e := h.idle v hv
    rw [h'.idle v (by rw [e]; exact hv), e]
  outputs := fun v => by
    rcases h'.outputs v with e | e
    · rw [e]
      exact h.outputs v
    · exact .inr e
  frames := by
    obtain ⟨fs, e, hf⟩ := h.frames
    obtain ⟨fs', e', hf'⟩ := h'.frames
    refine ⟨fs ++ fs', by rw [e', e, List.append_assoc], fun f hm => ?_⟩
    rcases List.mem_append.mp hm with hm | hm
    · exact hf f hm
    · exact hf' f hm

/-- One voice evaluated. -/
theorem Rendered.setVoice (s : State) (v : Nat) {w : Voice} (hv : (s.voice v).state ≠ .idle)
    (hn : SameNote (s.voice v) w) (hp : w.prevMod = (s.voice v).prevMod ∨ w.prevMod.length = 6) :
    Rendered s (s.setVoice v w) where
  frame := rfl
  pool := by simp
  notes := fun u => by
    rw [voice_setVoice_any]
    split
    · next e => rw [e.1]; exact hn
    · exact SameNote.refl _
  idle := fun u hu => by
    rw [voice_setVoice_any, if_neg]
    rintro ⟨rfl, -⟩
    exact hv hu
  outputs := fun u => by
    rw [voice_setVoice_any]
    split
    · next e => rw [e.1]; exact hp
    · exact .inl rfl
  frames := ⟨[], by simp, by simp⟩

/-- The voices of one sample: in both outcomes a rendered state, and no frame yet. -/
theorem mixVoices_spec (P : Params) (pt : Patch) (j n : Nat) (vs : List Nat) (s : State) (dryL dryR : F32) :
    (∃ t, mixVoices P pt j n vs s dryL dryR = .error t ∧ Rendered s t ∧ t.framePort = s.framePort)
    ∨ ∃ l r t, mixVoices P pt j n vs s dryL dryR = .ok (l, r, t) ∧ Rendered s t ∧ t.framePort = s.framePort := by
  induction vs generalizing s dryL dryR with
  | nil => exact .inr ⟨dryL, dryR, s, rfl, Rendered.refl s, rfl⟩
  | cons v vs ih =>
    unfold mixVoices
    split
    · exact ih s dryL dryR
    · next hv =>
      rcases renderVoice_spec P pt j n s (s.voice v) with ⟨w, e, hn, hp⟩ | ⟨l, r, w, e, hn, hp⟩
      · rw [e]
        exact .inl ⟨_, rfl, Rendered.setVoice s v hv hn (.inl hp), rfl⟩
      · rw [e]
        have hr := Rendered.setVoice s v hv hn (.inr hp)
        rcases ih (s.setVoice v w) (fadd dryL l) (fadd dryR r) with ⟨t, e', h, hf⟩ | ⟨l', r', t, e', h, hf⟩
        · exact .inl ⟨t, e', hr.trans h, hf⟩
        · exact .inr ⟨l', r', t, e', hr.trans h, hf⟩

theorem advanceGlobals_rendered (pt : Patch) (s : State) : Rendered s (advanceGlobals pt s) :=
  ⟨rfl, rfl, fun _ => SameNote.refl _, fun _ _ => rfl, fun _ => .inl rfl, [], by simp [advanceGlobals], by simp⟩

theorem emit_rendered {l r : F32} (hl : isFinite l = true) (hr : isFinite r = true) (s : State) :
    Rendered s (emit l r s) :=
  ⟨rfl, rfl, fun _ => SameNote.refl _, fun _ _ => rfl, fun _ => .inl rfl, [⟨l, r⟩], rfl, by simp [hl, hr]⟩

/-- One sample: a fault emits nothing, a sample that does not fault emits one frame. -/
theorem renderSample_spec (P : Params) (pt : Patch) (n j : Nat) (s : State) :
    (∃ t, renderSample P pt n j s = .error t ∧ Rendered s t ∧ t.framePort = s.framePort)
    ∨ ∃ t l r, renderSample P pt n j s = .ok t ∧ Rendered s t ∧ t.framePort = s.framePort ++ [⟨l, r⟩] := by
  have hg := advanceGlobals_rendered pt s
  unfold renderSample
  rcases mixVoices_spec P pt j n (List.range P.maxVoices) (advanceGlobals pt s) fZero fZero with
    ⟨t, e, h, hf⟩ | ⟨l, r, t, e, h, hf⟩
  · rw [e]
    exact .inl ⟨t, rfl, hg.trans h, hf⟩
  · rw [e]
    dsimp only
    split
    · next hfin =>
      rw [Bool.and_eq_true] at hfin
      refine .inr ⟨_, l, r, rfl, (hg.trans h).trans (emit_rendered hfin.1 hfin.2 t), ?_⟩
      show t.framePort ++ _ = _
      rw [hf]
      rfl
    · exact .inl ⟨t, rfl, hg.trans h, hf⟩

/-- The samples of a block: one frame for each where none faults, and fewer where one does. -/
theorem renderSamples_spec (P : Params) (pt : Patch) (n : Nat) (js : List Nat) (s : State) :
    (∃ t fs, renderSamples P pt n js s = .error t ∧ Rendered s t ∧ t.framePort = s.framePort ++ fs
      ∧ fs.length < js.length)
    ∨ ∃ t fs, renderSamples P pt n js s = .ok t ∧ Rendered s t ∧ t.framePort = s.framePort ++ fs
      ∧ fs.length = js.length := by
  induction js generalizing s with
  | nil => exact .inr ⟨s, [], rfl, Rendered.refl s, by simp, rfl⟩
  | cons j js ih =>
    unfold renderSamples
    rcases renderSample_spec P pt n j s with ⟨t, e, h, hf⟩ | ⟨t, l, r, e, h, hf⟩
    · rw [e]
      exact .inl ⟨t, [], rfl, h, by simp [hf], by simp⟩
    · rw [e]
      rcases ih t with ⟨u, fs, e', h', hf', hl⟩ | ⟨u, fs, e', h', hf', hl⟩
      · exact .inl ⟨u, ⟨l, r⟩ :: fs, e', h.trans h', by rw [hf', hf]; simp, by simp [hl]⟩
      · exact .inr ⟨u, ⟨l, r⟩ :: fs, e', h.trans h', by rw [hf', hf]; simp, by simp [hl]⟩

end Sys2Proof.Machine
end

