-- ==== Sys2Proof/Laws/Lifecycle.lean ====
section
/-! SUPPORT. The parts of a RENDER (41_lifecycle.md) keep the lifecycle invariant: sustain, pre-render, samples,
post-render. -/

namespace Sys2Proof.Machine

variable {P : Params} {s t : State}

/-! ### The invariant under the updates it can see -/

theorem QueueInv.congr (h : QueueInv P s) (hp : t.polyReq = s.polyReq) (hm : t.monoReq = s.monoReq)
    (hr : t.relQ = s.relQ) (hs : t.monoSeq = s.monoSeq) : QueueInv P t := by
  constructor
  · rw [hp]; exact h.polyDistinct
  · rw [hr]; exact h.relDistinct
  · rw [hs]; exact h.seqDistinct
  · rw [hm]; exact h.monoOne
  · rw [hp]; exact h.polyBounded
  · rw [hp]; exact h.polyKeys
  · rw [hm]; exact h.monoKeys
  · rw [hr]; exact h.relKeys
  · rw [hs]; exact h.seqKeys

/-- Empty queues are distinct and bounded. -/
theorem QueueInv.empty (hp : s.polyReq = []) (hm : s.monoReq = []) (hr : s.relQ = []) (hs : s.monoSeq = []) :
    QueueInv P s := by
  constructor <;> simp [DistinctKeys, KeysFit, hp, hm, hr, hs]

/-- The invariant reads the pool, the key map, the queues, MODE and CUR_POLY. -/
theorem Inv.congr (h : Inv P s) (hv : t.voices = s.voices) (hk : t.keymap = s.keymap) (hp : t.polyReq = s.polyReq)
    (hm : t.monoReq = s.monoReq) (hr : t.relQ = s.relQ) (hs : t.monoSeq = s.monoSeq) (hmode : t.mode = s.mode)
    (hcur : t.curPoly = s.curPoly) : Inv P t where
  pool := h.pool.congr hv hk
  queues := h.queues.congr hp hm hr hs
  polyphony := by rw [hcur]; exact h.polyphony
  pendingUnbound := by
    intro r hr'
    rw [hp] at hr'
    simpa [State.keyVoice, hk] using h.pendingUnbound r hr'
  monoMode := by
    intro e
    rw [hmode] at e
    rw [hp]
    exact ⟨(h.monoMode e).1, fun v hlt => by simpa [State.voice, hv] using (h.monoMode e).2 v hlt⟩
  polyMode := by
    intro e
    rw [hmode] at e
    rw [hm, hs]
    exact h.polyMode e

/-- A change of the pool and the key map that binds no pending key and wakes no voice. -/
theorem Inv.of_pool (h : Inv P s) (ht : PoolOnly s t) (hpool : PoolInv P t)
    (hkeys : ∀ r ∈ s.polyReq, t.keyVoice r.key = none)
    (hlive : s.mode = .mono → ∀ v, v < P.maxVoices → isLive (t.voice v).state = true → v = 0) : Inv P t where
  pool := hpool
  queues := h.queues.congr (by rw [ht]) (by rw [ht]) (by rw [ht]) (by rw [ht])
  polyphony := by rw [ht]; exact h.polyphony
  pendingUnbound := by
    have e : t.polyReq = s.polyReq := by rw [ht]
    rw [e]
    exact hkeys
  monoMode := by
    have e : t.polyReq = s.polyReq := by rw [ht]
    have e' : t.mode = s.mode := by rw [ht]
    rw [e, e']
    exact fun hm => ⟨(h.monoMode hm).1, hlive hm⟩
  polyMode := by
    have e : t.monoReq = s.monoReq := by rw [ht]
    have e' : t.monoSeq = s.monoSeq := by rw [ht]
    have e'' : t.mode = s.mode := by rw [ht]
    rw [e, e', e'']
    exact h.polyMode

/-- Rewriting a voice that keeps its key and does not wake. -/
theorem Inv.setVoice (h : Inv P s) (v : Nat) {x : Voice} (hkey : x.key = (s.voice v).key)
    (hlive : x.key ≠ none → isLive x.state = true) (hsus : x.sustained = true → x.state = .playing)
    (hwake : isLive x.state = true → isLive (s.voice v).state = true) : Inv P (s.setVoice v x) :=
  h.of_pool (PoolOnly.setVoice s v x) (h.pool.setVoice v hkey hlive hsus) h.pendingUnbound (fun hm u hu => by
    rw [voice_setVoice_any]
    split
    · next e => rw [e.1]; exact fun hl => (h.monoMode hm).2 v (e.1 ▸ hu) (hwake hl)
    · exact (h.monoMode hm).2 u hu)

/-- Taking a voice's key away. -/
theorem Inv.unbind (h : Inv P s) {v : Nat} (hv : v < P.maxVoices) {x : Voice} (hkey : x.key = none)
    (hsus : x.sustained = false) (hwake : isLive x.state = true → isLive (s.voice v).state = true) :
    Inv P ((s.setVoice v x).clearKey (s.voice v).key) :=
  h.of_pool ((PoolOnly.setVoice s v x).trans (PoolOnly.clearKey _ _)) (h.pool.unbind hv hkey hsus)
    (fun r hr => by
      rw [keyVoice_clearKey, keyVoice_setVoice, h.pendingUnbound r hr, ite_self])
    (fun hm u hu => by
      rw [voice_clearKey, voice_setVoice_any]
      split
      · next e => rw [e.1]; exact fun hl => (h.monoMode hm).2 v hv (hwake hl)
      · exact (h.monoMode hm).2 u hu)

theorem Inv.stealVoice (h : Inv P s) {v : Nat} (hv : v < P.maxVoices) : Inv P (stealVoice v s) :=
  h.unbind hv rfl rfl (fun hl => by simp [unbound, isLive] at hl)

theorem Inv.freeVoice (h : Inv P s) {v : Nat} (hv : v < P.maxVoices) : Inv P (freeVoice v s) := by
  unfold Machine.freeVoice
  dsimp only
  rw [h.pool.clearOwnKey_eq hv, setVoice_clearKey]
  exact h.unbind hv rfl rfl (fun hl => by simp [unbound, isLive] at hl)

theorem Inv.fullReset (h : Inv P s) {v : Nat} (hv : v < P.maxVoices) : Inv P (fullReset P v s) := by
  unfold Machine.fullReset
  rw [h.pool.clearOwnKey_eq hv, setVoice_clearKey]
  exact h.unbind hv rfl rfl (fun hl => by simp [voicePowerOn, isLive] at hl)

theorem releasing_live (v : Voice) :
    isLive (if v.state = .playing then releaseVoice v else v).state = true → isLive v.state = true := by
  split
  · next e => intro _; rw [e]; rfl
  · exact id

theorem Inv.releaseAndUnbind (h : Inv P s) {v : Nat} (hv : v < P.maxVoices) : Inv P (releaseAndUnbind v s) :=
  h.unbind hv rfl rfl (releasing_live _)

/-- Releasing a voice that is not sustained (42_voice_ops.md R245). -/
theorem Inv.releaseVoice (h : Inv P s) (v : Nat) (hp : (s.voice v).state = .playing)
    (hs : (s.voice v).sustained = false) : Inv P (s.setVoice v (releaseVoice (s.voice v))) :=
  h.setVoice v rfl (fun _ => rfl) (fun e => by
    have e' : (s.voice v).sustained = true := e
    rw [hs] at e'
    exact Bool.noConfusion e') (fun _ => by rw [hp]; rfl)

/-! ### Global targets and sustain -/

theorem Inv.setGlobalTargets (h : Inv P s) (pt : Patch) (n : Nat) (b m a : F32) :
    Inv P (setGlobalTargets pt n b m a s) := h.congr rfl rfl rfl rfl rfl rfl rfl rfl

theorem pianoReshape_note (P : Params) (pt : Patch) (fs : Word) (v : Voice) :
    SameNote v (pianoReshape P pt fs v) := by
  constructor
  all_goals first | rfl | skip
  · refine SameConfigs.map (fun o => ?_)
    split
    · exact sameConfig_env (onPianoSustain_keeps P fs _ _ o.env)
    · exact SameConfig.refl o
  · exact (onPianoSustain_keeps P fs _ _ v.filterEnv).1

theorem sustainVoice_keeps (P : Params) (pt : Patch) (fs : Word) (piano : Bool) (v : Voice) :
    (sustainVoice P pt fs piano v).key = v.key ∧ (sustainVoice P pt fs piano v).state = v.state
      ∧ ((sustainVoice P pt fs piano v).sustained = true → v.sustained = true ∨ v.state = .playing) := by
  unfold sustainVoice
  split
  · next h =>
    dsimp only
    split
    · exact ⟨rfl, rfl, fun _ => .inr h.1⟩
    · exact ⟨rfl, rfl, fun _ => .inr h.1⟩
  · exact ⟨rfl, rfl, .inl⟩

theorem unsustainVoice_keeps (P : Params) (pt : Patch) (fs : Word) (piano : Bool) (v : Voice) :
    (unsustainVoice P pt fs piano v).key = v.key ∧ (unsustainVoice P pt fs piano v).state = v.state
      ∧ (unsustainVoice P pt fs piano v).sustained = false := by
  unfold unsustainVoice
  split
  · dsimp only
    split
    · exact ⟨rfl, rfl, rfl⟩
    · exact ⟨rfl, rfl, rfl⟩
  · next h => exact ⟨rfl, rfl, by simpa using h⟩

/-- The two sustain loops of R185, given as one fact about what `updateSustain` writes to each voice. -/
theorem Inv.updateSustain (h : Inv P s) (pt : Patch) : Inv P (updateSustain P pt s) := by
  unfold Machine.updateSustain
  dsimp only
  refine Inv.congr (s := if s.hostSustain then _ else if s.prevSustain then _ else s) ?_ rfl rfl rfl rfl rfl rfl rfl rfl
  split
  · refine forVoices_induct (Inv P) h (fun v t hv ht => ?_)
    have hk := sustainVoice_keeps P pt t.fs (s.mode == .poly && pt.pianoPedal) (t.voice v)
    refine ht.setVoice v hk.1 (fun e => ?_) (fun e => ?_) (fun e => ?_)
    · rw [hk.1] at e
      rw [hk.2.1]
      exact ht.pool.boundLive v hv e
    · rw [hk.2.1]
      rcases hk.2.2 e with e' | e'
      · exact ht.pool.sustainedPlaying v hv e'
      · exact e'
    · rw [hk.2.1] at e
      exact e
  split
  · refine forVoices_induct (Inv P) h (fun v t hv ht => ?_)
    have hk := unsustainVoice_keeps P pt t.fs (s.mode == .poly && pt.pianoPedal) (t.voice v)
    refine ht.setVoice v hk.1 (fun e => ?_) (fun e => ?_) (fun e => ?_)
    · rw [hk.1] at e
      rw [hk.2.1]
      exact ht.pool.boundLive v hv e
    · rw [hk.2.2] at e
      exact Bool.noConfusion e
    · rw [hk.2.1] at e
      exact e
  · exact h

/-! ### Pre-render -/

/-- After step 1 no voice is live (R191). -/
theorem forceSteal_pool (h : PoolInv P s) (changed : Bool) :
    PoolInv P (forceSteal P changed s)
      ∧ ∀ v, v < P.maxVoices → isLive ((forceSteal P changed s).voice v).state = false := by
  unfold forceSteal
  dsimp only
  have key := forVoices_induct_upto (P := P) (f := fun v t => if (t.voice v).state = .idle then t else Machine.stealVoice v t)
    (s := s) (fun n t => PoolInv P t ∧ ∀ v, v < n → isLive (t.voice v).state = false) ⟨h, by simp⟩ (by
      intro v t hv ht
      split
      · next e =>
        refine ⟨ht.1, fun u hu => ?_⟩
        rcases Nat.lt_succ_iff_lt_or_eq.mp hu with hu | hu
        · exact ht.2 u hu
        · rw [hu, e]; rfl
      · refine ⟨ht.1.stealVoice hv, fun u hu => ?_⟩
        unfold Machine.stealVoice
        dsimp only
        rw [voice_clearKey, voice_setVoice_any, ht.1.poolSize]
        split
        · rfl
        · next e => exact ht.2 u (by omega))
  exact ⟨key.1.congr rfl rfl, key.2⟩

/-- What a patch's POLYPHONY has to satisfy (20_memory.md R88, V1 and V7). -/
def PolyphonyLegal (P : Params) (pt : Patch) : Prop := 1 ≤ pt.polyphony ∧ pt.polyphony ≤ P.maxVoices

theorem latchMode_polyphony (h0 : 1 ≤ P.maxVoices) {pt : Patch} (hp : PolyphonyLegal P pt) :
    1 ≤ (latchMode pt s).curPoly ∧ (latchMode pt s).curPoly ≤ P.maxVoices := by
  show 1 ≤ (if pt.voiceMode = .mono then 1 else pt.polyphony) ∧ _
  dsimp only [latchMode]
  split
  · omega
  · exact hp

theorem Inv.forceSteal (h : Inv P s) (h0 : 1 ≤ P.maxVoices) {pt : Patch} (hp : PolyphonyLegal P pt) (changed : Bool) :
    Inv P (forceSteal P changed (latchMode pt s)) := by
  have hpool := forceSteal_pool (h.pool.congr (t := latchMode pt s) rfl rfl) changed
  have hcur : (Machine.forceSteal P changed (latchMode pt s)).curPoly = (latchMode pt s).curPoly := by
    have := PoolOnly.forVoices (P := P) (f := fun v t => if (t.voice v).state = .idle then t else Machine.stealVoice v t)
      (fun v t => by
        split
        · exact PoolOnly.refl t
        · exact PoolOnly.stealVoice v t) (latchMode pt s)
    unfold Machine.forceSteal
    dsimp only
    rw [this]
  exact {
    pool := hpool.1
    queues := QueueInv.empty rfl rfl rfl rfl
    polyphony := by rw [hcur]; exact latchMode_polyphony h0 hp
    pendingUnbound := fun r hr => absurd hr (List.not_mem_nil)
    monoMode := fun _ => ⟨rfl, fun v hv hl => by rw [hpool.2 v hv] at hl; exact Bool.noConfusion hl⟩
    polyMode := fun _ => ⟨rfl, rfl⟩ }

/-- What step 2 keeps: it releases Playing voices that are not sustained, and keeps some of the releases, in order. -/
theorem resolvePoly_induct (Q : State → Prop)
    (hrel : ∀ t v, Q t → (t.voice v).state = .playing → (t.voice v).sustained = false →
      Q (t.setVoice v (releaseVoice (t.voice v)))) :
    ∀ (rs rem : List ReleaseRequest) (s : State), Q s →
      ∃ t kept, resolvePoly rs rem s = { t with relQ := rem ++ kept } ∧ Q t ∧ kept.Sublist rs := by
  intro rs
  induction rs with
  | nil => exact fun rem s h => ⟨s, [], by simp [resolvePoly], h, List.Sublist.refl _⟩
  | cons r rs ih =>
    intro rem s h
    have skip : ∀ s, Q s →
        ∃ t kept, resolvePoly rs rem s = { t with relQ := rem ++ kept } ∧ Q t ∧ kept.Sublist (r :: rs) := by
      intro s h
      obtain ⟨t, kept, e, ht, hk⟩ := ih rem s h
      exact ⟨t, kept, e, ht, hk.cons r⟩
    unfold resolvePoly
    split
    · exact skip s h
    · next v hv =>
      split
      · obtain ⟨t, kept, e, ht, hk⟩ := ih (rem ++ [r]) s h
        exact ⟨t, r :: kept, by rw [e]; simp, ht, hk.cons_cons r⟩
      split
      · next hs hp => exact skip _ (hrel s v h hp (by simpa using hs))
      · exact skip s h

/-- The invariant with some of the queued releases gone. -/
theorem Inv.dropReleases (h : Inv P t) {kept : List ReleaseRequest} (hk : kept.Sublist s.relQ)
    (hq : DistinctKeys ReleaseRequest.key s.relQ) (hf : KeysFit ReleaseRequest.key s.relQ) :
    Inv P { t with relQ := kept } where
  pool := h.pool.congr rfl rfl
  queues := {
    polyDistinct := h.queues.polyDistinct
    relDistinct := List.Nodup.sublist (hk.map _) hq
    seqDistinct := h.queues.seqDistinct
    monoOne := h.queues.monoOne
    polyBounded := h.queues.polyBounded
    polyKeys := h.queues.polyKeys
    monoKeys := h.queues.monoKeys
    relKeys := fun e he => hf e (hk.subset he)
    seqKeys := h.queues.seqKeys }
  polyphony := h.polyphony
  pendingUnbound := h.pendingUnbound
  monoMode := h.monoMode
  polyMode := h.polyMode

theorem Inv.resolvePoly (h : Inv P s) : Inv P (resolvePoly s.relQ [] s) := by
  obtain ⟨t, kept, e, ht, hk⟩ := resolvePoly_induct (Inv P) (fun t v ht hp hs => ht.releaseVoice v hp hs) s.relQ [] s h
  rw [e, List.nil_append]
  exact ht.dropReleases hk h.queues.relDistinct h.queues.relKeys

theorem updateTargets_note (P : Params) (pt : Patch) (n k : Nat) (v : Voice) :
    SameNote v (updateTargets P pt n k v) := by
  constructor
  all_goals first | rfl | skip
  dsimp only [updateTargets]
  refine SameConfigs.mapOps (fun o q => ?_)
  constructor <;> rfl

theorem retargetVoice_note (P : Params) (pt : Patch) (n : Nat) (v : Voice) :
    SameNote v (retargetVoice P pt n v) := by
  unfold retargetVoice
  split
  · split
    · exact updateTargets_note P pt n _ v
    · exact SameNote.refl v
  · exact SameNote.refl v

/-- A voice that keeps its note keeps the invariant. -/
theorem Inv.setSameNote (h : Inv P s) {v : Nat} (hv : v < P.maxVoices) {x : Voice} (hn : SameNote (s.voice v) x) :
    Inv P (s.setVoice v x) :=
  h.setVoice v hn.key (fun e => by rw [hn.state]; exact h.pool.boundLive v hv (hn.key ▸ e))
    (fun e => by rw [hn.state]; exact h.pool.sustainedPlaying v hv (hn.sustained ▸ e))
    (fun e => hn.state ▸ e)

theorem Inv.retarget (h : Inv P s) (pt : Patch) (n : Nat) : Inv P (retarget P pt n s) :=
  forVoices_induct (Inv P) h (fun v t hv ht => ht.setSameNote hv (retargetVoice_note P pt n (t.voice v)))

theorem freeSlot_some {v : Nat} (h : freeSlot s = some v) : v < s.curPoly ∧ (s.voice v).state = .idle := by
  unfold freeSlot at h
  have h1 := List.mem_of_find?_eq_some h
  have h2 := List.find?_some h
  exact ⟨List.mem_range.mp h1, by simpa using h2⟩

theorem keyVoice_initializeVoice (pt : Patch) {v : Nat} {req : VoiceRequest} {k : Nat} (hk : k ≠ req.key)
    (hn : s.keyVoice k = none) : (initializeVoice P pt v req s).keyVoice k = none := by
  unfold initializeVoice
  dsimp only
  rw [keyVoice_setKey_ne _ _ hk, keyVoice_setVoice, keyVoice_clearKey, hn, ite_self]

/-- Step 4 in poly keeps the agreement of the pool and the map, and its kept requests stay unbound. -/
theorem allocatePoly_spec (pt : Patch) :
    ∀ (reqs keep : List VoiceRequest) (s : State), PoolInv P s → s.curPoly ≤ P.maxVoices →
      DistinctKeys VoiceRequest.key (keep ++ reqs) → KeysFit VoiceRequest.key reqs →
      (∀ r ∈ keep ++ reqs, s.keyVoice r.key = none) →
      ∃ t kept, allocatePoly P pt reqs keep s = { t with polyReq := keep ++ kept } ∧ PoolOnly s t ∧ PoolInv P t
        ∧ kept.Sublist reqs ∧ ∀ r ∈ keep ++ kept, t.keyVoice r.key = none := by
  intro reqs
  induction reqs with
  | nil =>
    intro keep s h _ _ _ hu
    exact ⟨s, [], by simp [allocatePoly], PoolOnly.refl s, h, List.Sublist.refl _, hu⟩
  | cons req reqs ih =>
    intro keep s h hcur hd hf hu
    unfold allocatePoly
    split
    · obtain ⟨t, kept, e, hpo, hp, hs, hk⟩ := ih (keep ++ [req]) s h hcur (by simpa using hd)
        (fun r hr => hf r (List.mem_cons_of_mem _ hr)) (by simpa using hu)
      exact ⟨t, req :: kept, by rw [e]; simp, hpo, hp, hs.cons_cons req, by simpa using hk⟩
    · next v hv =>
      have hslot := freeSlot_some hv
      have hreq := hf req List.mem_cons_self
      have hfree := hu req (by simp)
      have hpo := PoolOnly.initializeVoice P pt v req s
      have hd' : (keep.map VoiceRequest.key ++ reqs.map VoiceRequest.key).Nodup
          ∧ req.key ∉ keep.map VoiceRequest.key ++ reqs.map VoiceRequest.key := by
        unfold DistinctKeys at hd
        rw [List.map_append, List.map_cons] at hd
        have := List.nodup_middle.mp hd
        exact ⟨(List.nodup_cons.mp this).2, (List.nodup_cons.mp this).1⟩
      obtain ⟨t, kept, e, hpo', hp, hs, hk⟩ := ih keep (initializeVoice P pt v req s)
        (h.initializeVoice pt (Nat.lt_of_lt_of_le hslot.1 hcur) hreq (.inl hfree))
        (by rw [hpo]; exact hcur) (by unfold DistinctKeys; rw [List.map_append]; exact hd'.1)
        (fun r hr => hf r (List.mem_cons_of_mem _ hr))
        (fun r hr => keyVoice_initializeVoice pt (fun e => hd'.2 (by
            rw [← e, ← List.map_append]
            exact List.mem_map_of_mem hr)) (hu r (by
            rcases List.mem_append.mp hr with hr | hr
            · exact List.mem_append_left _ hr
            · exact List.mem_append_right _ (List.mem_cons_of_mem _ hr))))
      exact ⟨t, kept, e, hpo.trans hpo', hp, hs.cons req, hk⟩

theorem insertNewestFirst_perm (r : VoiceRequest) (q : List VoiceRequest) :
    (insertNewestFirst r q).Perm (r :: q) := by
  induction q with
  | nil => exact List.Perm.refl _
  | cons x q ih =>
    unfold insertNewestFirst
    split
    · exact List.Perm.refl _
    · exact (ih.cons x).trans (List.Perm.swap r x q)

theorem sortNewestFirst_perm (q : List VoiceRequest) : (sortNewestFirst q).Perm q := by
  induction q with
  | nil => exact List.Perm.refl _
  | cons r q ih => exact (insertNewestFirst_perm r _).trans (ih.cons r)

theorem Inv.allocatePoly (h : Inv P s) (pt : Patch) (hm : s.mode = .poly) :
    Inv P (allocatePoly P pt (sortNewestFirst s.polyReq) [] s) := by
  have hperm := sortNewestFirst_perm s.polyReq
  obtain ⟨t, kept, e, hpo, hp, hs, hk⟩ := allocatePoly_spec (P := P) pt (sortNewestFirst s.polyReq) [] s h.pool
    h.polyphony.2 ((hperm.map _).nodup_iff.mpr h.queues.polyDistinct)
    (fun r hr => h.queues.polyKeys r (hperm.subset hr)) (fun r hr => h.pendingUnbound r (hperm.subset hr))
  rw [e]
  rw [List.nil_append] at hk ⊢
  have ht : t.mode = .poly := by rw [hpo]; exact hm
  have hq : QueueInv P t := h.queues.congr (by rw [hpo]) (by rw [hpo]) (by rw [hpo]) (by rw [hpo])
  have hlen : kept.length ≤ s.polyReq.length := hperm.length_eq ▸ hs.length_le
  exact {
    pool := hp.congr rfl rfl
    queues := {
      polyDistinct := List.Nodup.sublist (hs.map _) ((hperm.map _).nodup_iff.mpr h.queues.polyDistinct)
      relDistinct := hq.relDistinct
      seqDistinct := hq.seqDistinct
      monoOne := hq.monoOne
      polyBounded := Nat.le_trans hlen h.queues.polyBounded
      polyKeys := fun r hr => h.queues.polyKeys r (hperm.subset (hs.subset hr))
      monoKeys := hq.monoKeys
      relKeys := hq.relKeys
      seqKeys := hq.seqKeys }
    polyphony := by
      show 1 ≤ t.curPoly ∧ t.curPoly ≤ P.maxVoices
      rw [hpo]
      exact h.polyphony
    pendingUnbound := hk
    monoMode := fun e' => absurd (ht.symm.trans e') (by decide)
    polyMode := fun _ => by
      show t.monoReq = [] ∧ t.monoSeq = []
      rw [hpo]
      exact h.polyMode hm }

/-- In Mono only voice 0 holds a key. -/
theorem Inv.mono_key (h : Inv P s) (hm : s.mode = .mono) (k : Nat) :
    s.keyVoice k = none ∨ s.keyVoice k = some 0 := by
  cases e : s.keyVoice k with
  | none => exact .inl rfl
  | some v =>
    have hv := h.pool.mapped k v e
    have hkey := (h.pool.bound v k hv).mpr e
    have := (h.monoMode hm).2 v hv (h.pool.boundLive v hv (by rw [hkey]; simp))
    rw [this]
    exact .inr rfl

theorem mono_live_initializeVoice (pt : Patch) {req : VoiceRequest}
    (hl : ∀ v, v < P.maxVoices → isLive (s.voice v).state = true → v = 0) :
    ∀ v, v < P.maxVoices → isLive ((initializeVoice P pt 0 req s).voice v).state = true → v = 0 := by
  intro v hv
  unfold initializeVoice
  dsimp only
  rw [voice_setKey, voice_setVoice_any, voice_clearKey]
  split
  · next e => exact fun _ => e.1
  · exact hl v hv

theorem Inv.initializeMonoVoice (h : Inv P s) (h2 : 2 ≤ P.maxVoices) (pt : Patch) (hm : s.mode = .mono)
    {req : VoiceRequest} (hk : req.key < 128) : Inv P (initializeMonoVoice P pt req s) := by
  have hpo := PoolOnly.initializeMonoVoice P pt req s
  have hempty := (h.monoMode hm).1
  have h0 : 0 < P.maxVoices := by omega
  refine h.of_pool hpo ?_ (fun r hr => by rw [hempty] at hr; exact absurd hr List.not_mem_nil) (fun _ => ?_)
  · unfold Machine.initializeMonoVoice
    split
    · have hl1 : isLive (s.voice 1).state = false := by
        by_contra hl
        exact absurd ((h.monoMode hm).2 1 (by omega) (by simpa using hl)) (by decide)
      have ht : PoolInv P (copyTail s) := h.pool.setVoice 1 (h.pool.key_none (by omega) hl1).symm
        (fun e => absurd rfl e) (fun e => Bool.noConfusion e)
      exact ht.initializeVoice pt h0 hk (h.mono_key hm req.key)
    · next e => exact h.pool.legato pt h0 hk e (h.mono_key hm req.key)
    · exact h.pool.initializeVoice pt h0 hk (h.mono_key hm req.key)
    · exact h.pool.initializeVoice pt h0 hk (h.mono_key hm req.key)
  · have hl := (h.monoMode hm).2
    unfold Machine.initializeMonoVoice
    split
    · refine mono_live_initializeVoice pt (fun v hv => ?_)
      unfold copyTail
      rw [voice_setVoice_any]
      split
      · intro e; simp [unbound, isLive] at e
      · exact hl v hv
    · intro v hv
      unfold Machine.legato
      dsimp only
      rw [voice_setKey, voice_setVoice_any]
      split
      · next e => exact fun _ => e.1
      · rw [voice_clearKey]
        exact hl v hv
    · exact mono_live_initializeVoice pt hl
    · exact mono_live_initializeVoice pt hl

/-- What step 4's release loop in mono keeps. -/
theorem resolveMono_induct (Q : State → Prop)
    (hrel : ∀ t, Q t → (t.voice 0).state = .playing → (t.voice 0).sustained = false →
      Q (t.setVoice 0 (releaseVoice (t.voice 0)))) :
    ∀ (rs rem : List ReleaseRequest) (s : State), Q s →
      ∃ t kept, resolveMono rs rem s = { t with relQ := rem ++ kept } ∧ Q t ∧ kept.Sublist rs := by
  intro rs
  induction rs with
  | nil => exact fun rem s h => ⟨s, [], by simp [resolveMono], h, List.Sublist.refl _⟩
  | cons r rs ih =>
    intro rem s h
    have skip : ∀ s, Q s →
        ∃ t kept, resolveMono rs rem s = { t with relQ := rem ++ kept } ∧ Q t ∧ kept.Sublist (r :: rs) := by
      intro s h
      obtain ⟨t, kept, e, ht, hk⟩ := ih rem s h
      exact ⟨t, kept, e, ht, hk.cons r⟩
    unfold resolveMono
    split
    · split
      · obtain ⟨t, kept, e, ht, hk⟩ := ih (rem ++ [r]) s h
        exact ⟨t, r :: kept, by rw [e]; simp, ht, hk.cons_cons r⟩
      split
      · next hs hp => exact skip _ (hrel s h hp (by simpa using hs))
      · exact skip s h
    · exact skip s h

theorem Inv.allocateMono (h : Inv P s) (h2 : 2 ≤ P.maxVoices) (pt : Patch) (hm : s.mode = .mono) :
    Inv P (allocateMono P pt s) := by
  unfold Machine.allocateMono
  split
  · obtain ⟨t, kept, e, ht, hk⟩ := resolveMono_induct (Inv P) (fun t ht hp hs => ht.releaseVoice 0 hp hs) s.relQ [] s h
    rw [e, List.nil_append]
    exact ht.dropReleases hk h.queues.relDistinct h.queues.relKeys
  · next req rest e =>
    have hk : req.key < 128 := h.queues.monoKeys req (by rw [e]; exact List.mem_cons_self)
    refine Inv.initializeMonoVoice (s := { s with monoReq := [], relQ := [] }) ?_ h2 pt hm hk
    exact {
      pool := h.pool.congr rfl rfl
      queues := {
        polyDistinct := h.queues.polyDistinct
        relDistinct := List.nodup_nil
        seqDistinct := h.queues.seqDistinct
        monoOne := Nat.zero_le _
        polyBounded := h.queues.polyBounded
        polyKeys := h.queues.polyKeys
        monoKeys := fun r hr => absurd hr List.not_mem_nil
        relKeys := fun r hr => absurd hr List.not_mem_nil
        seqKeys := h.queues.seqKeys }
      polyphony := h.polyphony
      pendingUnbound := h.pendingUnbound
      monoMode := h.monoMode
      polyMode := fun e' => absurd (hm.symm.trans e') (by decide) }

/-- The mode after steps 2 and 3. -/
theorem retarget_mode (pt : Patch) (n : Nat) (s : State) : (retarget P pt n s).mode = s.mode := by
  have := PoolOnly.forVoices (P := P) (f := fun v t => t.setVoice v (retargetVoice P pt n (t.voice v)))
    (fun v t => PoolOnly.setVoice t v _) s
  unfold retarget
  rw [this]

theorem resolvePoly_mode (s : State) : (resolvePoly s.relQ [] s).mode = s.mode := by
  obtain ⟨t, kept, e, ht, -⟩ := resolvePoly_induct (fun t => t.mode = s.mode) (fun t v ht _ _ => ht) s.relQ [] s rfl
  rw [e]
  exact ht

theorem Inv.preRender (h : Inv P s) (h2 : 2 ≤ P.maxVoices) {pt : Patch} (hp : PolyphonyLegal P pt) (n : Nat) :
    Inv P (preRender P pt n s) := by
  unfold Machine.preRender
  dsimp only
  split
  · exact h.forceSteal (by omega) hp _
  · next hc =>
    have hmode : pt.voiceMode = s.mode := by
      by_contra hne
      simp [hne] at hc
    have hl : Inv P (latchMode pt s) := {
      pool := h.pool.congr rfl rfl
      queues := h.queues.congr rfl rfl rfl rfl
      polyphony := latchMode_polyphony (by omega) hp
      pendingUnbound := h.pendingUnbound
      monoMode := fun e => h.monoMode (hmode.symm.trans e)
      polyMode := fun e => h.polyMode (hmode.symm.trans e) }
    unfold preRenderVoices
    split
    · next e =>
      exact (hl.resolvePoly.retarget pt n).allocatePoly pt (by rw [retarget_mode, resolvePoly_mode, e])
    · next e => exact (hl.retarget pt n).allocateMono h2 pt (by rw [retarget_mode, e])

/-! ### Samples and post-render -/

theorem Inv.rendered (h : Inv P s) (hr : Rendered s t) : Inv P t where
  pool := {
    poolSize := hr.pool.trans h.pool.poolSize
    keymapSize := by rw [hr.frame]; exact h.pool.keymapSize
    bound := fun v k hv => by
      have e : t.keyVoice k = s.keyVoice k := by rw [hr.frame]; rfl
      rw [(hr.notes v).key, e]
      exact h.pool.bound v k hv
    mapped := fun k v e => by
      have e' : t.keyVoice k = s.keyVoice k := by rw [hr.frame]; rfl
      exact h.pool.mapped k v (e' ▸ e)
    boundLive := fun v hv e => by
      rw [(hr.notes v).state]
      exact h.pool.boundLive v hv ((hr.notes v).key ▸ e)
    sustainedPlaying := fun v hv e => by
      rw [(hr.notes v).state]
      exact h.pool.sustainedPlaying v hv ((hr.notes v).sustained ▸ e) }
  queues := h.queues.congr (by rw [hr.frame]) (by rw [hr.frame]) (by rw [hr.frame]) (by rw [hr.frame])
  polyphony := by rw [hr.frame]; exact h.polyphony
  pendingUnbound := by rw [hr.frame]; exact h.pendingUnbound
  monoMode := fun e => by
    have e1 : t.mode = s.mode := by rw [hr.frame]
    have e2 : t.polyReq = s.polyReq := by rw [hr.frame]
    rw [e1] at e
    rw [e2]
    exact ⟨(h.monoMode e).1, fun v hv hl => (h.monoMode e).2 v hv ((hr.notes v).state ▸ hl)⟩
  polyMode := fun e => by
    rw [hr.frame] at e ⊢
    exact h.polyMode e

theorem Inv.freePass (h : Inv P s) : Inv P (freePass P s) :=
  forVoices_induct (Inv P) h (fun v t hv ht => by
    unfold freeIfDone
    dsimp only
    split
    · split
      · exact (ht.freeVoice hv).fullReset hv
      · exact ht.freeVoice hv
    · exact ht)

theorem stealScan_mem (vs : List Nat) (best : Option Nat) (score : F32) {v : Nat}
    (h : stealScan P s vs best score = some v) : v ∈ vs ∨ best = some v := by
  induction vs generalizing best score with
  | nil => exact .inr h
  | cons u vs ih =>
    unfold stealScan at h
    dsimp only at h
    split at h
    · rcases ih _ _ h with h | h
      · exact .inl (List.mem_cons_of_mem _ h)
      · exact .inl (Option.some.inj h ▸ List.mem_cons_self)
    · rcases ih _ _ h with h | h
      · exact .inl (List.mem_cons_of_mem _ h)
      · exact .inr h

theorem stealCandidate_lt {v : Nat} (h : stealCandidate P s = some v) : v < s.curPoly := by
  rcases stealScan_mem _ _ _ h with h | h
  · exact List.mem_range.mp h
  · exact absurd h (by simp)

/-- What every theft keeps, the whole of StealPass keeps. -/
theorem stealTimes_induct (Q : State → Prop) (hs : ∀ t v, Q t → stealCandidate P t = some v → Q (Machine.stealVoice v t)) :
    ∀ (n : Nat) (s : State), Q s → Q (stealTimes P n s) := by
  intro n
  induction n with
  | zero => exact fun s h => h
  | succ n ih =>
    intro s h
    unfold stealTimes
    split
    · exact h
    · next v e => exact ih _ (hs s v h e)

theorem Inv.stealPass (h : Inv P s) : Inv P (stealPass P s) :=
  stealTimes_induct (Inv P)
    (fun _ _ ht e => ht.stealVoice (Nat.lt_of_lt_of_le (stealCandidate_lt e) ht.polyphony.2)) _ s h

theorem Inv.postRender (h : Inv P s) : Inv P (postRender P s) := by
  unfold Machine.postRender
  dsimp only
  have ht : Inv P { Machine.freePass P s with switchPending := false } := h.freePass.congr rfl rfl rfl rfl rfl rfl rfl rfl
  split
  · exact ht.stealPass
  · exact ht

theorem Inv.endResponse (h : Inv P s) (owes : Bool) : Inv P (endResponse owes s) := by
  cases owes
  · exact h
  · exact h.congr rfl rfl rfl rfl rfl rfl rfl rfl

theorem Inv.raise (h : Inv P s) (code : FaultCode) (owes : Bool) : Inv P (raise code owes s) :=
  Inv.endResponse (s := { s with fault := if s.fault = .clear then code else s.fault })
    (h.congr rfl rfl rfl rfl rfl rfl rfl rfl) owes

theorem Inv.renderSequence (h : Inv P s) (h2 : 2 ≤ P.maxVoices) {pt : Patch} (hp : PolyphonyLegal P pt) (n : Nat)
    (b m a : F32) : Inv P (renderSequence P pt n b m a s) := by
  have hb : Inv P (beforeSamples P pt n b m a s) :=
    ((h.setGlobalTargets pt n b m a).updateSustain pt).preRender h2 hp n
  unfold Machine.renderSequence
  rcases renderSamples_spec P pt n (List.range n) (beforeSamples P pt n b m a s) with
    ⟨t, fs, e, hr, -⟩ | ⟨t, fs, e, hr, -⟩
  · rw [e]
    exact (hb.rendered hr).raise _ _
  · rw [e]
    exact (hb.rendered hr).postRender

end Sys2Proof.Machine
end

