-- ==== Sys2Proof/Laws/Commands.lean ====
section
/-! SUPPORT. The note commands (40_host_commands.md R141 to R144): what they write, and that they keep the
lifecycle invariant. -/

namespace Sys2Proof.Machine

variable {P : Params}

theorem hasKey_false {α} (key : α → Nat) (k : Nat) (q : List α) (h : ∀ r ∈ q, key r ≠ k) : hasKey key k q = false := by
  rw [← Bool.not_eq_true, hasKey_iff]
  intro hm
  obtain ⟨r, hr, e⟩ := List.mem_map.mp hm
  exact h r hr e

theorem hasKey_true {α} (key : α → Nat) (k : Nat) (q : List α) (h : ∃ r ∈ q, key r = k) : hasKey key k q = true := by
  rw [hasKey_iff]
  obtain ⟨r, hr, e⟩ := h
  exact List.mem_map.mpr ⟨r, hr, e⟩

theorem removeKey_not_mem {α} (key : α → Nat) (k : Nat) (q : List α) : k ∉ (removeKey key k q).map key := by
  rw [removeKey_keys]; simp

theorem removeKey_sublist {α} (key : α → Nat) (k : Nat) (q : List α) : (removeKey key k q).Sublist q := List.filter_sublist

/-- What NOTE_ON writes at most (40_host_commands.md R141, R142). -/
theorem noteOn_frame (k : Nat) (f v : F32) (ts : Word) (s : State) :
    noteOn k f v ts s = { s with fault := (noteOn k f v ts s).fault, voices := (noteOn k f v ts s).voices
                                 keymap := (noteOn k f v ts s).keymap, polyReq := (noteOn k f v ts s).polyReq
                                 monoReq := (noteOn k f v ts s).monoReq, monoSeq := (noteOn k f v ts s).monoSeq } := by
  unfold noteOn
  dsimp only
  split
  · rfl
  split
  · rfl
  split
  · unfold noteOnMono; split <;> rfl
  · unfold noteOnPoly
    split
    · rfl
    · dsimp only
      split
      · rfl
      · next v e => rw [PoolOnly.releaseAndUnbind v s]

/-- What NOTE_OFF writes at most (R143, R144). -/
theorem noteOff_frame (k : Nat) (ts : Word) (s : State) :
    noteOff P k ts s
      = { s with polyReq := (noteOff P k ts s).polyReq, monoReq := (noteOff P k ts s).monoReq
                 relQ := (noteOff P k ts s).relQ, monoSeq := (noteOff P k ts s).monoSeq } := by
  unfold noteOff
  dsimp only
  have hm : ∀ t : State, monoReleaseRetrigger P k ts t
      = { t with monoReq := (monoReleaseRetrigger P k ts t).monoReq, monoSeq := (monoReleaseRetrigger P k ts t).monoSeq } := by
    intro t
    unfold monoReleaseRetrigger
    dsimp only
    split
    · split
      · unfold noteOnMono
        split <;> rfl
      · rfl
    · rfl
  cases s.mode
  · dsimp only
    split <;> rfl
  · dsimp only
    split
    · rw [hm]
    · rw [hm]

/-- NoteOnMono keeps the lifecycle invariant (R142). -/
theorem Inv.noteOnMono {s : State} (h : Inv P s) (hm : s.mode = .mono) {k : Nat} (hk : k < 128) (f v : F32) (ts : Word) (re : Bool) :
    Inv P (noteOnMono k f v ts re s) := by
  unfold Machine.noteOnMono
  split
  · exact h
  · have hq : (if s.monoReq.length = 1 then s.monoReq.drop 1 else s.monoReq) = [] := by
      have := h.queues.monoOne
      match hq : s.monoReq, this with
      | [], _ => simp
      | [r], _ => simp
    rw [hq]
    exact {
      pool := h.pool.congr rfl rfl
      queues := {
        polyDistinct := h.queues.polyDistinct
        relDistinct := h.queues.relDistinct
        seqDistinct := by
          dsimp only
          split
          · exact h.queues.seqDistinct
          · exact List.nodup_cons.mpr ⟨removeKey_not_mem _ _ _, List.Nodup.sublist ((removeKey_sublist _ _ _).map _) h.queues.seqDistinct⟩
        monoOne := by simp
        polyBounded := h.queues.polyBounded
        polyKeys := h.queues.polyKeys
        monoKeys := by intro e he; simp at he; rw [he]; exact hk
        relKeys := h.queues.relKeys
        seqKeys := by
          dsimp only
          split
          · exact h.queues.seqKeys
          · intro e he
            rcases List.mem_cons.mp he with rfl | he
            · exact hk
            · exact h.queues.seqKeys e ((removeKey_sublist _ _ _).subset he) }
      polyphony := h.polyphony
      pendingUnbound := h.pendingUnbound
      monoMode := h.monoMode
      polyMode := fun e => absurd (hm.symm.trans e) (by decide) }

/-- The polyphonic NOTE_ON keeps it (R141). -/
theorem Inv.noteOnPoly {s : State} (h : Inv P s) (hm : s.mode = .poly) {k : Nat} (hk : k < 128) (f v : F32) (ts : Word) :
    Inv P (noteOnPoly k f v ts s) := by
  unfold Machine.noteOnPoly
  split
  · exact h
  · next hh =>
    have hnk : k ∉ s.polyReq.map VoiceRequest.key := by rwa [← hasKey_iff]
    have key : ∀ t : State, Inv P t → t.polyReq = s.polyReq → t.curPoly = s.curPoly → t.keyVoice k = none → t.mode = .poly →
        Inv P { t with polyReq := popWhileFull t.curPoly t.polyReq ++ [⟨k, f, v, ts, false⟩] } := by
      intro t ht hp hc hkv htm
      have hsub := popWhileFull_sublist t.curPoly t.polyReq
      exact {
        pool := ht.pool.congr rfl rfl
        queues := {
          polyDistinct := by
            unfold DistinctKeys
            rw [List.map_append]
            refine List.nodup_append.mpr ⟨List.Nodup.sublist (hsub.map _) ht.queues.polyDistinct, by simp, ?_⟩
            intro a ha b hb e
            simp at hb
            subst hb; subst e
            rw [hp] at hsub ha
            exact hnk ((hsub.map VoiceRequest.key).subset ha)
          relDistinct := ht.queues.relDistinct
          seqDistinct := ht.queues.seqDistinct
          monoOne := ht.queues.monoOne
          polyBounded := by
            have := popWhileFull_length_lt t.curPoly t.polyReq ht.polyphony.1
            have := ht.polyphony.2
            simp; omega
          polyKeys := by
            intro e he
            rcases List.mem_append.mp he with he | he
            · exact ht.queues.polyKeys e (hsub.subset he)
            · simp at he; rw [he]; exact hk
          monoKeys := ht.queues.monoKeys
          relKeys := ht.queues.relKeys
          seqKeys := ht.queues.seqKeys }
        polyphony := ht.polyphony
        pendingUnbound := by
          intro r hr
          rcases List.mem_append.mp hr with hr | hr
          · exact ht.pendingUnbound r (hsub.subset hr)
          · simp at hr; rw [hr]; exact hkv
        monoMode := fun e => absurd (htm.symm.trans e) (by decide)
        polyMode := ht.polyMode }
    dsimp only
    cases hkv : s.keyVoice k with
    | none => exact key s h rfl rfl hkv hm
    | some u =>
      dsimp only
      have hu := h.pool.mapped k u hkv
      have hpo := PoolOnly.releaseAndUnbind u s
      refine key _ (h.releaseAndUnbind hu) (by rw [hpo]) (by rw [hpo]) ?_ (by rw [hpo]; exact hm)
      unfold Machine.releaseAndUnbind
      dsimp only
      rw [keyVoice_clearKey, if_pos ((h.pool.bound u k hu).mpr hkv)]

/-- NOTE_ON keeps it, where its key is a key. -/
theorem Inv.noteOn {s : State} (h : Inv P s) {k : Nat} (hk : k < 128) (f v : F32) (ts : Word) : Inv P (noteOn k f v ts s) := by
  unfold Machine.noteOn
  dsimp only
  split; · exact h.raise _ _
  split; · exact h.raise _ _
  split
  · next hm => exact Inv.noteOnMono h hm hk _ _ _ _
  · next hm => exact Inv.noteOnPoly h hm hk _ _ _

/-- NOTE_OFF keeps it (R143, R144). -/
theorem Inv.noteOff {s : State} (h : Inv P s) {k : Nat} (hk : k < 128) (ts : Word) : Inv P (noteOff P k ts s) := by
  have h1 : Inv P { s with polyReq := removeKey VoiceRequest.key k s.polyReq, monoReq := removeKey VoiceRequest.key k s.monoReq } := {
    pool := h.pool.congr rfl rfl
    queues := {
      polyDistinct := List.Nodup.sublist ((removeKey_sublist _ _ _).map _) h.queues.polyDistinct
      relDistinct := h.queues.relDistinct
      seqDistinct := h.queues.seqDistinct
      monoOne := Nat.le_trans (removeKey_sublist _ _ _).length_le h.queues.monoOne
      polyBounded := Nat.le_trans (removeKey_sublist _ _ _).length_le h.queues.polyBounded
      polyKeys := fun e he => h.queues.polyKeys e ((removeKey_sublist _ _ _).subset he)
      monoKeys := fun e he => h.queues.monoKeys e ((removeKey_sublist _ _ _).subset he)
      relKeys := h.queues.relKeys
      seqKeys := h.queues.seqKeys }
    polyphony := h.polyphony
    pendingUnbound := fun r hr => h.pendingUnbound r ((removeKey_sublist _ _ _).subset hr)
    monoMode := fun e => ⟨by dsimp only; rw [(h.monoMode e).1]; rfl, (h.monoMode e).2⟩
    polyMode := fun e => ⟨by dsimp only; rw [(h.polyMode e).1]; rfl, (h.polyMode e).2⟩ }
  have fin : ∀ t : State, Inv P t → t.relQ = s.relQ →
      Inv P (if hasKey ReleaseRequest.key k s.relQ = true then t else { t with relQ := t.relQ ++ [⟨k, ts⟩] }) := by
    intro t ht hr
    split
    · exact ht
    · next hn =>
      rw [hasKey_iff] at hn
      exact {
        pool := ht.pool.congr rfl rfl
        queues := {
          polyDistinct := ht.queues.polyDistinct
          relDistinct := by
            unfold DistinctKeys
            rw [List.map_append]
            refine List.nodup_append.mpr ⟨ht.queues.relDistinct, by simp, ?_⟩
            intro a ha b hb e
            simp at hb
            subst hb; subst e
            rw [hr] at ha
            exact hn ha
          seqDistinct := ht.queues.seqDistinct
          monoOne := ht.queues.monoOne
          polyBounded := ht.queues.polyBounded
          polyKeys := ht.queues.polyKeys
          monoKeys := ht.queues.monoKeys
          relKeys := by
            intro e he
            rcases List.mem_append.mp he with he | he
            · exact ht.queues.relKeys e he
            · simp at he; rw [he]; exact hk
          seqKeys := ht.queues.seqKeys }
        polyphony := ht.polyphony
        pendingUnbound := ht.pendingUnbound
        monoMode := ht.monoMode
        polyMode := ht.polyMode }
  have e : Machine.noteOff P k ts s = (let T := match s.mode with
      | .mono => monoReleaseRetrigger P k ts { s with polyReq := removeKey VoiceRequest.key k s.polyReq, monoReq := removeKey VoiceRequest.key k s.monoReq }
      | .poly => { s with polyReq := removeKey VoiceRequest.key k s.polyReq, monoReq := removeKey VoiceRequest.key k s.monoReq }
      if hasKey ReleaseRequest.key k s.relQ = true then T else { T with relQ := T.relQ ++ [⟨k, ts⟩] }) := rfl
  rw [e]
  dsimp only
  have hT : Inv P (match s.mode with
      | .mono => monoReleaseRetrigger P k ts { s with polyReq := removeKey VoiceRequest.key k s.polyReq, monoReq := removeKey VoiceRequest.key k s.monoReq }
      | .poly => { s with polyReq := removeKey VoiceRequest.key k s.polyReq, monoReq := removeKey VoiceRequest.key k s.monoReq })
      ∧ (match s.mode with
      | .mono => monoReleaseRetrigger P k ts { s with polyReq := removeKey VoiceRequest.key k s.polyReq, monoReq := removeKey VoiceRequest.key k s.monoReq }
      | .poly => { s with polyReq := removeKey VoiceRequest.key k s.polyReq, monoReq := removeKey VoiceRequest.key k s.monoReq }).relQ = s.relQ := by
    cases hm : s.mode with
    | poly => dsimp only; rw [← hm]; exact ⟨h1, rfl⟩
    | mono =>
      dsimp only
      rw [← hm]
      have h2 : Inv P { s with polyReq := removeKey VoiceRequest.key k s.polyReq, monoReq := removeKey VoiceRequest.key k s.monoReq, monoSeq := removeKey SeqEntry.key k s.monoSeq } := {
        pool := h1.pool.congr rfl rfl
        queues := { h1.queues with
          seqDistinct := List.Nodup.sublist ((removeKey_sublist _ _ _).map _) h.queues.seqDistinct
          seqKeys := fun e he => h.queues.seqKeys e ((removeKey_sublist _ _ _).subset he) }
        polyphony := h.polyphony
        pendingUnbound := h1.pendingUnbound
        monoMode := h1.monoMode
        polyMode := fun e => absurd (hm.symm.trans e) (by decide) }
      constructor
      · unfold monoReleaseRetrigger
        dsimp only
        split
        · next e es hA hB =>
          split
          · exact Inv.noteOnMono h2 hm (h2.queues.seqKeys e (by dsimp only; rw [hB]; exact List.mem_cons_self)) _ _ _ _
          · exact h2
        · exact h2
      · unfold monoReleaseRetrigger
        dsimp only
        split
        · split
          · unfold Machine.noteOnMono; split <;> rfl
          · rfl
        · rfl
  exact fin _ hT.1 hT.2

end Sys2Proof.Machine
end

