-- ==== Sys2Proof/Laws/Decode.lean ====
section
/-! SUPPORT. The decoder in terms of its header checks (30_encoding.md R101 to R115). -/

namespace Sys2Proof

/-- An opcode has eight bits. -/
theorem opcOf_lt (w : Word) : opcOf w < 256 := by unfold opcOf; have := w.isLt; omega

/-- A legal header is some command's. -/
theorem assemble_known {w : Word} (h : headerIllegal w = none) (w1 w2 w3 : Word) :
    ∃ i, assemble w w1 w2 w3 = some i := by
  unfold headerIllegal opcodeKnown at h
  by_cases ho : 1 ≤ opcOf w ∧ opcOf w ≤ 0x0A
  · have hcases : opcOf w = 1 ∨ opcOf w = 2 ∨ opcOf w = 3 ∨ opcOf w = 4 ∨ opcOf w = 5 ∨ opcOf w = 6 ∨ opcOf w = 7
      ∨ opcOf w = 8 ∨ opcOf w = 9 ∨ opcOf w = 10 := by omega
    unfold assemble
    rcases hcases with h | h | h | h | h | h | h | h | h | h <;> rw [h] <;> exact ⟨_, rfl⟩
  · simp [ho] at h

/-- What a complete packet decodes to, by its header alone (30_encoding.md R114, R115). -/
theorem decode_cons (w : Word) (rest : List Word) (h : packetWords (opcOf w) ≤ rest.length + 1) :
    (∃ why, headerIllegal w = some why ∧ decode (w :: rest) = .illegal w why (rest.drop (packetWords (opcOf w) - 1)))
    ∨ (headerIllegal w = none ∧ ∃ i, assemble w (rest.getD 0 0) (rest.getD 1 0) (rest.getD 2 0) = some i
        ∧ decode (w :: rest) = .command i (rest.drop (packetWords (opcOf w) - 1))) := by
  cases hh : headerIllegal w with
  | some why =>
    left
    refine ⟨why, rfl, ?_⟩
    unfold decode
    dsimp only
    rw [if_neg (by omega), hh]
  | none =>
    right
    obtain ⟨i, hi⟩ := assemble_known hh (rest.getD 0 0) (rest.getD 1 0) (rest.getD 2 0)
    refine ⟨rfl, i, hi, ?_⟩
    unfold decode
    dsimp only
    rw [if_neg (by omega), hh, hi]

/-- A header written from fields that fit, as a number. -/
theorem headerWord_toNat {o k m : Nat} (ho : o < 256) (hk : k < 128) (hm : m < 65536) :
    (headerWord o k m).toNat = o * 2^24 + k * 2^16 + m := by
  unfold headerWord
  rw [BitVec.toNat_ofNat]
  omega

/-- Such a header reads its fields back. -/
theorem header_fields {o k m : Nat} (ho : o < 256) (hk : k < 128) (hm : m < 65536) :
    opcOf (headerWord o k m) = o ∧ keyOf (headerWord o k m) = k ∧ imm16Of (headerWord o k m) = m
    ∧ reservedBitOf (headerWord o k m) = 0 := by
  unfold opcOf keyOf imm16Of reservedBitOf
  rw [headerWord_toNat ho hk hm]
  omega

end Sys2Proof
end

