-- ==== Sys2Proof/Laws/Float.lean ====
section
/-! SUPPORT. The numeric contract (00_scope.md R10): the order of the patterns, the size and the exactness of one
rounding, x / x, the exact difference and the exact floor. -/

namespace Sys2Proof.Machine

/-! ### The order -/

theorem flt_iff (a b : F32) : flt a b = true ↔ isNaN a = false ∧ isNaN b = false ∧ fKey a < fKey b := by
  simp [flt, and_assoc]

theorem fle_iff (a b : F32) : fle a b = true ↔ isNaN a = false ∧ isNaN b = false ∧ fKey a ≤ fKey b := by
  simp [fle, and_assoc]

theorem flt_trans {a b c : F32} (h : flt a b = true) (h' : flt b c = true) : flt a c = true := by
  rw [flt_iff] at *
  exact ⟨h.1, h'.2.1, by omega⟩

theorem flt_irrefl (a : F32) : flt a a = false := by simp [flt]

/-- Of two numbers, one is below the other or not above it. -/
theorem flt_of_not_flt {a b c : F32} (hab : flt a b = true) (hc : isNaN c = false) (h : flt c b = false) :
    flt a c = true := by
  rw [flt_iff] at hab ⊢
  have : ¬ (isNaN c = false ∧ isNaN b = false ∧ fKey c < fKey b) := by rw [← flt_iff, h]; simp
  refine ⟨hab.1, hc, ?_⟩
  by_contra hlt
  exact this ⟨hc, hab.2.1, by omega⟩

/-! ### Patterns -/

theorem fPack_toNat (neg : Bool) {bits : Nat} (h : bits < 2 ^ 31) :
    (fPack neg bits).toNat = (if neg then 2 ^ 31 else 0) + bits := by
  unfold fPack
  rw [BitVec.toNat_ofNat]
  cases neg <;> (simp; omega)

theorem fNeg_fPack (neg : Bool) {bits : Nat} (h : bits < 2 ^ 31) : fNeg (fPack neg bits) = neg := by
  unfold fNeg
  rw [fPack_toNat neg h]
  cases neg with
  | false => simp; omega
  | true => simp

theorem fExp_fPack (neg : Bool) {bits : Nat} (h : bits < 2 ^ 31) : fExp (fPack neg bits) = bits / 2 ^ 23 := by
  unfold fExp
  rw [fPack_toNat neg h]
  cases neg <;> (simp; omega)

theorem fFrac_fPack (neg : Bool) {bits : Nat} (h : bits < 2 ^ 31) : fFrac (fPack neg bits) = bits % 2 ^ 23 := by
  unfold fFrac
  rw [fPack_toNat neg h]
  cases neg with
  | false => simp
  | true => simp; omega

theorem isFinite_not_isNaN {x : F32} (h : isFinite x = true) : isNaN x = false := by
  simp only [isFinite, isNaN, bne_iff_ne, ne_eq, Bool.and_eq_false_iff, beq_eq_false_iff_ne] at *
  exact .inl h

theorem isFinite_not_isInf {x : F32} (h : isFinite x = true) : isInf x = false := by
  simp only [isFinite, isInf, bne_iff_ne, ne_eq, Bool.and_eq_false_iff, beq_eq_false_iff_ne] at *
  exact .inl h

/-! ### One rounding -/

/-- A number of 24 places above the cut rounds to 24 places, or to the next power of two. -/
theorem roundShift_bounds {n sh : Nat} (hl : 2 ^ (sh + 23) ≤ n) (hu : n < 2 ^ (sh + 24)) :
    2 ^ 23 ≤ roundShift n sh ∧ roundShift n sh ≤ 2 ^ 24 := by
  have hp : 0 < 2 ^ sh := Nat.two_pow_pos sh
  have h1 : 2 ^ 23 ≤ n / 2 ^ sh := by
    rw [Nat.le_div_iff_mul_le hp, ← Nat.pow_add, Nat.add_comm]
    exact hl
  have h2 : n / 2 ^ sh < 2 ^ 24 := by
    rw [Nat.div_lt_iff_lt_mul hp, ← Nat.pow_add, Nat.add_comm]
    exact hu
  unfold roundShift
  dsimp only
  split <;> omega

/-- Nothing is lost below the cut where nothing stands there. -/
theorem roundShift_exact (q sh : Nat) : roundShift (q * 2 ^ sh) sh = q := by
  have hp : 0 < 2 ^ sh := Nat.two_pow_pos sh
  unfold roundShift
  dsimp only
  rw [Nat.mul_mod_left, Nat.mul_div_cancel _ hp]
  split
  · next h => omega
  · rfl

/-- The place of the leading bit, for a number of more than 23 places. -/
theorem log2_places {n : Nat} (h : 2 ^ 23 ≤ n) :
    2 ^ (Nat.log2 n - 23 + 23) ≤ n ∧ n < 2 ^ (Nat.log2 n - 23 + 24) := by
  have h0 : n ≠ 0 := by omega
  have h23 : 23 ≤ Nat.log2 n := (Nat.le_log2 h0).mpr h
  have e1 : Nat.log2 n - 23 + 23 = Nat.log2 n := by omega
  have e2 : Nat.log2 n - 23 + 24 = Nat.log2 n + 1 := by omega
  rw [e1, e2]
  exact ⟨Nat.log2_self_le h0, Nat.lt_log2_self⟩

/-- Rounding a magnitude of whole units that stays below infinity: the pattern's bits. -/
theorem roundMag_bits (neg : Bool) {n : Nat} (hl : 2 ^ 23 ≤ n)
    (hu : (Nat.log2 n - 23) * 2 ^ 23 + roundShift n (Nat.log2 n - 23) < 0x7F800000) :
    roundMag neg n 0 = fPack neg ((Nat.log2 n - 23) * 2 ^ 23 + roundShift n (Nat.log2 n - 23))
      ∧ 2 ^ 23 ≤ (Nat.log2 n - 23) * 2 ^ 23 + roundShift n (Nat.log2 n - 23) := by
  have hb := log2_places hl
  have hr := roundShift_bounds hb.1 hb.2
  refine ⟨?_, by omega⟩
  unfold roundMag
  have hs : max 0 (Nat.log2 n - 23) = Nat.log2 n - 23 := by omega
  simp only [hs, Nat.sub_zero]
  rw [if_neg (by omega), if_neg (by omega)]

theorem fPack_finite (neg : Bool) {bits : Nat} (h1 : 2 ^ 23 ≤ bits) (h2 : bits < 0x7F800000) :
    isFinite (fPack neg bits) = true ∧ fMag (fPack neg bits) ≠ 0 ∧ fNeg (fPack neg bits) = neg := by
  refine ⟨?_, ?_, fNeg_fPack neg (by omega)⟩
  · simp only [isFinite, fExp_fPack neg (show bits < 2 ^ 31 by omega), bne_iff_ne]
    omega
  · unfold fMag
    rw [fExp_fPack neg (by omega), fFrac_fPack neg (by omega)]
    have : bits / 2 ^ 23 ≠ 0 := by omega
    rw [if_neg this]
    have := Nat.two_pow_pos (bits / 2 ^ 23 - 1)
    intro h
    rcases Nat.mul_eq_zero.mp h with h | h <;> omega

/-- A number of at most 24 places leaves nothing below the cut. -/
theorem cut_exact {n m k : Nat} (hn : n = m * 2 ^ k) (hm : m ≤ 2 ^ 24) (hl : 2 ^ 23 ≤ n) :
    ∃ q, n = q * 2 ^ (Nat.log2 n - 23) ∧ 2 ^ 23 ≤ q ∧ q < 2 ^ 24 := by
  have hb := log2_places hl
  have hcut : ∃ q, n = q * 2 ^ (Nat.log2 n - 23) := by
    rcases Nat.lt_or_ge k (Nat.log2 n - 23) with hk | hk
    · -- then m has more than 24 places, so m is the power of two
      have hm2 : 2 ^ 24 ≤ m := by
        by_contra hlt
        have : n < 2 ^ 24 * 2 ^ k := by
          rw [hn]
          exact Nat.mul_lt_mul_of_pos_right (by omega) (Nat.two_pow_pos k)
        rw [← Nat.pow_add] at this
        have h3 : 2 ^ (Nat.log2 n - 23 + 23) < 2 ^ (24 + k) := Nat.lt_of_le_of_lt hb.1 this
        have := (Nat.pow_lt_pow_iff_right (by decide : 1 < 2)).mp h3
        omega
      have hme : m = 2 ^ 24 := by omega
      have hpow : n = 2 ^ (24 + k) := by rw [hn, hme, ← Nat.pow_add]
      have hlog : Nat.log2 n = 24 + k := by rw [hpow, Nat.log2_two_pow]
      exact ⟨2 ^ 23, by rw [hlog, ← Nat.pow_add, hpow]; congr 1; omega⟩
    · refine ⟨m * 2 ^ (k - (Nat.log2 n - 23)), ?_⟩
      rw [Nat.mul_assoc, ← Nat.pow_add, Nat.sub_add_cancel hk]
      exact hn
  obtain ⟨q, hq⟩ := hcut
  have hp := Nat.two_pow_pos (Nat.log2 n - 23)
  have hq' : n / 2 ^ (Nat.log2 n - 23) = q := Nat.div_eq_of_eq_mul_left hp hq
  refine ⟨q, hq, ?_, ?_⟩
  · rw [← hq', Nat.le_div_iff_mul_le hp, ← Nat.pow_add, Nat.add_comm]
    exact hb.1
  · rw [← hq', Nat.div_lt_iff_lt_mul hp, ← Nat.pow_add, Nat.add_comm]
    exact hb.2

/-- A magnitude of at most 24 places is held exactly. -/
theorem roundMag_exact (neg : Bool) {n m k : Nat} (hn : n = m * 2 ^ k) (hm : m ≤ 2 ^ 24) (hl : 2 ^ 23 ≤ n)
    (hu : Nat.log2 n ≤ 276) :
    fMag (roundMag neg n 0) = n ∧ isFinite (roundMag neg n 0) = true ∧ fNeg (roundMag neg n 0) = neg := by
  obtain ⟨q, hq, hq1, hq2⟩ := cut_exact hn hm hl
  have hsh : roundShift n (Nat.log2 n - 23) = q := by
    generalize Nat.log2 n - 23 = sh at hq
    rw [hq]
    exact roundShift_exact q sh
  have hbits : (Nat.log2 n - 23) * 2 ^ 23 + roundShift n (Nat.log2 n - 23) < 0x7F800000 := by
    rw [hsh]
    omega
  obtain ⟨e, h1⟩ := roundMag_bits neg hl hbits
  rw [hsh] at e h1 hbits
  have hfin := fPack_finite neg h1 hbits
  rw [e]
  refine ⟨?_, hfin.1, hfin.2.2⟩
  unfold fMag
  rw [fExp_fPack neg (by omega), fFrac_fPack neg (by omega)]
  have he : ((Nat.log2 n - 23) * 2 ^ 23 + q) / 2 ^ 23 = Nat.log2 n - 23 + 1 := by omega
  have hf : ((Nat.log2 n - 23) * 2 ^ 23 + q) % 2 ^ 23 = q - 2 ^ 23 := by omega
  rw [he, hf, if_neg (by omega), Nat.add_sub_cancel, Nat.add_sub_cancel' hq1]
  exact hq.symm

/-- A magnitude below one rounds to at most one. -/
theorem roundMag_below_one {n : Nat} (h : n < 2 ^ 149) :
    ∃ bits, roundMag false n 0 = fPack false bits ∧ bits ≤ 0x3F800000 := by
  rcases Nat.lt_or_ge n (2 ^ 23) with hs | hl
  · have hsh : max 0 (Nat.log2 n - 23) = 0 := by
      rcases Nat.eq_zero_or_pos n with h0 | h0
      · subst h0; decide
      · have := (Nat.log2_lt (by omega : n ≠ 0)).mpr hs
        omega
    refine ⟨if n < 2 ^ 23 then 0 else n, ?_, by split <;> omega⟩
    unfold roundMag
    simp only [hsh]
    have hr : roundShift n 0 = n := by
      have := roundShift_exact n 0
      simpa using this
    rw [hr]
    simp only [Nat.sub_zero, Nat.zero_mul, Nat.zero_add]
    rw [if_neg (by omega)]
  · have hlog : Nat.log2 n ≤ 148 := by
      have := (Nat.log2_lt (by omega : n ≠ 0)).mpr h
      omega
    have hr := roundShift_bounds (log2_places hl).1 (log2_places hl).2
    exact ⟨_, (roundMag_bits false hl (by omega)).1, by omega⟩

/-! ### Whole numbers and x / x -/

/-- A count up to 65535 is a finite number above zero. -/
theorem fofNat_finite {n : Nat} (h1 : 1 ≤ n) (h2 : n ≤ 65535) :
    isFinite (fofNat n) = true ∧ fMag (fofNat n) ≠ 0 ∧ fNeg (fofNat n) = false := by
  have hl : 2 ^ 149 ≤ n * 2 ^ 149 := Nat.le_mul_of_pos_left _ h1
  have hs : 2 ^ 23 ≤ 2 ^ 149 := by decide
  have hu : n * 2 ^ 149 < 2 ^ 165 := by omega
  have hlog := (Nat.log2_lt (by omega : n * 2 ^ 149 ≠ 0)).mpr hu
  obtain ⟨e, hf, hn⟩ := roundMag_exact false (n := n * 2 ^ 149) rfl (by omega) (by omega) (by omega)
  exact ⟨hf, by unfold fofNat; rw [e]; omega, hn⟩

/-- x / x is 1.0 for a finite x that is no zero. -/
theorem fdiv_self {x : F32} (hf : isFinite x = true) (hz : fMag x ≠ 0) : fdiv x x = fOne := by
  have h1 : fMag x * 2 ^ 151 / fMag x = 2 ^ 151 := Nat.mul_div_cancel_left _ (Nat.pos_of_ne_zero hz)
  have h2 : fMag x * 2 ^ 151 % fMag x = 0 := Nat.mul_mod_right _ _
  unfold fdiv
  simp only [isFinite_not_isNaN hf, isFinite_not_isInf hf, hz, h1, h2, bne_self_eq_false, Bool.or_self,
    Bool.false_eq_true, if_false, if_true]
  decide

/-! ### frac -/

theorem fMag_places (x : F32) : ∃ m e, fMag x = m * 2 ^ e ∧ m < 2 ^ 24 := by
  unfold fMag
  split
  · exact ⟨0, 0, by simp, by decide⟩
  · refine ⟨_, _, rfl, ?_⟩
    have : fFrac x < 2 ^ 23 := Nat.mod_lt _ (by decide)
    omega

theorem fMag_log {x : F32} (h : isFinite x = true) : Nat.log2 (fMag x) ≤ 276 := by
  have he : fExp x ≤ 254 := by
    have : fExp x < 256 := Nat.mod_lt _ (by decide)
    simp only [isFinite, bne_iff_ne, ne_eq] at h
    omega
  rcases Nat.eq_zero_or_pos (fMag x) with h0 | h0
  · rw [h0]; decide
  have hf : fFrac x < 2 ^ 23 := Nat.mod_lt _ (by decide)
  have hlt : fMag x < 2 ^ (24 + (fExp x - 1)) := by
    rw [Nat.pow_add]
    unfold fMag
    split
    · exact Nat.mul_pos (by decide) (Nat.two_pow_pos _)
    · exact Nat.mul_lt_mul_of_pos_right (by omega) (Nat.two_pow_pos _)
  have := (Nat.log2_lt (Nat.ne_of_gt h0)).mpr hlt
  omega

theorem negate_toNat (x : F32) :
    (negate x).toNat % 2 ^ 31 = x.toNat % 2 ^ 31 ∧ (negate x).toNat / 2 ^ 31 = 1 - x.toNat / 2 ^ 31 := by
  have e : (negate x).toNat = x.toNat ^^^ 2 ^ 31 := by rw [negate, BitVec.toNat_xor]; rfl
  have hx := x.isLt
  rw [e, Nat.xor_mod_two_pow, Nat.xor_div_two_pow]
  refine ⟨by simp, ?_⟩
  have : x.toNat / 2 ^ 31 = 0 ∨ x.toNat / 2 ^ 31 = 1 := by omega
  rcases this with h | h <;> rw [h] <;> decide

theorem fExp_negate (x : F32) : fExp (negate x) = fExp x := by
  have := negate_toNat x
  unfold fExp
  omega

theorem fFrac_negate (x : F32) : fFrac (negate x) = fFrac x := by
  have := negate_toNat x
  unfold fFrac
  omega

theorem fNeg_negate (x : F32) : fNeg (negate x) = !fNeg x := by
  have := negate_toNat x
  have hx := x.isLt
  have hy := (negate x).isLt
  unfold fNeg
  by_cases h : 2 ^ 31 ≤ x.toNat
  · have : ¬ 2 ^ 31 ≤ (negate x).toNat := by omega
    rw [decide_eq_false this, decide_eq_true h]; rfl
  · have : 2 ^ 31 ≤ (negate x).toNat := by omega
    rw [decide_eq_true this, decide_eq_false h]; rfl

theorem fMag_negate (x : F32) : fMag (negate x) = fMag x := by
  unfold fMag
  rw [fExp_negate, fFrac_negate]

theorem isFinite_negate (x : F32) : isFinite (negate x) = isFinite x := by
  unfold isFinite
  rw [fExp_negate]

/-- The difference of two finite values: their exact difference, rounded once. -/
theorem fsub_finite {x y : F32} (hx : isFinite x = true) (hy : isFinite y = true) :
    fsub x y = if fVal x - fVal y = 0 then fPack (fNeg x && !fNeg y) 0
      else roundMag (decide (fVal x - fVal y < 0)) (fVal x - fVal y).natAbs 0 := by
  have hn : fVal (negate y) = -fVal y := by
    unfold fVal
    rw [fNeg_negate, fMag_negate]
    cases fNeg y <;> simp
  have hny : isFinite (negate y) = true := by rw [isFinite_negate]; exact hy
  unfold fsub addNum
  simp only [isFinite_not_isNaN hx, isFinite_not_isNaN hy, isFinite_not_isInf hx, isFinite_not_isInf hny, hn,
    fNeg_negate, Bool.or_self, Bool.false_eq_true, if_false]
  rfl

/-- The floor of a finite number that is no zero is exact. -/
theorem ffloor_val {x : F32} (hx : isFinite x = true) (hz : fMag x ≠ 0) :
    isFinite (ffloor x) = true ∧ fNeg (ffloor x) = fNeg x
      ∧ fMag (ffloor x) = (if fNeg x && fMag x % 2 ^ 149 != 0 then fMag x / 2 ^ 149 + 1 else fMag x / 2 ^ 149) * 2 ^ 149 := by
  have hfl : ffloor x = roundMag (fNeg x)
      ((if fNeg x && fMag x % 2 ^ 149 != 0 then fMag x / 2 ^ 149 + 1 else fMag x / 2 ^ 149) * 2 ^ 149) 0 := by
    unfold ffloor
    simp [hx, hz]
  rw [hfl]
  generalize hQ : (if fNeg x && fMag x % 2 ^ 149 != 0 then fMag x / 2 ^ 149 + 1 else fMag x / 2 ^ 149) = Q
  rcases Nat.eq_zero_or_pos Q with h0 | h0
  · rw [h0]
    cases fNeg x <;> decide
  obtain ⟨m, e, hm, hm24⟩ := fMag_places x
  have hlog := fMag_log hx
  have h23 : 2 ^ 23 ≤ Q * 2 ^ 149 := by
    have : 2 ^ 149 ≤ Q * 2 ^ 149 := Nat.le_mul_of_pos_left _ h0
    have : 2 ^ 23 ≤ 2 ^ 149 := by decide
    omega
  rcases Nat.lt_or_ge e 149 with he | he
  · have hq : Q ≤ 2 ^ 24 := by
      have hle : fMag x / 2 ^ 149 ≤ m := by
        apply Nat.div_le_of_le_mul
        rw [hm, Nat.mul_comm]
        exact Nat.mul_le_mul_right _ (Nat.pow_le_pow_right (by decide) (by omega))
      rw [← hQ]
      split <;> omega
    have hlt : Q * 2 ^ 149 < 2 ^ 174 := by omega
    have := (Nat.log2_lt (by omega : Q * 2 ^ 149 ≠ 0)).mpr hlt
    obtain ⟨a, b, c⟩ := roundMag_exact (fNeg x) (n := Q * 2 ^ 149) rfl hq h23 (by omega)
    exact ⟨b, c, a⟩
  · have hr : fMag x % 2 ^ 149 = 0 := by
      rw [hm, show e = (e - 149) + 149 by omega, Nat.pow_add, ← Nat.mul_assoc, Nat.mul_mod_left]
    have hqe : Q * 2 ^ 149 = fMag x := by
      rw [← hQ, hr]
      simp only [bne_self_eq_false, Bool.and_false, Bool.false_eq_true, if_false]
      exact Nat.div_mul_cancel (Nat.dvd_of_mod_eq_zero hr)
    obtain ⟨a, b, c⟩ := roundMag_exact (fNeg x) (hqe.trans hm) (by omega) h23 (by rw [hqe]; exact hlog)
    exact ⟨b, c, a⟩

/-- A pattern of non-negative sign at most 1.0, and not 1.0, lies in [0, 1). -/
theorem fPack_unit {bits : Nat} (h : bits ≤ 0x3F800000) (h1 : fPack false bits ≠ fOne) :
    fle fZero (fPack false bits) = true ∧ flt (fPack false bits) fOne = true := by
  have hlt : bits < 2 ^ 31 := by omega
  have hne : bits ≠ 0x3F800000 := fun e => h1 (by rw [e]; decide)
  have hnan : isNaN (fPack false bits) = false := by
    apply isFinite_not_isNaN
    simp only [isFinite, fExp_fPack false hlt, bne_iff_ne]
    omega
  have hk : fKey (fPack false bits) = ((if bits < 2 ^ 23 then 0 else bits : Nat) : Int) := by
    unfold fKey
    rw [fPack_toNat false hlt, fNeg_fPack false hlt]
    simp only [Bool.false_eq_true, if_false, Nat.zero_add, Nat.mod_eq_of_lt hlt]
  have h0 : fKey fZero = 0 := by decide
  have h1' : fKey fOne = 0x3F800000 := by decide
  rw [fle_iff, flt_iff, hk, h0, h1']
  refine ⟨⟨by decide, hnan, ?_⟩, hnan, by decide, ?_⟩ <;> split <;> omega

end Sys2Proof.Machine
end

