-- ==== Sys2Proof/Laws/Frame.lean ====
section
/-! SUPPORT. What the parts of a RENDER never write (40_host_commands.md R148): the patch RAM, FS, BLOCK_MAX, CONFIGURED,
HOST_SUSTAIN, FAULT and the ports; and what becomes of the global controls and the register PREV_SUSTAIN. -/

namespace Sys2Proof.Machine

variable {P : Params} {s t u : State}

/-- The registers, memory and ports that no part of a RENDER around its samples writes. -/
structure Untouched (s t : State) : Prop where
  configured : t.configured = s.configured
  fs : t.fs = s.fs
  blockMax : t.blockMax = s.blockMax
  hostSustain : t.hostSustain = s.hostSustain
  fault : t.fault = s.fault
  patch : t.patch = s.patch
  cmdPort : t.cmdPort = s.cmdPort
  respPort : t.respPort = s.respPort
  framePort : t.framePort = s.framePort
  glfoPhase : t.glfoPhase = s.glfoPhase
  gBend : t.gBend = s.gBend
  gMod : t.gMod = s.gMod
  gAft : t.gAft = s.gAft
  gCutoff : t.gCutoff = s.gCutoff
  gReso : t.gReso = s.gReso

theorem Untouched.refl (s : State) : Untouched s s := by constructor <;> rfl

theorem Untouched.trans (h : Untouched s t) (h' : Untouched t u) : Untouched s u where
  configured := h'.configured.trans h.configured
  fs := h'.fs.trans h.fs
  blockMax := h'.blockMax.trans h.blockMax
  hostSustain := h'.hostSustain.trans h.hostSustain
  fault := h'.fault.trans h.fault
  patch := h'.patch.trans h.patch
  cmdPort := h'.cmdPort.trans h.cmdPort
  respPort := h'.respPort.trans h.respPort
  framePort := h'.framePort.trans h.framePort
  glfoPhase := h'.glfoPhase.trans h.glfoPhase
  gBend := h'.gBend.trans h.gBend
  gMod := h'.gMod.trans h.gMod
  gAft := h'.gAft.trans h.gAft
  gCutoff := h'.gCutoff.trans h.gCutoff
  gReso := h'.gReso.trans h.gReso

theorem PoolOnly.untouched (h : PoolOnly s t) : Untouched s t := by
  unfold PoolOnly at h
  rw [h]
  constructor <;> rfl

theorem Untouched.forVoices {f : Nat → State → State} (hf : ∀ v t, Untouched t (f v t)) (s : State) :
    Untouched s (forVoices P f s) :=
  forVoices_induct (Untouched s) (Untouched.refl s) (fun v t _ h => h.trans (hf v t))

theorem updateSustain_untouched (pt : Patch) (s : State) : Untouched s (updateSustain P pt s) := by
  unfold updateSustain
  dsimp only
  refine Untouched.trans (t := if s.hostSustain then _ else if s.prevSustain then _ else s) ?_ (by constructor <;> rfl)
  split
  · exact Untouched.forVoices (fun v t => (PoolOnly.setVoice t v _).untouched) s
  split
  · exact Untouched.forVoices (fun v t => (PoolOnly.setVoice t v _).untouched) s
  · exact Untouched.refl s

theorem forceSteal_untouched (changed : Bool) (s : State) : Untouched s (forceSteal P changed s) := by
  unfold forceSteal
  dsimp only
  refine Untouched.trans (Untouched.forVoices (P := P)
    (f := fun v t => if (t.voice v).state = .idle then t else stealVoice v t) (fun v t => ?_) s) (by constructor <;> rfl)
  split
  · exact Untouched.refl t
  · exact (PoolOnly.stealVoice v t).untouched

theorem resolvePoly_untouched (s : State) : Untouched s (resolvePoly s.relQ [] s) := by
  obtain ⟨t, kept, e, h, -⟩ := resolvePoly_induct (Untouched s)
    (fun t v ht _ _ => ht.trans (PoolOnly.setVoice t v _).untouched) s.relQ [] s (Untouched.refl s)
  rw [e]
  exact h.trans (by constructor <;> rfl)

theorem allocatePoly_untouched (pt : Patch) (reqs keep : List VoiceRequest) (s : State) :
    Untouched s (allocatePoly P pt reqs keep s) := by
  induction reqs generalizing keep s with
  | nil => constructor <;> rfl
  | cons req reqs ih =>
    unfold allocatePoly
    split
    · exact ih _ s
    · exact (PoolOnly.initializeVoice P pt _ req s).untouched.trans (ih _ _)

theorem allocateMono_untouched (pt : Patch) (s : State) : Untouched s (allocateMono P pt s) := by
  unfold allocateMono
  split
  · obtain ⟨t, kept, e, h, -⟩ := resolveMono_induct (Untouched s)
      (fun t ht _ _ => ht.trans (PoolOnly.setVoice t 0 _).untouched) s.relQ [] s (Untouched.refl s)
    rw [e]
    exact h.trans (by constructor <;> rfl)
  · exact Untouched.trans (t := { s with monoReq := [], relQ := [] }) (by constructor <;> rfl)
      (PoolOnly.initializeMonoVoice P pt _ _).untouched

theorem retarget_untouched (pt : Patch) (n : Nat) (s : State) : Untouched s (retarget P pt n s) :=
  Untouched.forVoices (fun v t => (PoolOnly.setVoice t v _).untouched) s

theorem preRender_untouched (pt : Patch) (n : Nat) (s : State) : Untouched s (preRender P pt n s) := by
  unfold preRender
  dsimp only
  refine Untouched.trans (t := latchMode pt s) (by constructor <;> rfl) ?_
  split
  · exact forceSteal_untouched _ _
  · unfold preRenderVoices
    split
    · exact ((resolvePoly_untouched _).trans (retarget_untouched pt n _)).trans (allocatePoly_untouched pt _ _ _)
    · exact (retarget_untouched pt n _).trans (allocateMono_untouched pt _)

theorem postRender_untouched (s : State) : Untouched s (postRender P s) := by
  have hf : Untouched s { freePass P s with switchPending := false } :=
    Untouched.trans (t := freePass P s) (Untouched.forVoices (fun v t => by
      unfold freeIfDone
      dsimp only
      split
      · split
        · exact ((PoolOnly.freeVoice v t).trans (PoolOnly.fullReset P v _)).untouched
        · exact (PoolOnly.freeVoice v t).untouched
      · exact Untouched.refl t) s) (by constructor <;> rfl)
  unfold postRender
  dsimp only
  split
  · exact stealTimes_induct (Untouched s) (fun t v ht _ => ht.trans (PoolOnly.stealVoice v t).untouched) _ _ hf
  · exact hf

/-- Step 1 to 4 and the sustain step keep what the samples read besides the voices. -/
theorem beforeSamples_untouched (pt : Patch) (n : Nat) (b m a : F32) (s : State) :
    Untouched (setGlobalTargets pt n b m a s) (beforeSamples P pt n b m a s) :=
  (updateSustain_untouched pt _).trans (preRender_untouched pt n _)

/-- What a whole RENDER leaves as it was (R148), whether it ends normally or at a NUMERIC fault. -/
theorem renderSequence_frame (pt : Patch) (n : Nat) (b m a : F32) (s : State) :
    (renderSequence P pt n b m a s).configured = s.configured ∧ (renderSequence P pt n b m a s).fs = s.fs
      ∧ (renderSequence P pt n b m a s).blockMax = s.blockMax
      ∧ (renderSequence P pt n b m a s).hostSustain = s.hostSustain
      ∧ (renderSequence P pt n b m a s).patch = s.patch ∧ (renderSequence P pt n b m a s).cmdPort = s.cmdPort
      ∧ (renderSequence P pt n b m a s).respPort = s.respPort := by
  have hb := beforeSamples_untouched (P := P) pt n b m a s
  unfold renderSequence
  rcases renderSamples_spec P pt n (List.range n) (beforeSamples P pt n b m a s) with
    ⟨t, fs, e, hr, -⟩ | ⟨t, fs, e, hr, -⟩
  · rw [e]
    dsimp only [raise, endResponse]
    rw [hr.frame]
    exact ⟨hb.configured, hb.fs, hb.blockMax, hb.hostSustain, hb.patch, hb.cmdPort, hb.respPort⟩
  · rw [e]
    dsimp only
    have hp := postRender_untouched (P := P) t
    rw [hp.configured, hp.fs, hp.blockMax, hp.hostSustain, hp.patch, hp.cmdPort, hp.respPort, hr.frame]
    exact ⟨hb.configured, hb.fs, hb.blockMax, hb.hostSustain, hb.patch, hb.cmdPort, hb.respPort⟩

end Sys2Proof.Machine
end

