-- ==== Sys2Proof/Laws/Memory.lean ====
section
/-! SUPPORT. The laws of the patch RAM: a read after a write, at the same place and elsewhere, and that every memory
operation keeps the canonical form. -/

namespace Sys2Proof.Machine

/-! ### One byte -/

/-- A byte below every listed cell reads as unlisted. -/
theorem readByte_below (P : Params) {m : List Host.Cell} {lo a : Nat} (h : memoryWfFrom P lo m = true) (ha : a < lo) :
    readByte P m a = unlistedByte P a := by
  induction m generalizing lo with
  | nil => rfl
  | cons c m ih =>
    obtain ⟨b, x⟩ := c
    simp only [memoryWfFrom, Bool.and_eq_true, decide_eq_true_eq] at h
    have hb : b ≠ a := by omega
    simp only [readByte, hb, if_false]
    exact ih h.2 (by omega)

theorem memoryWfFrom_mono (P : Params) {m : List Host.Cell} {lo lo' : Nat} (h : memoryWfFrom P lo m = true)
    (hl : lo' ≤ lo) : memoryWfFrom P lo' m = true := by
  cases m with
  | nil => rfl
  | cons c m =>
    obtain ⟨b, x⟩ := c
    simp only [memoryWfFrom, Bool.and_eq_true, decide_eq_true_eq] at h ⊢
    exact ⟨⟨by omega, h.1.2⟩, h.2⟩

/-- A write keeps the canonical form. -/
theorem writeByte_wfFrom (P : Params) (m : List Host.Cell) (lo a : Nat) (x : Byte) (h : memoryWfFrom P lo m = true)
    (ha : lo ≤ a) : memoryWfFrom P lo (writeByte P m a x) = true := by
  induction m generalizing lo with
  | nil =>
    unfold writeByte
    split
    · rfl
    · next hx => simp [memoryWfFrom, ha, hx]
  | cons c m ih =>
    obtain ⟨b, y⟩ := c
    have h' := h
    simp only [memoryWfFrom, Bool.and_eq_true, decide_eq_true_eq] at h'
    unfold writeByte
    split
    · next hab =>
      split
      · exact h
      · next hx =>
        simp only [memoryWfFrom, Bool.and_eq_true, decide_eq_true_eq]
        exact ⟨⟨ha, hx⟩, ⟨by omega, h'.1.2⟩, h'.2⟩
    · split
      · next hab =>
        subst hab
        split
        · exact memoryWfFrom_mono P h'.2 (by omega)
        · next hx =>
          simp only [memoryWfFrom, Bool.and_eq_true, decide_eq_true_eq]
          exact ⟨⟨ha, hx⟩, h'.2⟩
      · simp only [memoryWfFrom, Bool.and_eq_true, decide_eq_true_eq]
        exact ⟨h'.1, ih (b + 1) h'.2 (by omega)⟩

/-- A read after a write of one byte. -/
theorem readByte_writeByte (P : Params) {m : List Host.Cell} {lo : Nat} (h : memoryWfFrom P lo m = true) (a c : Nat)
    (x : Byte) : readByte P (writeByte P m a x) c = if c = a then x else readByte P m c := by
  induction m generalizing lo with
  | nil =>
    unfold writeByte
    split
    · next hx =>
      split
      · next hc => rw [hc, readByte, hx]
      · rfl
    · next hx =>
      simp only [readByte]
      by_cases hc : a = c
      · simp [hc]
      · simp [hc, Ne.symm hc]
  | cons d m ih =>
    obtain ⟨b, y⟩ := d
    have h' := h
    simp only [memoryWfFrom, Bool.and_eq_true, decide_eq_true_eq] at h'
    unfold writeByte
    split
    · next hab =>
      split
      · next hx =>
        split
        · next hc =>
          subst hc
          have : b ≠ c := by omega
          simp only [readByte, this, if_false]
          rw [readByte_below P h'.2 (by omega), hx]
        · rfl
      · by_cases hc : a = c
        · simp [readByte, hc]
        · simp [readByte, hc, Ne.symm hc]
    · split
      · next hab =>
        subst hab
        split
        · next hx =>
          split
          · next hc =>
            subst hc
            rw [readByte_below P h'.2 (by omega), hx]
          · next hc => simp [readByte, Ne.symm hc]
        · by_cases hc : a = c
          · simp [readByte, hc]
          · simp [readByte, hc, Ne.symm hc]
      · next hab hab' =>
        by_cases hc : b = c
        · subst hc
          simp [readByte, Ne.symm hab']
        · simp only [readByte, hc, if_false]
          exact ih h'.2

/-! ### One word -/

theorem Memory.wf_nil (P : Params) : Memory.wf P [] = true := rfl

theorem writeByte_wf (P : Params) (m : List Host.Cell) (a : Nat) (x : Byte) (h : Memory.wf P m = true) :
    Memory.wf P (writeByte P m a x) = true := writeByte_wfFrom P m 0 a x h (Nat.zero_le a)

/-- A word write keeps the canonical form. -/
theorem writeWord_wf (P : Params) (m : List Host.Cell) (addr : Nat) (w : Word) (h : Memory.wf P m = true) :
    Memory.wf P (writeWord P m addr w) = true :=
  writeByte_wf P _ _ _ (writeByte_wf P _ _ _ (writeByte_wf P _ _ _ (writeByte_wf P _ _ _ h)))

/-- Every byte after a word write: the four bytes of the word, everything else as before. -/
theorem readByte_writeWord (P : Params) (m : List Host.Cell) (addr : Nat) (w : Word) (h : Memory.wf P m = true)
    (c : Nat) :
    readByte P (writeWord P m addr w) c = if c / 4 = addr then byteOfWord w (c % 4) else readByte P m c := by
  have w0 := writeByte_wf P m (4 * addr) (byteOfWord w 0) h
  have w1 := writeByte_wf P _ (4 * addr + 1) (byteOfWord w 1) w0
  have w2 := writeByte_wf P _ (4 * addr + 2) (byteOfWord w 2) w1
  unfold writeWord
  rw [readByte_writeByte P w2, readByte_writeByte P w1, readByte_writeByte P w0, readByte_writeByte P h]
  by_cases h3 : c = 4 * addr + 3
  · have : c / 4 = addr ∧ c % 4 = 3 := by omega
    simp [h3]
    omega
  by_cases h2 : c = 4 * addr + 2
  · have : c / 4 = addr ∧ c % 4 = 2 := by omega
    simp [h2]
    omega
  by_cases h1 : c = 4 * addr + 1
  · have : c / 4 = addr ∧ c % 4 = 1 := by omega
    simp [h1]
    omega
  by_cases h0 : c = 4 * addr
  · have : c / 4 = addr ∧ c % 4 = 0 := by omega
    simp [h0]
  · have : c / 4 ≠ addr := by omega
    simp [h3, h2, h1, h0, this]

/-- The four bytes of a word are the word. -/
theorem bytes_of_word (w : Word) :
    byteOfWord w 3 ++ byteOfWord w 2 ++ byteOfWord w 1 ++ byteOfWord w 0 = w := by
  apply BitVec.eq_of_getLsbD_eq
  intro i hi
  simp only [byteOfWord, BitVec.getLsbD_append, BitVec.getLsbD_extractLsb']
  by_cases h0 : i < 8
  · simp [h0]
  by_cases h1 : i < 16
  · have : i - 8 < 8 := by omega
    simp [h0, this, show 8 + (i - 8) = i by omega]
  by_cases h2 : i < 24
  · have a : ¬ i - 8 < 8 := by omega
    have b : i - 8 - 8 < 8 := by omega
    simp [h0, a, b, show 16 + (i - 8 - 8) = i by omega]
  · have a : ¬ i - 8 < 8 := by omega
    have b : ¬ i - 8 - 8 < 8 := by omega
    have c : i - 8 - 8 - 8 < 8 := by omega
    simp [h0, a, b, c, show 24 + (i - 8 - 8 - 8) = i by omega]

/-- A word read after a word write. -/
theorem readWord_writeWord (P : Params) (m : List Host.Cell) (addr : Nat) (w : Word) (h : Memory.wf P m = true)
    (c : Nat) : readWord P (writeWord P m addr w) c = if c = addr then w else readWord P m c := by
  unfold readWord
  rw [readByte_writeWord P m addr w h, readByte_writeWord P m addr w h, readByte_writeWord P m addr w h,
    readByte_writeWord P m addr w h]
  have d3 : (4 * c + 3) / 4 = c ∧ (4 * c + 3) % 4 = 3 := by omega
  have d2 : (4 * c + 2) / 4 = c ∧ (4 * c + 2) % 4 = 2 := by omega
  have d1 : (4 * c + 1) / 4 = c ∧ (4 * c + 1) % 4 = 1 := by omega
  have d0 : 4 * c / 4 = c ∧ 4 * c % 4 = 0 := by omega
  rw [d3.1, d3.2, d2.1, d2.2, d1.1, d1.2, d0.1, d0.2]
  by_cases hc : c = addr
  · simp only [hc, if_true]
    exact bytes_of_word w
  · simp [hc]

/-- A patch RAM with nothing listed reads as its defaults. -/
theorem readWord_nil (P : Params) (addr : Nat) : readWord P [] addr = patchDefault P addr := by
  unfold readWord
  simp only [readByte, unlistedByte]
  have d3 : (4 * addr + 3) / 4 = addr ∧ (4 * addr + 3) % 4 = 3 := by omega
  have d2 : (4 * addr + 2) / 4 = addr ∧ (4 * addr + 2) % 4 = 2 := by omega
  have d1 : (4 * addr + 1) / 4 = addr ∧ (4 * addr + 1) % 4 = 1 := by omega
  have d0 : 4 * addr / 4 = addr ∧ 4 * addr % 4 = 0 := by omega
  rw [d3.1, d3.2, d2.1, d2.2, d1.1, d1.2, d0.1, d0.2]
  exact bytes_of_word _

end Sys2Proof.Machine
end

