-- ==== Sys2Proof/Laws/Patch.lean ====
section
/-! SUPPORT. The patch map as arithmetic on addresses, and the legality of the default patch. -/

namespace Sys2Proof.Machine

/-- The addresses of an operator group. -/
theorem opRows_addrs (i : Nat) :
    (opRows i).map PatchRow.addr = (List.range 25).map (fun k => opBase i + k) := by
  simp [opRows, envRows, List.range_succ]

/-- The addresses of the global group. -/
theorem globalRows_addrs (P : Params) : (globalRows P).map PatchRow.addr = List.range 0x023 := by
  simp [globalRows, envRows, List.range_succ]

theorem find_addr_isSome (l : List PatchRow) (a : Nat) :
    (l.find? (fun r => r.addr == a)).isSome = true ↔ a ∈ l.map PatchRow.addr := by
  simp [List.find?_isSome]

/-- Which word addresses are defined patch words (20_memory.md R82, R83): 0x000 to 0x022, and offsets 0x00 to 0x18 of
the six operator groups. -/
theorem patchDefined_iff (P : Params) (a : Nat) :
    patchDefined P a = true ↔ a ≤ 0x022 ∨ (0x040 ≤ a ∧ a < 0x100 ∧ (a - 0x040) % 0x20 ≤ 0x18) := by
  unfold patchDefined patchRow?
  split
  · rw [find_addr_isSome, globalRows_addrs, List.mem_range]
    omega
  split
  · rw [find_addr_isSome, opRows_addrs]
    simp only [List.mem_map, List.mem_range, opBase]
    constructor
    · rintro ⟨k, hk, e⟩
      omega
    · intro h
      exact ⟨(a - 0x040) % 0x20, by omega, by omega⟩
  · simp
    omega

/-- In a list of rows with distinct addresses, looking a row's address up gives the row. -/
theorem find_addr_of_mem {l : List PatchRow} (hd : (l.map PatchRow.addr).Nodup) {r : PatchRow} (h : r ∈ l) :
    l.find? (fun x => x.addr == r.addr) = some r := by
  induction l with
  | nil => simp at h
  | cons a l ih =>
    simp only [List.map_cons, List.nodup_cons] at hd
    rcases List.mem_cons.mp h with rfl | h'
    · simp
    · have hne : a.addr ≠ r.addr := fun e => hd.1 (e ▸ List.mem_map_of_mem h')
      rw [List.find?_cons_of_neg (by simpa using hne), ih hd.2 h']

theorem range_map_add_nodup (b n : Nat) : ((List.range n).map (fun k => b + k)).Nodup := by
  rw [List.nodup_map_iff_inj_on List.nodup_range]
  intro x _ y _ e
  omega

/-- A row is what its address looks up. -/
theorem patchRow_of_mem {P : Params} {r : PatchRow} (h : r ∈ patchRows P) : patchRow? P r.addr = some r := by
  unfold patchRow?
  rcases List.mem_append.mp h with h | h
  · have ha : r.addr < 0x023 := by
      have := List.mem_map_of_mem (f := PatchRow.addr) h
      rwa [globalRows_addrs, List.mem_range] at this
    rw [if_pos (by omega)]
    exact find_addr_of_mem (by rw [globalRows_addrs]; exact List.nodup_range) h
  · obtain ⟨i, hi, h⟩ := List.mem_flatMap.mp h
    have hi := List.mem_range.mp hi
    have ha := List.mem_map_of_mem (f := PatchRow.addr) h
    rw [opRows_addrs, List.mem_map] at ha
    obtain ⟨k, hk, e⟩ := ha
    have hk := List.mem_range.mp hk
    unfold opBase at e
    rw [if_neg (by omega), if_pos (by omega)]
    have hq : (r.addr - 0x040) / 0x20 = i := by omega
    rw [hq]
    exact find_addr_of_mem (by rw [opRows_addrs]; exact range_map_add_nodup _ _) h

theorem patchDefault_of_mem {P : Params} {r : PatchRow} (h : r ∈ patchRows P) : patchDefault P r.addr = r.reset := by
  rw [patchDefault, patchRow_of_mem h]

/-- The default of every operator word is legal. -/
theorem opRows_reset_legal : ∀ i < 6, ∀ r ∈ opRows i, fieldLegal r.range r.reset = true := by decide

/-- The default of every global word is legal, whatever the pool size. -/
theorem globalRows_reset_legal {P : Params} (hP : paramsLegal P = true) :
    ∀ r ∈ globalRows P, fieldLegal r.range r.reset = true := by
  have hv := maxVoices_of_legal hP
  have key : ∀ r ∈ (globalRows P).eraseIdx 1, fieldLegal r.range r.reset = true := by
    show ∀ r ∈ (globalRows params).eraseIdx 1, fieldLegal r.range r.reset = true
    decide
  intro r h
  by_cases e : r.addr = 1
  · have hr : r = ⟨0x001, .u32 1 P.maxVoices, BitVec.ofNat 32 P.maxVoices⟩ := by
      have h1 := find_addr_of_mem (by rw [globalRows_addrs]; exact List.nodup_range) h
      rw [e] at h1
      have h2 : (globalRows P).find? (fun x => x.addr == 1)
        = some ⟨0x001, .u32 1 P.maxVoices, BitVec.ofNat 32 P.maxVoices⟩ := rfl
      exact Option.some.inj (h1.symm.trans h2)
    rw [hr]
    simp only [fieldLegal, BitVec.toNat_ofNat, decide_eq_true_eq]
    omega
  · refine key r ?_
    have : (globalRows P).eraseIdx 1 = (globalRows P).filter (fun x => x.addr != 1) := rfl
    rw [this]
    simp [h, e]

/-- The default patch is legal (70_reset_and_hazards.md R362). -/
theorem patchLegal_default {P : Params} (hP : paramsLegal P = true) : patchLegal P [] = true := by
  rw [patchLegal, List.all_eq_true]
  intro r h
  rw [readWord_nil, patchDefault_of_mem h]
  rcases List.mem_append.mp h with h | h
  · exact globalRows_reset_legal hP r h
  · obtain ⟨i, hi, h⟩ := List.mem_flatMap.mp h
    exact opRows_reset_legal i (List.mem_range.mp hi) r h

/-! ### What a legal patch guarantees -/

theorem fieldLegal_of_patchLegal {P : Params} {m : List Host.Cell} (h : patchLegal P m = true) {r : PatchRow}
    (hr : r ∈ patchRows P) : fieldLegal r.range (readWord P m r.addr) = true := List.all_eq_true.mp h r hr

/-- POLYPHONY is 1..MAX_VOICES (R88, V1 and V7). -/
theorem snapshot_polyphony {P : Params} {m : List Host.Cell} (h : patchLegal P m = true) :
    1 ≤ (snapshot P m).polyphony ∧ (snapshot P m).polyphony ≤ P.maxVoices := by
  have hr : (⟨0x001, .u32 1 P.maxVoices, BitVec.ofNat 32 P.maxVoices⟩ : PatchRow) ∈ patchRows P := by
    simp [patchRows, globalRows]
  have := fieldLegal_of_patchLegal h hr
  simpa [fieldLegal, snapshot] using this

/-- The MODS word of every operator names lower modulators and no higher feedback source (R88, V4 and V5). -/
theorem snapshot_mods {P : Params} {m : List Host.Cell} (h : patchLegal P m = true) {i : Nat} (hi : i < 6) :
    fieldLegal (.mods i) ((snapshot P m).op i).mods = true := by
  have hr : (⟨opBase i + 0x01, .mods i, 0x00000FFF#32⟩ : PatchRow) ∈ patchRows P := by
    refine List.mem_append_right _ (List.mem_flatMap.mpr ⟨i, List.mem_range.mpr hi, ?_⟩)
    simp [opRows]
  have e : (snapshot P m).op i = opPatch P m i := by
    simp [Patch.op, snapshot, hi]
  rw [e]
  exact fieldLegal_of_patchLegal h hr

end Sys2Proof.Machine
end

