-- ==== Sys2Proof/Laws/PerInstr.lean ====
section
/-! SUPPORT. The per-instruction family of LAWS.json: the shape of every command's packet, its header's opcode and its
length (30_encoding.md R101, R102). -/

namespace Sys2Proof.Laws.HeaderShape

open Sys2Proof

/-- The packet of a well-formed command is a header of the command's opcode, with as many words as R102 gives it. -/
def Statement (i : Instr) : Prop :=
  i.WellFormed → ∃ header payload, encode i = header :: payload ∧ opcOf header = opcodeOf i
    ∧ payload.length + 1 = packetWords (opcodeOf i)

/-- The opcode of a header written from its fields. -/
theorem opcOf_headerWord {opc key imm : Nat} (ho : opc < 256) (hk : key < 128) (hi : imm < 65536) :
    opcOf (headerWord opc key imm) = opc := by
  simp only [opcOf, headerWord, BitVec.toNat_ofNat]
  omega

theorem noteOn (key : Nat) (freq velocity : F32) (timestamp : Word) :
    Statement (.noteOn key freq velocity timestamp) :=
  fun h => ⟨_, _, rfl, opcOf_headerWord (by decide) (of_decide_eq_true h) (by decide), rfl⟩

theorem noteOff (key : Nat) (timestamp : Word) : Statement (.noteOff key timestamp) :=
  fun h => ⟨_, _, rfl, opcOf_headerWord (by decide) (of_decide_eq_true h) (by decide), rfl⟩

theorem sustain (down : Bool) : Statement (.sustain down) :=
  fun _ => ⟨_, _, rfl, opcOf_headerWord (by decide) (by decide) (by cases down <;> decide), rfl⟩

theorem render (numSamples : Nat) (bend modulation aftertouch : F32) :
    Statement (.render numSamples bend modulation aftertouch) :=
  fun h => ⟨_, _, rfl, opcOf_headerWord (by decide) (by decide) (of_decide_eq_true h), rfl⟩

theorem setSampling (sampleRate samplesPerBlock : Word) : Statement (.setSampling sampleRate samplesPerBlock) :=
  fun _ => ⟨_, _, rfl, opcOf_headerWord (by decide) (by decide) (by decide), rfl⟩

theorem resetVoices : Statement .resetVoices :=
  fun _ => ⟨_, _, rfl, opcOf_headerWord (by decide) (by decide) (by decide), rfl⟩

theorem patchWrite (addr : Nat) (data : Word) : Statement (.patchWrite addr data) :=
  fun h => ⟨_, _, rfl, opcOf_headerWord (by decide) (by decide) (of_decide_eq_true h), rfl⟩

theorem patchRead (addr : Nat) : Statement (.patchRead addr) :=
  fun h => ⟨_, _, rfl, opcOf_headerWord (by decide) (by decide) (of_decide_eq_true h), rfl⟩

theorem patchReset : Statement .patchReset :=
  fun _ => ⟨_, _, rfl, opcOf_headerWord (by decide) (by decide) (by decide), rfl⟩

theorem statusRead (addr : Nat) : Statement (.statusRead addr) :=
  fun h => ⟨_, _, rfl, opcOf_headerWord (by decide) (by decide) (of_decide_eq_true h), rfl⟩

end Sys2Proof.Laws.HeaderShape
end

