-- ==== Sys2Proof/Laws/Records.lean ====
section
/-! SUPPORT. The voice-level micro-operations keep every voice record as the rules keep it: six operators and outputs, no
cycle in the modulation graph, no infinite envelope where the voice's end is read (10_state.md R29, R30, 20_memory.md
R88, 44_control_units.md R306). -/

namespace Sys2Proof.Machine

variable {P : Params} {s t : State}

/-- Records are kept by keeping the configurations, the filter envelope's kind and six outputs. -/
theorem VoiceWf.of_configs {v w : Voice} (h : VoiceWf v) (hc : SameConfigs v.ops w.ops)
    (hf : w.filterEnv.infinite = v.filterEnv.infinite) (hp : w.prevMod.length = 6) : VoiceWf w :=
  let u : Voice := { v with ops := w.ops, prevMod := w.prevMod, filterEnv := w.filterEnv }
  have hu : VoiceWf u := h.of_sameNote ⟨rfl, rfl, rfl, rfl, rfl, rfl, hc, hf⟩ hp
  ⟨hu.sixOperators, hu.sixOutputs, hu.acyclic, hu.carriersEnd, hu.filterEnvEnds⟩

theorem VoiceWf.unbound {v : Voice} (h : VoiceWf v) (st : VoiceState) : VoiceWf (unbound st v) :=
  h.of_configs (SameConfigs.refl _) rfl h.sixOutputs

theorem VoiceWf.releaseVoice {v : Voice} (h : VoiceWf v) : VoiceWf (releaseVoice v) :=
  h.of_configs (SameConfigs.map (fun o => sameConfig_env (envStop_keeps o.env))) (envStop_keeps v.filterEnv).1
    h.sixOutputs

/-- The power-on voice record. -/
theorem voicePowerOn_wf (P : Params) : VoiceWf (voicePowerOn P) where
  sixOperators := rfl
  sixOutputs := rfl
  acyclic := by
    intro i o ho
    have hm := List.mem_of_getElem? ho
    rw [List.eq_of_mem_replicate hm]
    exact ⟨rfl, rfl, rfl, rfl⟩
  carriersEnd := by
    intro o ho _
    rw [List.eq_of_mem_replicate ho]
    rfl
  filterEnvEnds := rfl

/-- What a patch's MODS words have to satisfy (R88, V3 to V5). -/
def RoutingLegal (pt : Patch) : Prop := ∀ i, i < 6 → fieldLegal (.mods i) (pt.op i).mods = true

/-- A carrier started by ConfigureVoice is not infinite (44_control_units.md R306). -/
theorem configureOperator_carrier (P : Params) (fs : Word) (key : Nat) (velocity : F32) (q : OpPatch)
    (h : heard (configureOperator P fs key velocity q) = true) :
    (configureOperator P fs key velocity q).env.infinite = false := by
  unfold heard configureOperator at h
  unfold configureOperator
  dsimp only at h ⊢
  rw [Bool.and_eq_true] at h
  rw [if_pos h.1]
  simp only [envStart, h.2, Bool.not_true, Bool.false_and]

theorem freshVoice_wf (P : Params) {pt : Patch} (hr : RoutingLegal pt) (fs : Word) (phase : F32) (req : VoiceRequest) :
    VoiceWf (freshVoice P pt fs phase req) where
  sixOperators := by simp [freshVoice]
  sixOutputs := by simp [freshVoice]
  acyclic := by
    intro i o ho
    unfold freshVoice at ho
    dsimp only at ho
    rw [List.getElem?_map] at ho
    rcases Nat.lt_or_ge i 6 with hi | hi
    · have hl := hr i hi
      rw [List.getElem?_range hi, Option.map_some] at ho
      cases ho
      unfold fieldLegal at hl
      simp only [Bool.and_eq_true] at hl
      exact ⟨hl.1.1.1.2, hl.1.1.2, hl.1.2, hl.2⟩
    · rw [List.getElem?_eq_none (by simpa using hi)] at ho
      cases ho
  carriersEnd := by
    intro o ho hh
    unfold freshVoice at ho
    obtain ⟨i, -, rfl⟩ := List.mem_map.mp ho
    exact configureOperator_carrier P fs req.key req.velocity (pt.op i) hh
  filterEnvEnds := rfl

/-! ### Over the pool -/

theorem RecordInv.congr (h : RecordInv s) (hv : t.voices = s.voices) : RecordInv t := by
  unfold RecordInv
  rw [hv]
  exact h

theorem RecordInv.voice (h : RecordInv s) {v : Nat} (hv : v < s.voices.length) : VoiceWf (s.voice v) := by
  rw [voice_eq_getElem s hv]
  exact h _ (List.getElem_mem hv)

theorem RecordInv.setVoice (h : RecordInv s) (v : Nat) {x : Voice} (hx : v < s.voices.length → VoiceWf x) :
    RecordInv (s.setVoice v x) := by
  intro y hy
  rcases Nat.lt_or_ge v s.voices.length with hv | hv
  · rcases List.mem_or_eq_of_mem_set hy with hy | rfl
    · exact h y hy
    · exact hx hv
  · rw [show (s.setVoice v x).voices = s.voices from List.set_eq_of_length_le hv] at hy
    exact h y hy

theorem RecordInv.clearKey (h : RecordInv s) (k : Option Nat) : RecordInv (s.clearKey k) :=
  h.congr (clearKey_voices s k)

theorem RecordInv.clearOwnKey (h : RecordInv s) (v : Nat) (k : Option Nat) : RecordInv (clearOwnKey v k s) :=
  h.congr (by
    unfold Machine.clearOwnKey
    split
    · rfl
    · split <;> rfl)

theorem RecordInv.stealVoice (h : RecordInv s) (v : Nat) : RecordInv (stealVoice v s) :=
  (h.setVoice v (fun hv => (h.voice hv).unbound _)).clearKey _

theorem RecordInv.releaseAndUnbind (h : RecordInv s) (v : Nat) : RecordInv (releaseAndUnbind v s) := by
  refine (h.setVoice v (fun hv => ?_)).clearKey _
  refine VoiceWf.unbound ?_ _
  split
  · exact (h.voice hv).releaseVoice
  · exact h.voice hv

theorem RecordInv.freeVoice (h : RecordInv s) (v : Nat) : RecordInv (freeVoice v s) := by
  have hv' : (Machine.clearOwnKey v (s.voice v).key s).voices = s.voices := by
    rw [PoolOnly.clearOwnKey v (s.voice v).key s]
    unfold Machine.clearOwnKey
    split
    · rfl
    · split <;> rfl
  exact (h.clearOwnKey v _).setVoice v (fun hv => (h.voice (hv' ▸ hv)).unbound _)

theorem RecordInv.fullReset (h : RecordInv s) (v : Nat) : RecordInv (fullReset P v s) :=
  (h.clearOwnKey v _).setVoice v (fun _ => voicePowerOn_wf P)

theorem RecordInv.initializeVoice (h : RecordInv s) {pt : Patch} (hr : RoutingLegal pt) (v : Nat) (req : VoiceRequest) :
    RecordInv (initializeVoice P pt v req s) :=
  ((h.clearKey _).setVoice v (fun _ => freshVoice_wf P hr _ _ req)).congr rfl

theorem RecordInv.legato (h : RecordInv s) (pt : Patch) (req : VoiceRequest) : RecordInv (legato P pt req s) := by
  have hc := h.clearKey (s.voice 0).key
  refine (hc.setVoice 0 (fun h0 => ?_)).congr rfl
  have hv := hc.voice h0
  refine hv.of_configs ?_ rfl hv.sixOutputs
  dsimp only [legatoVoice]
  refine SameConfigs.mapOps (fun o q => ?_)
  constructor <;> rfl

theorem RecordInv.initializeMonoVoice (h : RecordInv s) {pt : Patch} (hr : RoutingLegal pt) (req : VoiceRequest) :
    RecordInv (initializeMonoVoice P pt req s) := by
  unfold Machine.initializeMonoVoice
  split
  · exact (h.setVoice 1 (fun h1 => (h.voice (Nat.lt_of_le_of_lt (Nat.zero_le 1) h1)).unbound _)).initializeVoice hr 0 req
  · exact h.legato pt req
  · exact h.initializeVoice hr 0 req
  · exact h.initializeVoice hr 0 req

/-! ### Over a RENDER -/

theorem RecordInv.setSameNote (h : RecordInv s) (v : Nat) {x : Voice} (hc : SameConfigs (s.voice v).ops x.ops)
    (hf : x.filterEnv.infinite = (s.voice v).filterEnv.infinite) (hp : x.prevMod = (s.voice v).prevMod) :
    RecordInv (s.setVoice v x) :=
  h.setVoice v (fun hv => (h.voice hv).of_configs hc hf (hp ▸ (h.voice hv).sixOutputs))

theorem sustainVoice_record (P : Params) (pt : Patch) (fs : Word) (piano : Bool) (v : Voice) :
    SameConfigs v.ops (sustainVoice P pt fs piano v).ops
      ∧ (sustainVoice P pt fs piano v).filterEnv.infinite = v.filterEnv.infinite
      ∧ (sustainVoice P pt fs piano v).prevMod = v.prevMod := by
  unfold sustainVoice
  split
  · dsimp only
    split
    · have h := pianoReshape_note P pt fs { v with sustained := true }
      exact ⟨h.configs, h.filterInfinite, rfl⟩
    · exact ⟨SameConfigs.refl _, rfl, rfl⟩
  · exact ⟨SameConfigs.refl _, rfl, rfl⟩

theorem unsustainVoice_record (P : Params) (pt : Patch) (fs : Word) (piano : Bool) (v : Voice) :
    SameConfigs v.ops (unsustainVoice P pt fs piano v).ops
      ∧ (unsustainVoice P pt fs piano v).filterEnv.infinite = v.filterEnv.infinite
      ∧ (unsustainVoice P pt fs piano v).prevMod = v.prevMod := by
  unfold unsustainVoice
  split
  · dsimp only
    split
    · have h := pianoReshape_note P pt fs v
      exact ⟨h.configs, h.filterInfinite, rfl⟩
    · exact ⟨SameConfigs.refl _, rfl, rfl⟩
  · exact ⟨SameConfigs.refl _, rfl, rfl⟩

theorem RecordInv.updateSustain (h : RecordInv s) (pt : Patch) : RecordInv (updateSustain P pt s) := by
  unfold Machine.updateSustain
  dsimp only
  refine RecordInv.congr (s := if s.hostSustain then _ else if s.prevSustain then _ else s) ?_ rfl
  split
  · refine forVoices_induct RecordInv h (fun v t _ ht => ?_)
    have hk := sustainVoice_record P pt t.fs (s.mode == .poly && pt.pianoPedal) (t.voice v)
    exact ht.setSameNote v hk.1 hk.2.1 hk.2.2
  split
  · refine forVoices_induct RecordInv h (fun v t _ ht => ?_)
    have hk := unsustainVoice_record P pt t.fs (s.mode == .poly && pt.pianoPedal) (t.voice v)
    exact ht.setSameNote v hk.1 hk.2.1 hk.2.2
  · exact h

theorem RecordInv.release (h : RecordInv s) (v : Nat) : RecordInv (s.setVoice v (releaseVoice (s.voice v))) :=
  h.setVoice v (fun hv => (h.voice hv).releaseVoice)

theorem RecordInv.forceSteal (h : RecordInv s) (changed : Bool) : RecordInv (forceSteal P changed s) := by
  refine RecordInv.congr (forVoices_induct RecordInv h (fun v t _ ht => ?_)) rfl
  split
  · exact ht
  · exact ht.stealVoice v

theorem RecordInv.resolvePoly (h : RecordInv s) : RecordInv (resolvePoly s.relQ [] s) := by
  obtain ⟨t, kept, e, ht, -⟩ := resolvePoly_induct RecordInv (fun t v ht _ _ => ht.release v) s.relQ [] s h
  rw [e]
  exact ht.congr rfl

theorem RecordInv.retarget (h : RecordInv s) (pt : Patch) (n : Nat) : RecordInv (retarget P pt n s) :=
  forVoices_induct RecordInv h (fun v t _ ht => by
    have hn := retargetVoice_note P pt n (t.voice v)
    refine ht.setSameNote v hn.configs hn.filterInfinite ?_
    unfold retargetVoice
    split
    · split <;> rfl
    · rfl)

theorem RecordInv.allocatePoly (pt : Patch) (hr : RoutingLegal pt) :
    ∀ (reqs keep : List VoiceRequest) (s : State), RecordInv s → RecordInv (allocatePoly P pt reqs keep s) := by
  intro reqs
  induction reqs with
  | nil => exact fun keep s h => h.congr rfl
  | cons req reqs ih =>
    intro keep s h
    unfold Machine.allocatePoly
    split
    · exact ih _ s h
    · exact ih _ _ (h.initializeVoice hr _ req)

theorem RecordInv.allocateMono (h : RecordInv s) {pt : Patch} (hr : RoutingLegal pt) :
    RecordInv (allocateMono P pt s) := by
  unfold Machine.allocateMono
  split
  · obtain ⟨t, kept, e, ht, -⟩ := resolveMono_induct RecordInv (fun t ht _ _ => ht.release 0) s.relQ [] s h
    rw [e]
    exact ht.congr rfl
  · exact RecordInv.initializeMonoVoice (s := { s with monoReq := [], relQ := [] }) (h.congr rfl) hr _

theorem RecordInv.preRender (h : RecordInv s) {pt : Patch} (hr : RoutingLegal pt) (n : Nat) :
    RecordInv (preRender P pt n s) := by
  unfold Machine.preRender
  dsimp only
  have hl : RecordInv (latchMode pt s) := h.congr rfl
  split
  · exact hl.forceSteal _
  · unfold preRenderVoices
    split
    · exact RecordInv.allocatePoly pt hr _ _ _ (hl.resolvePoly.retarget pt n)
    · exact (hl.retarget pt n).allocateMono hr

theorem RecordInv.rendered (h : RecordInv s) (hr : Rendered s t) : RecordInv t := by
  intro w hw
  obtain ⟨i, hi, rfl⟩ := List.getElem_of_mem hw
  have hi' : i < s.voices.length := hr.pool ▸ hi
  have hv := h.voice hi'
  have hn := hr.notes i
  rw [← voice_eq_getElem t hi]
  refine hv.of_configs hn.configs hn.filterInfinite ?_
  rcases hr.outputs i with e | e
  · rw [e]
    exact hv.sixOutputs
  · exact e

theorem RecordInv.postRender (h : RecordInv s) : RecordInv (postRender P s) := by
  have hf : RecordInv (freePass P s) := forVoices_induct RecordInv h (fun v t _ ht => by
    unfold freeIfDone
    dsimp only
    split
    · split
      · exact (ht.freeVoice v).fullReset v
      · exact ht.freeVoice v
    · exact ht)
  unfold Machine.postRender
  dsimp only
  split
  · exact stealTimes_induct RecordInv (fun t v ht _ => ht.stealVoice v) _ _ (hf.congr rfl)
  · exact hf.congr rfl

theorem RecordInv.raise (h : RecordInv s) (code : FaultCode) (owes : Bool) : RecordInv (raise code owes s) := by
  cases owes <;> exact h.congr rfl

theorem RecordInv.renderSequence (h : RecordInv s) {pt : Patch} (hr : RoutingLegal pt) (n : Nat) (b m a : F32) :
    RecordInv (renderSequence P pt n b m a s) := by
  have hb : RecordInv (beforeSamples P pt n b m a s) :=
    (RecordInv.updateSustain (s := setGlobalTargets pt n b m a s) (h.congr rfl) pt).preRender hr n
  unfold Machine.renderSequence
  rcases renderSamples_spec P pt n (List.range n) (beforeSamples P pt n b m a s) with
    ⟨t, fs, e, hr', -⟩ | ⟨t, fs, e, hr', -⟩
  · rw [e]
    exact (hb.rendered hr').raise _ _
  · rw [e]
    exact (hb.rendered hr').postRender

end Sys2Proof.Machine
end

