-- ==== Sys2Proof/Laws/Run.lean ====
section
/-! SUPPORT. Runs (70_reset_and_hazards.md R380): what a move can do, and the induction over a run's moves. -/

namespace Sys2Proof.Machine

@[simp] theorem drained_iff (s : State) : s.drained = true ↔ s.respPort = [] ∧ s.framePort = [] := by
  simp [State.drained]

/-- Everything a move can do. -/
theorem runMove_cases {m : RunMove} {s t : State} (h : runMove m s = some t) :
    (∃ w, m = .send w ∧ t = { s with cmdPort := s.cmdPort ++ [w] })
    ∨ (∃ w ws, m = .takeResponse ∧ s.respPort = w :: ws ∧ t = { s with respPort := ws })
    ∨ (∃ f fs, m = .takeFrame ∧ s.framePort = f :: fs ∧ t = { s with framePort := fs })
    ∨ (m = .engine ∧ step s = .next t) := by
  cases m with
  | send w => exact .inl ⟨w, rfl, (Option.some.inj h).symm⟩
  | takeResponse =>
    simp only [runMove] at h
    split at h
    · cases h
    · next w ws e => exact .inr (.inl ⟨w, ws, rfl, e, (Option.some.inj h).symm⟩)
  | takeFrame =>
    simp only [runMove] at h
    split at h
    · cases h
    · next f fs e => exact .inr (.inr (.inl ⟨f, fs, rfl, e, (Option.some.inj h).symm⟩))
  | engine =>
    simp only [runMove] at h
    split at h
    · next u e => exact .inr (.inr (.inr ⟨rfl, e.trans (congrArg _ (Option.some.inj h))⟩))
    · cases h
    · cases h

/-- What the host's moves and every step keep, a sequence of moves keeps. -/
theorem runMoves_keep {I : State → Prop}
    (host : ∀ s t : State, I s → t = { s with cmdPort := t.cmdPort, respPort := t.respPort, framePort := t.framePort } →
      (∀ f ∈ t.framePort, f ∈ s.framePort) → I t)
    (engine : ∀ s t : State, I s → step s = .next t → I t) :
    ∀ (ms : List RunMove) (s t : State), I s → runMoves ms s = some t → I t
  | [], _, _, hs, h => Option.some.inj h ▸ hs
  | m :: ms, s, t, hs, h => by
    simp only [runMoves] at h
    split at h
    · cases h
    · next u e =>
      refine runMoves_keep host engine ms u t ?_ h
      rcases runMove_cases e with ⟨w, -, rfl⟩ | ⟨w, ws, -, hr, rfl⟩ | ⟨f, fs, -, hf, rfl⟩ | ⟨-, he⟩
      · exact host s _ hs rfl (fun _ h => h)
      · exact host s _ hs rfl (fun _ h => h)
      · exact host s _ hs rfl (fun g hg => hf ▸ List.mem_cons_of_mem f hg)
      · exact engine s u hs he

/-- What holds at reset and every move keeps holds at every state of a run. -/
theorem isRun_keep {I : State → Prop} (reset : I State.reset)
    (host : ∀ s t : State, I s → t = { s with cmdPort := t.cmdPort, respPort := t.respPort, framePort := t.framePort } →
      (∀ f ∈ t.framePort, f ∈ s.framePort) → I t)
    (engine : ∀ s t : State, I s → step s = .next t → I t) {ms : List RunMove} {t : State} (h : isRun ms t) : I t :=
  runMoves_keep host engine ms State.reset t reset h

end Sys2Proof.Machine
end

