-- ==== Sys2Proof/Laws/Silence.lean ====
section
/-! SUPPORT. A RENDER of an idle pool: the steps before the samples leave it idle, and each sample is silence
(41_lifecycle.md R210, R215). -/

namespace Sys2Proof.Machine

/-- No voice sounds and no request waits. -/
structure AllIdle (x : Bool) (t : State) : Prop where
  idle : ∀ v, (t.voice v).state = .idle
  poly : t.polyReq = []
  mono : t.monoReq = []
  prev : t.prevSustain = x

theorem voice_idle_of {s : State} (h : ∀ v ∈ s.voices, v.state = .idle) (v : Nat) : (s.voice v).state = .idle := by
  unfold State.voice
  rw [List.getD_eq_getElem?_getD]
  cases e : s.voices[v]? with
  | none => rfl
  | some x => exact h x (List.mem_of_getElem? e)

theorem mem_idle_of {s : State} (h : ∀ v, (s.voice v).state = .idle) : ∀ v ∈ s.voices, v.state = .idle := by
  intro x hx
  obtain ⟨i, hi, rfl⟩ := List.getElem_of_mem hx
  rw [← voice_eq_getElem s hi]
  exact h i

theorem AllIdle.setVoice {x : Bool} {t : State} (h : AllIdle x t) (v : Nat) {w : Voice} (hw : w.state = .idle) : AllIdle x (t.setVoice v w) where
  idle u := by
    rw [voice_setVoice_any]
    split
    · exact hw
    · exact h.idle u
  poly := h.poly
  mono := h.mono
  prev := h.prev

theorem AllIdle.updateSustain {x : Bool} {s : State} (h : AllIdle x s) (P : Params) (pt : Patch) : AllIdle s.hostSustain (updateSustain P pt s) := by
  have key : ∀ {u : State}, AllIdle x u → u.hostSustain = s.hostSustain → AllIdle s.hostSustain { u with prevSustain := u.hostSustain } :=
    fun hu e => ⟨hu.idle, hu.poly, hu.mono, e⟩
  unfold Machine.updateSustain
  dsimp only
  split
  · obtain ⟨h1, h2⟩ := forVoices_induct (P := P) (f := fun v t => t.setVoice v (sustainVoice P pt t.fs (s.mode == .poly && pt.pianoPedal) (t.voice v))) (s := s)
      (fun t => AllIdle x t ∧ t.hostSustain = s.hostSustain) ⟨h, rfl⟩
      (fun v t _ ht => ⟨ht.1.setVoice v (by rw [(sustainVoice_keeps P pt _ _ _).2.1]; exact ht.1.idle v), ht.2⟩)
    exact key h1 h2
  split
  · obtain ⟨h1, h2⟩ := forVoices_induct (P := P) (f := fun v t => t.setVoice v (unsustainVoice P pt t.fs (s.mode == .poly && pt.pianoPedal) (t.voice v))) (s := s)
      (fun t => AllIdle x t ∧ t.hostSustain = s.hostSustain) ⟨h, rfl⟩
      (fun v t _ ht => ⟨ht.1.setVoice v (by rw [(unsustainVoice_keeps P pt _ _ _).2.1]; exact ht.1.idle v), ht.2⟩)
    exact key h1 h2
  · exact key h rfl

theorem AllIdle.preRender {x : Bool} {s : State} (h : AllIdle x s) (P : Params) (pt : Patch) (n : Nat) :
    AllIdle x (preRender P pt n s) := by
  have hl : AllIdle x (latchMode pt s) := ⟨h.idle, h.poly, h.mono, h.prev⟩
  unfold Machine.preRender
  dsimp only
  split
  · unfold forceSteal
    dsimp only
    have := forVoices_induct (P := P) (f := fun v t => if (t.voice v).state = .idle then t else stealVoice v t)
      (s := latchMode pt s) (AllIdle x) hl (fun v t _ ht => by rw [if_pos (ht.idle v)]; exact ht)
    exact ⟨this.idle, rfl, rfl, this.prev⟩
  · have hre : ∀ {u : State}, AllIdle x u → AllIdle x (retarget P pt n u) := fun hu =>
      forVoices_induct (AllIdle x) hu (fun v t _ ht => ht.setVoice v (by rw [(retargetVoice_note P pt n _).state]; exact ht.idle v))
    unfold preRenderVoices
    split
    · obtain ⟨u, kept, e, hu, -⟩ := resolvePoly_induct (AllIdle x) (fun t v ht hp _ => by rw [ht.idle v] at hp; cases hp) (latchMode pt s).relQ [] _ hl
      have h1 : AllIdle x (retarget P pt n (resolvePoly (latchMode pt s).relQ [] (latchMode pt s))) :=
        hre (by rw [e]; exact ⟨hu.idle, hu.poly, hu.mono, hu.prev⟩)
      dsimp only
      rw [h1.poly]
      exact ⟨h1.idle, rfl, h1.mono, h1.prev⟩
    · have h1 := hre hl
      unfold allocateMono
      rw [h1.mono]
      dsimp only
      obtain ⟨u, kept, e, hu, -⟩ := resolveMono_induct (AllIdle x) (fun t ht hp _ => by rw [ht.idle 0] at hp; cases hp) (retarget P pt n (latchMode pt s)).relQ [] _ h1
      rw [e]
      exact ⟨hu.idle, hu.poly, hu.mono, hu.prev⟩

/-- With every voice Idle the voices add nothing (41_lifecycle.md R212). -/
theorem mixVoices_idle (P : Params) (pt : Patch) (j n : Nat) (vs : List Nat) {s : State} (h : ∀ v, (s.voice v).state = .idle) (l r : F32) :
    mixVoices P pt j n vs s l r = .ok (l, r, s) := by
  induction vs with
  | nil => rfl
  | cons v vs ih => rw [mixVoices, if_pos (h v), ih]

/-- Samples of an idle pool emit silence (R210, R215). -/
theorem renderSamples_idle {x : Bool} (P : Params) (pt : Patch) (n : Nat) (js : List Nat) {s : State} (h : AllIdle x s) :
    ∃ t, renderSamples P pt n js s = .ok t ∧ AllIdle x t ∧ t.mode = s.mode ∧ t.framePort = s.framePort ++ List.replicate js.length ⟨fZero, fZero⟩ := by
  induction js generalizing s with
  | nil => exact ⟨s, rfl, h, rfl, by simp⟩
  | cons j js ih =>
    have e : renderSample P pt n j s = .ok (emit fZero fZero (advanceGlobals pt s)) := by
      unfold renderSample
      rw [mixVoices_idle (s := advanceGlobals pt s) (h := h.idle)]
      rfl
    obtain ⟨t, e', h', hm, hf⟩ := ih (s := emit fZero fZero (advanceGlobals pt s)) ⟨h.idle, h.poly, h.mono, h.prev⟩
    refine ⟨t, by rw [renderSamples, e]; exact e', h', hm, ?_⟩
    rw [hf]
    simp [emit, advanceGlobals, List.replicate_succ]

end Sys2Proof.Machine
end

