-- ==== Sys2Proof/Laws/VoiceOps.lean ====
section
/-! SUPPORT. What the voice-level micro-operations (42_voice_ops.md R247 to R249) leave in the pool, voice by
voice. -/

namespace Sys2Proof.Machine

/-- Clearing a key leaves the pool. -/
theorem voice_clearOwnKey (v : Nat) (k : Option Nat) (s : State) (u : Nat) : (clearOwnKey v k s).voice u = s.voice u := by
  unfold clearOwnKey
  split
  · rfl
  · split <;> rfl

theorem length_clearOwnKey (v : Nat) (k : Option Nat) (s : State) : (clearOwnKey v k s).voices.length = s.voices.length := by
  unfold clearOwnKey
  split
  · rfl
  · split <;> rfl

/-- The pool after FreeVoice (R248). -/
theorem voice_freeVoice (v : Nat) (s : State) (u : Nat) : (freeVoice v s).voice u = if u = v ∧ v < s.voices.length then unbound .idle (s.voice v) else s.voice u := by
  unfold freeVoice
  dsimp only
  rw [voice_setVoice_any, length_clearOwnKey, voice_clearOwnKey]

/-- The pool after FullReset (R249). -/
theorem voice_fullReset (P : Params) (v : Nat) (s : State) (u : Nat) : (fullReset P v s).voice u = if u = v ∧ v < s.voices.length then voicePowerOn P else s.voice u := by
  unfold fullReset
  rw [voice_setVoice_any, length_clearOwnKey, voice_clearOwnKey]

theorem length_freeVoice (v : Nat) (s : State) : (freeVoice v s).voices.length = s.voices.length := by
  unfold freeVoice; dsimp only; rw [voices_length_setVoice, length_clearOwnKey]

theorem length_fullReset (P : Params) (v : Nat) (s : State) : (fullReset P v s).voices.length = s.voices.length := by
  unfold fullReset; rw [voices_length_setVoice, length_clearOwnKey]

/-- The pool after one turn of the free pass (41_lifecycle.md R221). -/
theorem voice_freeIfDone (P : Params) (v : Nat) (s : State) (hv : v < s.voices.length) (u : Nat) :
    (freeIfDone P v s).voice u = if u = v ∧ ((s.voice v).state = .stolen ∨ ((s.voice v).state ≠ .idle ∧ isDone (s.voice v) = true)) then
      (if s.switchPending then voicePowerOn P else unbound .idle (s.voice v)) else s.voice u := by
  unfold freeIfDone
  dsimp only
  by_cases hf : ((s.voice v).state = .stolen ∨ ((s.voice v).state ≠ .idle ∧ isDone (s.voice v) = true))
  · rw [if_pos hf]
    by_cases e : u = v
    · subst e
      have e1 : (u = u ∧ ((s.voice u).state = .stolen ∨ ((s.voice u).state ≠ .idle ∧ isDone (s.voice u) = true))) := ⟨rfl, hf⟩
      rw [if_pos e1]
      by_cases hs : s.switchPending = true
      · rw [if_pos hs, if_pos hs, voice_fullReset, length_freeVoice, if_pos ⟨rfl, hv⟩]
      · rw [if_neg hs, if_neg hs, voice_freeVoice, if_pos ⟨rfl, hv⟩]
    · have e1 : ¬ (u = v ∧ ((s.voice v).state = .stolen ∨ ((s.voice v).state ≠ .idle ∧ isDone (s.voice v) = true))) := fun h => e h.1
      have e2 : ¬ (u = v ∧ v < s.voices.length) := fun h => e h.1
      rw [if_neg e1]
      by_cases hs : s.switchPending = true
      · rw [if_pos hs, voice_fullReset, length_freeVoice, if_neg e2, voice_freeVoice, if_neg e2]
      · rw [if_neg hs, voice_freeVoice, if_neg e2]
  · rw [if_neg hf, if_neg (fun h => hf h.2)]

theorem length_freeIfDone (P : Params) (v : Nat) (s : State) : (freeIfDone P v s).voices.length = s.voices.length := by
  unfold freeIfDone
  dsimp only
  split
  · split
    · rw [length_fullReset, length_freeVoice]
    · rw [length_freeVoice]
  · rfl

/-- One turn of the free pass writes the pool and the key map only. -/
theorem PoolOnly.freeIfDone (P : Params) (v : Nat) (s : State) : PoolOnly s (freeIfDone P v s) := by
  unfold Machine.freeIfDone
  dsimp only
  split
  · split
    · exact (PoolOnly.freeVoice v s).trans (PoolOnly.fullReset P v _)
    · exact PoolOnly.freeVoice v s
  · exact PoolOnly.refl s

/-- The pool after StealVoice (R247). -/
theorem voice_stealVoice (v : Nat) (s : State) (u : Nat) : (stealVoice v s).voice u = if u = v ∧ v < s.voices.length then unbound .stolen (s.voice v) else s.voice u := by
  unfold stealVoice
  dsimp only
  rw [voice_clearKey, voice_setVoice_any]

/-- StealPass writes the pool and the key map only (41_lifecycle.md R222). -/
theorem stealPass_pool (P : Params) (s : State) : PoolOnly s (stealPass P s) :=
  stealTimes_induct (PoolOnly s) (fun t v ht _ => ht.trans (PoolOnly.stealVoice v t)) _ s (PoolOnly.refl s)

/-- UpdateSustain writes the voices and PREV_SUSTAIN only (41_lifecycle.md R185). -/
theorem updateSustain_keeps (P : Params) (pt : Patch) (s : State) :
    updateSustain P pt s = { s with voices := (updateSustain P pt s).voices, prevSustain := s.hostSustain } := by
  unfold updateSustain
  dsimp only
  split
  · have := PoolOnly.forVoices (P := P) (f := fun v t => t.setVoice v (sustainVoice P pt t.fs (s.mode == .poly && pt.pianoPedal) (t.voice v))) (fun v t => PoolOnly.setVoice t v _) s
    have hk := forVoices_induct (P := P) (f := fun v t => t.setVoice v (sustainVoice P pt t.fs (s.mode == .poly && pt.pianoPedal) (t.voice v))) (s := s) (fun t => t.keymap = s.keymap) rfl (fun v t _ h => h)
    rw [this, hk]
  split
  · have := PoolOnly.forVoices (P := P) (f := fun v t => t.setVoice v (unsustainVoice P pt t.fs (s.mode == .poly && pt.pianoPedal) (t.voice v))) (fun v t => PoolOnly.setVoice t v _) s
    have hk := forVoices_induct (P := P) (f := fun v t => t.setVoice v (unsustainVoice P pt t.fs (s.mode == .poly && pt.pianoPedal) (t.voice v))) (s := s) (fun t => t.keymap = s.keymap) rfl (fun v t _ h => h)
    rw [this, hk]
  · rfl

end Sys2Proof.Machine
end

