-- ==== Sys2Proof/Machine/Reference.lean ====
section
/-! DEFINITION. The reference definitions the spec gives for its own test vectors, and the test parameter set T
(44_control_units.md R320): one value of the parameter record. Nothing the machine does rests on them: the machine runs
with the free constants of Config.lean. The transcendental functions of T are the correctly rounded ones, computed in
fixed point to 256 binary places and rounded once (log 17). -/

namespace Sys2Proof.Machine

/-- The transcendental parameter functions (00_scope.md R10). -/
structure Transcendentals where
  exp2 : F32 → F32
  exp : F32 → F32
  log : F32 → F32
  atan : F32 → F32

/-! ### Exact selection (00_scope.md R10)

R10 calls min, max and clamp01 exact and does not say what they give for a NaN or for zeros of unlike sign. DESIGN
CHOICE (log 18): the first operand, wherever neither is less than the other. -/

/-- max(x, y); x where the two do not compare, or compare equal (DESIGN CHOICE, log 18). -/
def fmax (x y : F32) : F32 := if flt x y then y else x

/-- min(x, y); x where the two do not compare, or compare equal (DESIGN CHOICE, log 18). -/
def fmin (x y : F32) : F32 := if flt y x then y else x

/-- clamp01(x) = min(max(x, 0.0), 1.0); a NaN stays as it is (DESIGN CHOICE, log 18). -/
def clamp01 (x : F32) : F32 := fmin (fmax x fZero) fOne

/-! ### Reference EnvMath (44_control_units.md R302, R307) -/

/-- `Coef(n, r)`. -/
def refCoef (X : Transcendentals) (n : Nat) (r : F32) : F32 :=
  if n = 0 then fZero else X.exp (fdiv (negate (X.log (fdiv (fadd fOne r) r))) (fofNat n))

/-- The reference math record, as words in the order of R302. -/
structure RefMath where
  nA : Nat
  cA : F32
  bA : F32
  nD : Nat
  cD : F32
  bD : F32
  nR0 : Nat
  nR : Nat
  cR : F32
  bR : F32
  nP : Nat
  cP : F32
  bP : F32
  deriving DecidableEq, Repr

def RefMath.toWords (m : RefMath) : UnitData :=
  [BitVec.ofNat 32 m.nA, m.cA, m.bA, BitVec.ofNat 32 m.nD, m.cD, m.bD, BitVec.ofNat 32 m.nR0, BitVec.ofNat 32 m.nR,
    m.cR, m.bR, BitVec.ofNat 32 m.nP, m.cP, m.bP]

def RefMath.ofWords (u : UnitData) : RefMath :=
  let w := fun k => u.getD k 0
  ⟨(w 0).toNat, w 1, w 2, (w 3).toNat, w 4, w 5, (w 6).toNat, (w 7).toNat, w 8, w 9, (w 10).toNat, w 11, w 12⟩

/-- `EnvTimeFn(t) = 10.0 × (t × t)` seconds (R302). -/
def refEnvTime (t : F32) : F32 := fmul 0x41200000#32 (fmul t t)

/-- The reference `EnvInit` (R302). -/
def refEnvInit (X : Transcendentals) (p : EnvParams) (fs : Word) (_isCarrier : Bool) (kts vs : F32) : UnitData :=
  let f := fofNat fs.toNat
  let nA := rint (fmul (fmul (fmul (refEnvTime p.attack) kts) vs) f)
  let nD := rint (fmul (fmul (refEnvTime p.decay) kts) f)
  let nR := rint (fmul (fmul (refEnvTime p.release) kts) f)
  let cA := refCoef X nA p.attackRatio
  let cD := refCoef X nD p.decayRatio
  let cR := refCoef X nR p.releaseRatio
  RefMath.toWords
    { nA := nA, cA := cA, bA := fmul (fadd fOne p.attackRatio) (fsub fOne cA)
      nD := nD, cD := cD, bD := fmul (fsub p.sustain p.decayRatio) (fsub fOne cD)
      nR0 := nR, nR := nR, cR := cR, bR := fmul (fsub fZero p.releaseRatio) (fsub fOne cR)
      nP := 0, cP := fZero, bP := fZero }

/-- One falling segment of the reference `EnvStep`: it ends at `floor`. -/
def refFall (n : Nat) (b c l floor : F32) : F32 × Bool :=
  if n = 0 then (floor, true)
  else
    let l' := fadd b (fmul l c)
    if fle l' floor then (floor, true) else (l', false)

/-- The reference `EnvStep` (R302). -/
def refEnvStep (u : UnitData) (stage : EnvStage) (l S : F32) : F32 × Bool :=
  let m := RefMath.ofWords u
  match stage with
  | .attack =>
    if m.nA = 0 then (fOne, true)
    else
      let l' := fadd m.bA (fmul l m.cA)
      if fle fOne l' then (fOne, true) else (l', false)
  | .decay => refFall m.nD m.bD m.cD l S
  | .release => refFall m.nR m.bR m.cR l fZero
  | .pianoSustain => refFall m.nP m.bP m.cP l fZero
  | _ => (l, false)

/-- The reference `PianoSustainFn` (R307). -/
def refPianoSustain (X : Transcendentals) (e : Envelope) (fs : Word) (falloff relMul : F32) : UnitData :=
  let m := RefMath.ofWords e.math
  let nP := rint (fmul (fadd fOne (fmul 0x41E80000#32 falloff)) (fofNat fs.toNat))
  let cP := refCoef X nP e.params.decayRatio
  let nR := rint (fmul (fofNat m.nR0) relMul)
  let cR := refCoef X nR e.params.releaseRatio
  RefMath.toWords
    { m with nP := nP, cP := cP, bP := fmul (fsub fZero e.params.decayRatio) (fsub fOne cP)
             nR := nR, cR := cR, bR := fmul (fsub fZero e.params.releaseRatio) (fsub fOne cR) }

/-! ### The other reference functions -/

/-- `WaveFn_T` (R320): a naive sawtooth for every code. -/
def refWave (_code : BitVec 4) (ext : UnitData) (phase ps _fe : F32) (_fs : Word) : F32 × UnitData :=
  (fsub (fmul 0x40000000#32 (frac (fadd phase ps))) fOne, ext)

/-- The reference `DriveShapeFn` (43_operator_graph.md R270). -/
def refDrive (X : Transcendentals) (x d : F32) : F32 :=
  let k := fadd fOne (fmul 0x41700000#32 d)
  fdiv (X.atan (fmul x k)) (X.atan k)

/-- The reference `OpRatioFn` (42_voice_ops.md R238). -/
def refOpRatio (c : BitVec 8) (f : F32) : F32 := fmul (fofNat c.toNat) (fadd fOne f)

/-- The reference `AmpTargetFn` (42_voice_ops.md R239). -/
def refAmpTarget (o vs ks : F32) (k : Nat) (vel : F32) : F32 :=
  let velF := fadd (fsub fOne vs) (fmul vs vel)
  let keyF := fsub fOne (fmul ks (fdiv (fofNat k) 0x42FE0000#32))
  fmul (fmul o velF) keyF

/-- The reference `EnvScaleFn` (42_voice_ops.md R232). -/
def refEnvScale (t : F32) (k : Nat) (_vel : F32) : F32 × F32 :=
  (fsub fOne (fmul t (fdiv (fofNat k) 0x42FE0000#32)), fOne)

/-- The reference `PanFn` (43_operator_graph.md R273). -/
def refPan (p L pm : F32) : F32 := clamp01 (fadd p (fmul (fmul L pm) 0x3F000000#32))

/-- The reference `AmpBendFn` (41_lifecycle.md R214). -/
def refAmpBend (b depth : F32) : F32 := fmax fZero (fadd fOne (fmul depth b))

/-! ### Correctly rounded transcendentals, in fixed point with `fixBits` binary places -/

def fixBits : Nat := 256

/-- Sum of `term / k!`-like series: each further term is the last times `r` over `k`. -/
def expSeries (r : Nat) : Nat → Nat → Nat → Nat → Nat
  | 0, _, _, acc => acc
  | fuel + 1, k, term, acc => expSeries r fuel (k + 1) (term * r / 2 ^ fixBits / k) (acc + term)

/-- e^r for a fixed-point `r` below 1. -/
def expFix (r : Nat) : Nat := expSeries r 80 1 (2 ^ fixBits) 0

/-- Sum of 1 / (k 2^k). -/
def ln2Series : Nat → Nat → Nat → Nat
  | 0, _, acc => acc
  | fuel + 1, k, acc => ln2Series fuel (k + 1) (acc + 2 ^ fixBits / 2 ^ k / k)

def ln2Fix : Nat := ln2Series 260 1 0

/-- Sum of z^(2k+1) / (2k+1), with `zz` the square of z. -/
def atanhSeries (zz : Nat) : Nat → Nat → Nat → Nat → Nat
  | 0, _, _, acc => acc
  | fuel + 1, k, term, acc => atanhSeries zz fuel (k + 2) (term * zz / 2 ^ fixBits) (acc + term / k)

/-- Euler's series for atan: each further term is the last times 2k/(2k+1) times y. -/
def atanSeries (y : Nat) : Nat → Nat → Nat → Nat → Nat
  | 0, _, _, acc => acc
  | fuel + 1, k, term, acc => atanSeries y fuel (k + 1) (term * (2 * k) / (2 * k + 1) * y / 2 ^ fixBits) (acc + term)

/-- The pattern nearest to the fixed-point magnitude `m` times 2^e. -/
def roundFix (neg : Bool) (m : Nat) (e : Int) : F32 :=
  if 300 < e then fPack neg 0x7F800000
  else if e < -300 then fPack neg 0
  else
    let k : Int := e - fixBits + 149
    if 0 ≤ k then roundMag neg (m * 2 ^ k.toNat) 0 else roundMag neg m (-k).toNat

/-- 2^x for x in units of 2^-149. -/
def exp2Units (x : Int) : F32 :=
  let q := x / 2 ^ 149
  let f := (x % 2 ^ 149).toNat
  roundFix false (expFix (f * ln2Fix / 2 ^ 149)) q

/-- T's EXP2 (R320). A NaN operand comes back as it is (DESIGN CHOICE, log 19); an infinity gives the limit (DEDUCED,
log 19). -/
def exactExp2 (x : F32) : F32 :=
  if isNaN x then x else if isInf x then (if fNeg x then fZero else x) else exp2Units (fVal x)

/-- T's EXP (R320). A NaN operand comes back as it is (DESIGN CHOICE, log 19); an infinity gives the limit (DEDUCED,
log 19). -/
def exactExp (x : F32) : F32 :=
  if isNaN x then x
  else if isInf x then (if fNeg x then fZero else x)
  else
    let v : Int := fVal x * 2 ^ (fixBits - 149)
    roundFix false (expFix (v % (ln2Fix : Int)).toNat) (v / (ln2Fix : Int))

/-- T's LOG (R320). A NaN operand comes back as it is and a negative one gives the NaN 0x7FC00000 (DESIGN CHOICE,
log 19); a zero of either sign and +infinity give the limit (DEDUCED, log 19). -/
def exactLog (x : F32) : F32 :=
  if isNaN x then x
  else if isFinite x && fMag x == 0 then fPack true 0x7F800000
  else if fNeg x then 0x7FC00000#32
  else if isInf x then x
  else
    let n := fMag x
    let b := Nat.log2 n
    let z := (n - 2 ^ b) * 2 ^ fixBits / (n + 2 ^ b)
    let lnm : Nat := 2 * atanhSeries (z * z / 2 ^ fixBits) 170 1 z 0
    let v : Int := (lnm : Int) + ((b : Int) - 149) * (ln2Fix : Int)
    roundFix (decide (v < 0)) v.natAbs 0

/-- atan of a fixed-point number at most 1. -/
def atanFix (t : Nat) : Nat :=
  let d := 2 ^ fixBits + t * t / 2 ^ fixBits
  let y := t * t / d
  atanSeries y 270 1 (t * 2 ^ fixBits / d) 0

/-- T's ATAN (R320). A NaN operand comes back as it is (DESIGN CHOICE, log 19); an infinity gives the limit and a zero
keeps its sign (DEDUCED, log 19). -/
def exactAtan (x : F32) : F32 :=
  if isNaN x then x
  else
    let quarter := atanFix (2 ^ fixBits)
    if isInf x then roundFix (fNeg x) (2 * quarter) 0
    else
      let n := fMag x
      if n ≤ 2 ^ 149 then roundFix (fNeg x) (atanFix (n * 2 ^ (fixBits - 149))) 0
      else roundFix (fNeg x) (2 * quarter - atanFix (2 ^ (fixBits + 149) / n)) 0

/-- The reference `KeyFreqTable` (42_voice_ops.md R231): 440 × 2^((k - 69) / 12) Hz. -/
def refKeyFreq (k : Nat) : F32 :=
  let d : Int := (k : Int) - 69
  roundFix false (440 * expFix ((d % 12).toNat * ln2Fix / 12)) (d / 12)

def exactTranscendentals : Transcendentals := ⟨exactExp2, exactExp, exactLog, exactAtan⟩

/-- The test parameter set T (44_control_units.md R320). -/
def setT : Params where
  maxVoices := 8
  maxBlock := 4096
  stealReleaseBias := 0x3F000000#32
  feedbackBrightness := 0x3F000000#32
  feedbackEma := 0x3E800000#32
  silenceEps := fZero
  vibratoRange := fOne
  waveFn := refWave
  envInit := refEnvInit exactTranscendentals
  envStep := refEnvStep
  pianoSustainFn := refPianoSustain exactTranscendentals
  opFilterFn := fun _ s _ _ x => (x, s)
  voiceFilterFn := fun s l r _ _ _ _ _ => (l, r, s)
  driveShapeFn := refDrive exactTranscendentals
  opRatioFn := refOpRatio
  ampTargetFn := refAmpTarget
  envScaleFn := refEnvScale
  panFn := refPan
  ampBendFn := refAmpBend
  keyFreqTable := refKeyFreq
  exp2 := exactExp2
  waveExtInit := []
  ofInit := []
  vfInit := []
  envMathInit := List.replicate 13 0

end Sys2Proof.Machine
end

