-- ==== Sys2Proof/Tests/Slice0.lean ====
section
/-! SUPPORT. The row's own tests. Expected values are from the spec: the words of 30_encoding.md and of its vectors E,
and the results of 95_test_vectors.md, which hold under the test parameter set T (44_control_units.md R320). The second
part gives, for every obligation with hypotheses, a state and operands that meet them. -/

namespace Sys2Proof.Tests

open Sys2Proof Sys2Proof.Machine Sys2Proof.Claims

/-! ### Well-formedness: an ill-formed term for each check -/

theorem test_wf_noteOn_key : (Instr.noteOn 128 0 0 0).wellFormed = false := by decide
theorem test_wf_noteOff_key : (Instr.noteOff 128 0).wellFormed = false := by decide
theorem test_wf_render_samples : (Instr.render 65536 0 0 0).wellFormed = false := by decide
theorem test_wf_patchWrite_addr : (Instr.patchWrite 65536 0).wellFormed = false := by decide
theorem test_wf_patchRead_addr : (Instr.patchRead 65536).wellFormed = false := by decide
theorem test_wf_statusRead_addr : (Instr.statusRead 65536).wellFormed = false := by decide

/-! ### Decoding: words written out from the spec (95_test_vectors.md E, 30_encoding.md R101) -/

theorem test_decode_noteOn :
    decode [0x014A0000#32, 0xBF800000#32, 0x3F800000#32, 0x00000001#32]
      = .command (.noteOn 74 0xBF800000#32 0x3F800000#32 1) [] := by decide

/-- KEY 127 is bits 22 to 16 all ones. -/
theorem test_decode_noteOff : decode [0x027F0000#32, 0xFFFFFFFF#32] = .command (.noteOff 127 0xFFFFFFFF#32) [] := by
  decide

theorem test_decode_sustain_up : decode [0x03000000#32] = .command (.sustain false) [] := by decide
theorem test_decode_sustain_down : decode [0x03000001#32] = .command (.sustain true) [] := by decide

theorem test_decode_render :
    decode [0x04000004#32, 0x00000000#32, 0x3F800000#32, 0x00000000#32]
      = .command (.render 4 0x00000000#32 0x3F800000#32 0x00000000#32) [] := by decide

theorem test_decode_setSampling :
    decode [0x05000000#32, 0x0000BB80#32, 0x00000004#32] = .command (.setSampling 48000 4) [] := by decide

theorem test_decode_resetVoices : decode [0x06000000#32] = .command .resetVoices [] := by decide

theorem test_decode_patchWrite :
    decode [0x07000005#32, 0x3C23D70A#32] = .command (.patchWrite 0x005 0x3C23D70A#32) [] := by decide

theorem test_decode_patchRead : decode [0x08000045#32] = .command (.patchRead 0x045) [] := by decide
theorem test_decode_patchReset : decode [0x09000000#32] = .command .patchReset [] := by decide
theorem test_decode_statusRead : decode [0x0A00FFFF#32] = .command (.statusRead 0xFFFF) [] := by decide

/-- The packets of the decode-fault table, each refused for its own reason. -/
theorem test_decode_faults :
    decode [0x0B000000#32] = .illegal 0x0B000000#32 .reservedOpcode []
    ∧ decode [0x00000000#32] = .illegal 0x00000000#32 .reservedOpcode []
    ∧ decode [0x03800000#32] = .illegal 0x03800000#32 .reservedBit []
    ∧ decode [0x03000002#32] = .illegal 0x03000002#32 .strayImm16 []
    ∧ decode [0x04010001#32, 0, 0, 0] = .illegal 0x04010001#32 .strayKey []
    ∧ decode [0x013C0001#32, 0xBF800000#32, 0x3F800000#32, 0] = .illegal 0x013C0001#32 .strayImm16 [] := by decide

/-- A whole packet has to be there before anything is decided (30_encoding.md R115). -/
theorem test_decode_partial : decode [0x013C0001#32, 0, 0] = .partialPacket ∧ decode [] = .empty := by decide

/-- The host's numbering: the header is the low word, absent payload words are zero. -/
theorem test_decode_tableWord :
    decodeTableWord 32 0x01000000 = some (.noteOn 0 0 0 0)
    ∧ decodeTableWord 64 (0x3F000000 * 2 ^ 32 + 0x07000045) = some (.patchWrite 0x045 0x3F000000#32)
    ∧ decodeTableWord 32 0x0B000000 = none := by decide

/-! ### One command each, under the test parameters with two voices -/

/-- The test parameters with the smallest pool. -/
def pair : Params := { setT with maxVoices := 2 }

/-- Power-on, then `SET_SAMPLING 48000, 64`. -/
def sampled : State := setSampling pair 48000 64 (resetWith pair)

/-- The note of the operator vectors G: `NOTE_ON 60, 3000.0, 1.0, 0` after the base setup. -/
def noted : State := noteOn 60 0x453B8000#32 fOne 0 sampled

/-- Scenario 1, timing A: the queue is full at CUR_POLY = 4, so key 74 replaces the oldest request, key 60. -/
theorem test_noteOn_replaces_oldest :
    ((noteOn 74 fNegOne fOne 1
      { resetWith pair with curPoly := 4, polyReq := [⟨60, fNegOne, fOne, 0, false⟩, ⟨64, fNegOne, fOne, 0, false⟩,
                                                      ⟨67, fNegOne, fOne, 0, false⟩, ⟨71, fNegOne, fOne, 0, false⟩] }
      ).polyReq.map VoiceRequest.key) = [64, 67, 71, 74] := by decide +kernel

/-- F: `NOTE_ON 60, -1.0, 1.5, 0` is BAD_OPERAND. -/
theorem test_noteOn_velocity_range : faultNumber (noteOn 60 fNegOne 0x3FC00000#32 0 (resetWith pair)).fault = 4 := by
  decide +kernel

/-- P4-a: the second NOTE_OFF of key 64 cancels its pending request and queues no second release. -/
theorem test_noteOff_cancels_once :
    (let s := noteOff pair 64 2
      { resetWith pair with polyReq := [⟨60, fNegOne, fOne, 0, false⟩, ⟨64, fNegOne, fOne, 0, false⟩], relQ := [⟨64, 1⟩] }
     (s.polyReq.map VoiceRequest.key, s.relQ.map ReleaseRequest.key)) = ([60], [64]) := by decide +kernel

/-- Scenario 2, step 4: voice 0 sounds, so releasing 60 with 64 held queues the retrigger (64, 1). -/
theorem test_noteOff_mono_retriggers :
    (let sounding : Operator :=
        { operatorPowerOn pair with enabled := true, carrier := true, amp := setImmediate fOne
                                    env := { envIdle pair with stage := .sustain, level := fOne } }
     let s := noteOff pair 60 2
      { resetWith pair with mode := .mono, monoSeq := [⟨64, fNegOne, fOne⟩, ⟨60, fNegOne, fOne⟩]
                            voices := [{ voicePowerOn pair with state := .playing, ops := [sounding] }] }
     (s.monoReq.map (fun r => (r.key, r.monoRetrigger)), s.monoSeq.map SeqEntry.key, s.relQ.map ReleaseRequest.key))
      = ([(64, true)], [64], [60]) := by decide +kernel

/-- The pedal bit alone moves (40_host_commands.md R145). -/
theorem test_sustain_down :
    (let s := sustainPedal true (resetWith pair); (s.hostSustain, s.prevSustain)) = (true, false) := by decide +kernel

/-- G-1: the default carrier's first two frames. -/
theorem test_render_carrier :
    (render pair 2 fZero fZero fZero noted).framePort
      = [⟨0xBF3504F3#32, 0xBF3504F3#32⟩, ⟨0xBF1E6455#32, 0xBF1E6455#32⟩] := by decide +kernel

/-- G-2: operator 1 is the carrier and hears operator 0's previous output: none at sample 0. -/
theorem test_render_modulation :
    (render pair 2 fZero fZero fZero
      (noteOn 60 0x453B8000#32 fOne 0
        (patchWrite pair 0x061 0xFF8 (patchWrite pair 0x060 3 (patchWrite pair 0x045 0x3F000000#32
          (patchWrite pair 0x040 1 sampled)))))).framePort
      = [⟨0xBF3504F3#32, 0xBF3504F3#32⟩, ⟨0x3DB504F3#32, 0x3DB504F3#32⟩] := by decide +kernel

/-- F: a sample rate below 1000 is BAD_OPERAND, and a legal SET_SAMPLING configures the engine. -/
theorem test_setSampling :
    (faultNumber (setSampling pair 999 64 (resetWith pair)).fault, sampled.configured, sampled.fs, sampled.blockMax)
      = (4, true, 48000, 64) := by decide +kernel

/-- G-cutoff: SET_SAMPLING starts the cutoff at the patch's word 0x020, whose default is 1.0 (20_memory.md R82). -/
theorem test_setSampling_cutoff : sampled.gCutoff = ⟨fOne, fOne, fZero, 0⟩ := by decide +kernel

/-- L6: ENGINE after SET_SAMPLING and RESET_VOICES has CONF and RESET_REQ set. -/
theorem test_resetVoices : (engineWord pair (resetVoices sampled)).toNat % 256 = 0x05 := by decide +kernel

/-- S: `PATCH_WRITE 0x045, f:0.5` reads back, and the reset brings 1.0 back. -/
theorem test_patchWrite_readsBack :
    readWord pair (patchWrite pair 0x045 0x3F000000#32 (resetWith pair)).patch 0x045 = 0x3F000000#32 := by
  decide +kernel

/-- F: `PATCH_WRITE 0x023, 0` is BAD_ADDRESS. -/
theorem test_patchWrite_badAddress : faultNumber (patchWrite pair 0x023 0 (resetWith pair)).fault = 2 := by
  decide +kernel

/-- S: `PATCH_READ 0x041` answers 0x00000FFF. -/
theorem test_patchRead_default : (patchRead pair 0x041 (resetWith pair)).respPort = [0x00000FFF#32] := by
  decide +kernel

/-- F: `PATCH_READ 0x059` answers 0 and raises BAD_ADDRESS. -/
theorem test_patchRead_badAddress :
    (let s := patchRead pair 0x059 (resetWith pair); (s.respPort, faultNumber s.fault)) = ([0x00000000#32], 2) := by
  decide +kernel

/-- S: after PATCH_RESET word 0x045 is 1.0 again, and the patch RAM lists nothing. -/
theorem test_patchReset :
    (let s := patchReset (patchWrite pair 0x045 0x3F000000#32 (resetWith pair)); (readWord pair s.patch 0x045, s.patch))
      = (0x3F800000#32, []) := by decide +kernel

/-- S: ENGINE and VOICE_STATUS[0] at power-on, with the eight voices of T. -/
theorem test_statusRead_powerOn :
    (statusRead setT 0x0100 (statusRead setT 0x0000 (resetWith setT))).respPort = [0x00080800#32, 0x0000FF08#32] := by
  decide +kernel

/-- F: STATUS_READ 0x0108 with eight voices answers 0 and raises BAD_ADDRESS. -/
theorem test_statusRead_badAddress :
    (let s := statusRead setT 0x0108 (resetWith setT); (s.respPort, faultNumber s.fault)) = ([0x00000000#32], 2) := by
  decide +kernel

/-! ### The units -/

/-- I: three steps from 0.0 to 1.0. -/
theorem test_interpolator :
    (let x := setTarget ⟨fZero, fZero, fZero, 0⟩ fOne 3
     (x.delta, (interpSample x).cur, (interpSample (interpSample x)).cur,
       (interpSample (interpSample (interpSample x))).cur))
      = (0x3EAAAAAB#32, 0x3EAAAAAB#32, 0x3F2AAAAB#32, 0x3F800000#32) := by decide +kernel

/-- V, Attack: ATTACK 0.02 at 1000 Hz gives the levels 0x3ECC462D and 0x3F2CED94. -/
theorem test_envelope_attack :
    (let q := opPatch pair [] 0
     let e := envStart pair { q.env with attack := 0x3CA3D70A#32 } 1000 true fOne fOne
     ((envSample pair e).1, (envSample pair (envSample pair e).2).1)) = (0x3ECC462D#32, 0x3F2CED94#32) := by
  decide +kernel

/-- P5-b: scores 0.9, 0.2, 0.5 and 0.4 halved for the releasing voice: the lower of the two at 0.2 is taken. -/
theorem test_steal_tie :
    (let voice := fun (st : VoiceState) (level : F32) =>
        { voicePowerOn setT with
          state := st
          ops := [{ operatorPowerOn setT with enabled := true, carrier := true, amp := setImmediate fOne
                                              env := { envIdle setT with stage := .sustain, level := level } }] }
     stealCandidate setT
      { resetWith setT with curPoly := 4, voices := [voice .playing 0x3F666666#32, voice .playing 0x3E4CCCCD#32,
                                                      voice .playing 0x3F000000#32, voice .releasing 0x3ECCCCCD#32] })
      = some 1 := by decide +kernel

/-! ### Witnesses: for every obligation with hypotheses, a state and operands that meet them, clause by clause -/

/-- Power-on with these words on the command port. -/
def fed (words : List Word) : State := { State.reset with cmdPort := words }

/-- A halted engine with these words on the command port. -/
def haltedWith (words : List Word) : State := { State.reset with fault := .badOperand, cmdPort := words }

/-- A configured engine at 48000 Hz with blocks of up to 64 samples. -/
def ready : State := { State.reset with configured := true, fs := 48000, blockMax := 64 }

/-- Voice 0 holds key 127 in the state `st`. -/
def bound (st : VoiceState) : State :=
  { State.reset with voices := [{ (default : Voice) with state := st, key := some 127 }]
                     keymap := (List.replicate 128 none).set 127 (some 0) }

theorem witness_DecodeOfEncodeIsTheCommand :
    (Instr.noteOn 127 0 0 0).WellFormed ∧ (Instr.render 65535 0 0 0).WellFormed ∧ Instr.patchReset.WellFormed := by
  decide

theorem witness_DecodedPacketIsItsCommandsEncoding :
    decode [0x0A00FFFF#32, 0x0B000000#32] = .command (.statusRead 0xFFFF) [0x0B000000#32] := by decide

theorem witness_WholePacketIsCommandUnlessReserved_reserved :
    ∀ w ∈ [0x00000000#32, 0x0B000000#32, 0xFF000000#32, 0x03800000#32, 0x03010000#32, 0x09000001#32, 0x03000002#32,
        0x03008000#32], wholePacket [w] w [] ∧ reservedHeader w := by
  intro w hw
  unfold wholePacket reservedHeader lengthOf opc
  fin_cases hw <;> decide

theorem witness_WholePacketIsCommandUnlessReserved_command :
    (∀ w ∈ [0x0A00FFFF#32, 0x03000001#32, 0x06000000#32], wholePacket [w] w [] ∧ ¬ reservedHeader w)
    ∧ wholePacket [0x017F0000#32, 0, 0, 0] 0x017F0000#32 [0, 0, 0] ∧ ¬ reservedHeader 0x017F0000#32 := by
  unfold wholePacket reservedHeader lengthOf opc
  refine ⟨fun w hw => ?_, ?_⟩
  · fin_cases hw <;> decide
  · decide

theorem witness_StepNeedsAWholePacket_partial :
    (fed [0x01000000#32, 0, 0]).cmdPort = 0x01000000#32 :: [0, 0]
    ∧ [(0 : Word), 0].length + 1 < lengthOf (opc 0x01000000#32) := ⟨rfl, by unfold lengthOf opc; decide⟩

/-- No port holds a word, the engine running and HALTED; and a response, or a frame, is not taken. -/
theorem witness_StepNeedsAWholePacket_empty :
    ((fed []).cmdPort = [] ∧ (fed []).respPort = [] ∧ (fed []).framePort = [] ∧ (fed []).fault = .clear)
    ∧ ((haltedWith []).respPort = [] ∧ (haltedWith []).framePort = [] ∧ (haltedWith []).fault ≠ .clear)
    ∧ { fed [] with respPort := [0] }.respPort ≠ [] ∧ { fed [] with framePort := [⟨fZero, fZero⟩] }.framePort ≠ [] :=
  ⟨⟨rfl, rfl, rfl, rfl⟩, ⟨rfl, rfl, by (intro h; cases h)⟩, by simp, by simp⟩

/-- SUSTAIN, and a reserved header, as whole runs: completed, and faulted (70_reset_and_hazards.md R380). -/
theorem test_run_ends :
    (∃ t, isRun [.send 0x03000001#32, .engine] t ∧ runStanding t = .completed)
    ∧ ∃ t, isRun [.send 0x00000000#32, .engine] t ∧ runStanding t = .faulted := ⟨⟨_, rfl, rfl⟩, _, rfl, rfl⟩

/-- A STATUS_READ whose word is not taken, and a NOTE_OFF of one word, leave the run stuck; taking the word ends it (R380). -/
theorem test_run_stuck :
    (∃ t, isRun [.send 0x0A000002#32, .engine] t ∧ runStanding t = .stuck .outputUnread)
    ∧ (∃ t, isRun [.send 0x0A000002#32, .engine, .takeResponse] t ∧ runStanding t = .completed)
    ∧ ∃ t, isRun [.send 0x02000000#32] t ∧ runStanding t = .stuck .partialPacket :=
  ⟨⟨_, rfl, rfl⟩, ⟨_, rfl, rfl⟩, _, rfl, rfl⟩

theorem witness_StepRunsTheDecodedCommand :
    decode (fed [0x03000001#32, 0x09000000#32]).cmdPort = .command (.sustain true) [0x09000000#32] := by decide

/-- Both clauses: a header that answers nothing, and one of PATCH_READ with bit 23 set. -/
theorem witness_ReservedPacketRaisesIllegalCommand :
    ((fed [0x0B000000#32]).fault = .clear ∧ wholePacket (fed [0x0B000000#32]).cmdPort 0x0B000000#32 []
      ∧ reservedHeader 0x0B000000#32 ∧ ¬ answers 0x0B000000#32)
    ∧ ((fed [0x08800000#32]).fault = .clear ∧ wholePacket (fed [0x08800000#32]).cmdPort 0x08800000#32 []
      ∧ reservedHeader 0x08800000#32 ∧ answers 0x08800000#32) := by
  unfold wholePacket reservedHeader lengthOf answers opc
  exact ⟨⟨rfl, ⟨rfl, by decide⟩, by decide, by decide⟩, rfl, ⟨rfl, by decide⟩, by decide, by decide⟩

/-- Both clauses: a command that answers nothing, and a PATCH_READ. -/
theorem witness_HaltedEngineDiscardsCommands :
    (haltedWith []).fault ≠ .clear ∧ (∀ a, Instr.patchReset ≠ .statusRead a) ∧ (∀ a, Instr.patchReset ≠ .patchRead a)
    ∧ (∀ a, Instr.patchRead 5 ≠ .statusRead a) ∧ ∃ a, Instr.patchRead 5 = .patchRead a :=
  ⟨by (intro h; cases h), by simp, by simp, by simp, 5, rfl⟩

/-- A packet that answers nothing; and of those that answer 0, a PATCH_READ and a STATUS_READ with bit 23 set. -/
theorem witness_FirstFaultIsKeptForever :
    (∀ ws, (haltedWith ws).fault ≠ .clear)
    ∧ (∃ t, step (haltedWith [0x09000000#32]) = .next t ∧ ¬ answers 0x09000000#32)
    ∧ (∃ t, step (haltedWith [0x08000000#32]) = .next t ∧ answers 0x08000000#32 ∧ opc 0x08000000#32 = 0x08)
    ∧ ∃ t, step (haltedWith [0x0A800000#32]) = .next t ∧ answers 0x0A800000#32 ∧ reservedHeader 0x0A800000#32 := by
  unfold reservedHeader answers opc
  exact ⟨fun _ h => (by cases h), ⟨_, rfl, by decide⟩, ⟨_, rfl, by decide, by decide⟩, _, rfl, by decide, by decide⟩

/-- Both clauses. -/
theorem witness_EachReadPacketAnswersOneWord :
    (∃ t, (fed [0x0A000004#32]).cmdPort = [0x0A000004#32] ∧ step (fed [0x0A000004#32]) = .next t
      ∧ answers 0x0A000004#32)
    ∧ ∃ t, (fed [0x06000000#32]).cmdPort = [0x06000000#32] ∧ step (fed [0x06000000#32]) = .next t
      ∧ ¬ answers 0x06000000#32 := by
  unfold answers opc
  exact ⟨⟨_, rfl, rfl, by decide⟩, _, rfl, rfl, by decide⟩

theorem witness_NoteOnQueuesPolyRequest :
    State.reset.fault = .clear ∧ State.reset.mode = .poly ∧ freqLegal (flush fNegOne) = true
    ∧ unitLegal (flush fOne) = true ∧ (∀ r ∈ State.reset.polyReq, r.key ≠ 127) ∧ State.reset.keyVoice 127 = none :=
  ⟨rfl, rfl, by decide, by decide, by (intro r h; cases h), by decide +kernel⟩

/-- A bound Playing voice and a bound Releasing one. -/
theorem witness_NoteOnRetriggerUnbindsVoice :
    ∀ st ∈ [VoiceState.playing, VoiceState.releasing],
      (bound st).fault = .clear ∧ (bound st).mode = .poly ∧ freqLegal (flush fOne) = true
      ∧ unitLegal (flush fZero) = true ∧ (∀ r ∈ (bound st).polyReq, r.key ≠ 127) ∧ (bound st).keyVoice 127 = some 0
      ∧ ((bound st).voice 0).key = some 127 ∧ ((bound st).voice 0).state = st := by
  intro st _
  exact ⟨rfl, rfl, by decide, by decide, by (intro r h; cases h), rfl, rfl, rfl⟩

/-- Both alternatives: a pending request in Poly and one in Mono. -/
theorem witness_DuplicateNoteOnIsIgnored :
    (let s : State := { State.reset with polyReq := [⟨60, fNegOne, fOne, 0, false⟩] }
     s.fault = .clear ∧ freqLegal (flush fNegOne) = true ∧ unitLegal (flush fOne) = true ∧ s.mode = .poly
      ∧ ∃ r ∈ s.polyReq, r.key = 60)
    ∧ (let s : State := { State.reset with mode := .mono, monoReq := [⟨60, fNegOne, fOne, 0, false⟩] }
       s.fault = .clear ∧ s.mode = .mono ∧ ∃ r ∈ s.monoReq, r.key = 60) :=
  ⟨⟨rfl, by decide, by decide, rfl, _, List.mem_cons_self, rfl⟩, rfl, rfl, _, List.mem_cons_self, rfl⟩

/-- With no request pending and with the one there can be. -/
theorem witness_NoteOnQueuesMonoRequest :
    ∀ q ∈ [[], [(⟨64, fNegOne, fOne, 0, false⟩ : VoiceRequest)]],
      (let s : State := { State.reset with mode := .mono, monoReq := q }
       s.fault = .clear ∧ s.mode = .mono ∧ s.monoReq.length ≤ 1 ∧ freqLegal (flush fNegOne) = true
        ∧ unitLegal (flush fOne) = true ∧ ∀ r ∈ s.monoReq, r.key ≠ 60) := by
  intro q hq
  have : q.length ≤ 1 ∧ ∀ r ∈ q, r.key ≠ 60 := by revert q; decide
  exact ⟨rfl, rfl, this.1, by decide, by decide, this.2⟩

/-- A frequency of 0.0, and a velocity just above 1.0. -/
theorem witness_NoteOnBadOperandFaults :
    State.reset.fault = .clear
    ∧ ∀ p ∈ [(fZero, fOne), (fOne, 0x3F800001#32)],
      ¬ ((feq (flush p.1) fNegOne = true ∨ (isFinite (flush p.1) = true ∧ flt fZero (flush p.1) = true))
        ∧ (isFinite (flush p.2) = true ∧ fle fZero (flush p.2) = true ∧ fle (flush p.2) fOne = true)) :=
  ⟨rfl, by intro p hp; fin_cases hp <;> decide⟩

/-- Both clauses: no release queued for the key, and one queued. -/
theorem witness_NoteOffQueuesOneRelease :
    (State.reset.fault = .clear ∧ State.reset.mode = .poly ∧ ∀ r ∈ State.reset.relQ, r.key ≠ 60)
    ∧ (let s : State := { State.reset with relQ := [⟨60, 0⟩] }
       s.fault = .clear ∧ s.mode = .poly ∧ ∃ r ∈ s.relQ, r.key = 60) :=
  ⟨⟨rfl, rfl, by (intro r h; cases h)⟩, rfl, rfl, _, List.mem_cons_self, rfl⟩

/-- A voice whose summed output is above every finite SILENCE_EPS. -/
def loud : Voice :=
  { (default : Voice) with
    ops := [{ (default : Operator) with enabled := true, carrier := true, amp := ⟨fOne, fOne, fZero, 0⟩
                                        env := { (default : Envelope) with level := fInf } }] }

theorem loud_sounds : flt params.silenceEps (summedCarrierOutput loud) = true := by
  have hs : summedCarrierOutput loud = fInf := by decide +kernel
  have he := silenceEps_of_legal params_legal
  have hle := (fle_iff _ _).mp he.1
  rw [hs, flt_iff]
  refine ⟨hle.2.1, by decide, ?_⟩
  have hbig : fKey fInf = 2139095040 := by decide
  rw [hbig]
  have hfin := he.2
  revert hfin
  unfold isFinite fKey fExp
  generalize params.silenceEps = x
  intro hfin
  have hx := x.isLt
  simp only [bne_iff_ne, ne_eq] at hfin
  dsimp only
  split <;> split <;> omega

/-- Both clauses: a held key under a sounding voice; no key held any more. -/
theorem witness_NoteOffRetriggersHeldKey :
    (let s : State := { State.reset with mode := .mono, monoSeq := [⟨64, fNegOne, fOne⟩, ⟨60, fNegOne, fOne⟩]
                                         voices := [loud] }
     s.fault = .clear ∧ s.mode = .mono ∧ s.monoReq.filter (fun r => r.key != 60) = []
      ∧ s.monoSeq.filter (fun e => e.key != 60) = [⟨64, fNegOne, fOne⟩]
      ∧ flt params.silenceEps (summedCarrierOutput (s.voice 0)) = true)
    ∧ (let s : State := { State.reset with mode := .mono, monoSeq := [⟨60, fNegOne, fOne⟩] }
       s.fault = .clear ∧ s.mode = .mono ∧ s.monoSeq.filter (fun e => e.key != 60) = []) :=
  ⟨⟨rfl, rfl, rfl, rfl, loud_sounds⟩, rfl, rfl, rfl⟩

theorem witness_SustainWritesHostSustainOnly : State.reset.fault = .clear := rfl

theorem witness_NoteCommandsFrame :
    isNoteCommand .resetVoices ∧ ∃ t, exec .resetVoices State.reset = .next t := ⟨trivial, _, rfl⟩

theorem witness_OnlyRenderMovesVoices :
    (∃ t, exec (.noteOn 127 fOne fOne 0) (bound .playing) = .next t)
    ∧ (∀ n b m a, Instr.noteOn 127 fOne fOne 0 ≠ .render n b m a)
    ∧ ∀ sr spb, Instr.noteOn 127 fOne fOne 0 ≠ .setSampling sr spb := ⟨⟨_, rfl⟩, by simp, by simp⟩

/-! RENDER -/

theorem ready_operands : renderOperandsLegal ready 64 fZero fOne fZero ∧ renderOperandsLegal ready 1 fNegOne fZero fOne := by
  unfold renderOperandsLegal
  exact ⟨⟨by decide, by decide, by decide, by decide, by decide⟩, by decide, by decide, by decide, by decide, by decide⟩

theorem default_patch_legal : patchLegal params [] = true := patchLegal_default params_legal

/-- A patch whose POLYPHONY is 0. -/
theorem patch_without_voices : patchLegal params (writeWord params [] 0x001 0) = false := by
  rw [← Bool.not_eq_true]
  intro h
  have h1 := (snapshot_polyphony h).1
  have h0 : (snapshot params (writeWord params [] 0x001 0)).polyphony = 0 := by
    show (readWord params (writeWord params [] 0x001 0) 0x001).toNat = 0
    rw [readWord_writeWord params [] 1 0 (Memory.wf_nil params), if_pos rfl]
    rfl
  omega

/-- The three clauses: not configured; one sample too many; POLYPHONY 0. -/
theorem witness_RenderRaisesFirstFailedCheck :
    (State.reset.fault = .clear ∧ State.reset.configured = false)
    ∧ (ready.fault = .clear ∧ ready.configured = true ∧ ¬ renderOperandsLegal ready 65 fZero fZero fZero)
    ∧ (let s : State := { ready with patch := writeWord params [] 0x001 0 }
       s.fault = .clear ∧ s.configured = true ∧ renderOperandsLegal s 64 fZero fOne fZero
        ∧ patchLegal params s.patch = false) := by
  refine ⟨⟨rfl, rfl⟩, ⟨rfl, rfl, ?_⟩, rfl, rfl, ready_operands.1, patch_without_voices⟩
  unfold renderOperandsLegal
  decide

theorem witness_LegalPatchHasNoCycle : patchLegal params [] = true := default_patch_legal

/-- The largest and the smallest block. -/
theorem ready_runs : renderRuns ready 64 fZero fOne fZero ∧ renderRuns ready 1 fNegOne fZero fOne :=
  ⟨⟨rfl, rfl, ready_operands.1, default_patch_legal⟩, rfl, rfl, ready_operands.2, default_patch_legal⟩

theorem witness_RenderEmitsNFramesOrFaultsNumeric : renderRuns ready 64 fZero fOne fZero := ready_runs.1

theorem ready_idle : ∀ v ∈ ready.voices, v.state = .idle := by
  intro v hv
  rw [List.eq_of_mem_replicate (show v ∈ List.replicate params.maxVoices (voicePowerOn params) from hv)]
  rfl

theorem witness_IdleRenderEmitsSilence :
    renderRuns ready 64 fZero fOne fZero ∧ (∀ v ∈ ready.voices, v.state = .idle) ∧ ready.polyReq = []
    ∧ ready.monoReq = [] := ⟨ready_runs.1, ready_idle, rfl, rfl⟩

theorem witness_RenderFrame : ∃ t, exec (.render 64 fZero fOne fZero) ready = .next t := ⟨_, rfl⟩

/-- A RENDER of one sample that no voice takes part in ends without a fault. -/
theorem silent_render (s : State) (h : renderRuns s 1 fNegOne fZero fOne) (hi : ∀ v ∈ s.voices, v.state = .idle)
    (hp : s.polyReq = []) (hm : s.monoReq = []) :
    ∃ t, exec (.render 1 fNegOne fZero fOne) s = .next t ∧ t.fault = .clear := by
  refine ⟨_, rfl, ?_⟩
  obtain ⟨hc, hconf, ⟨h1, h2, h3, h4, h5⟩, hl⟩ := h
  have h0 : AllIdle s.prevSustain
      (setGlobalTargets (snapshot params s.patch) 1 (flush fNegOne) (flush fZero) (flush fOne) s) :=
    ⟨voice_idle_of hi, hp, hm, rfl⟩
  have hb : AllIdle s.hostSustain
      (beforeSamples params (snapshot params s.patch) 1 (flush fNegOne) (flush fZero) (flush fOne) s) :=
    (h0.updateSustain params _).preRender params _ 1
  obtain ⟨t, e, -⟩ := renderSamples_idle params (snapshot params s.patch) 1 (List.range 1) hb
  rw [unlessHalted_running _ _ (by simp [State.halted, hc])]
  unfold render
  dsimp only [operandF32]
  rw [if_neg (by simp [hconf]), if_neg (by omega), if_neg (by simp [h3]), if_neg (by simp [h4]), if_neg (by simp [h5]),
    if_neg (by simp [hl])]
  unfold renderSequence
  rcases renderSamples_spec params (snapshot params s.patch) 1 (List.range 1)
      (beforeSamples params (snapshot params s.patch) 1 (flush fNegOne) (flush fZero) (flush fOne) s)
    with ⟨t', fs, e', hr, -⟩ | ⟨t', fs, e', hr, -⟩
  · rw [e] at e'
    cases e'
  · rw [e] at e' ⊢
    cases e'
    dsimp only
    rw [(postRender_untouched t).fault, hr.frame]
    exact (beforeSamples_untouched _ _ _ _ _ s).fault.trans hc

theorem witness_GlobalsAdvanceOncePerSample :
    renderRuns ready 1 fNegOne fZero fOne
    ∧ ∃ t, exec (.render 1 fNegOne fZero fOne) ready = .next t ∧ t.fault = .clear :=
  ⟨ready_runs.2, silent_render ready ready_runs.2 ready_idle rfl rfl⟩

/-- The lifecycle invariant of an idle engine in either mode. -/
theorem idle_inv (m : VoiceMode) (r : Bool) : Inv params { ready with mode := m, resetReq := r } where
  pool := (poolInv_resetWith params).congr rfl rfl
  queues := QueueInv.empty rfl rfl rfl rfl
  polyphony := by
    have h := params_maxVoices
    show 1 ≤ params.maxVoices ∧ params.maxVoices ≤ params.maxVoices
    omega
  pendingUnbound := fun r hr => absurd hr List.not_mem_nil
  monoMode := fun _ => ⟨rfl, fun v hv hl => by
    have e : (State.voice { ready with mode := m, resetReq := r } v) = voicePowerOn params := by
      show (List.replicate params.maxVoices (voicePowerOn params)).getD v default = voicePowerOn params
      rw [List.getD_eq_getElem?_getD, List.getElem?_replicate, if_pos hv, Option.getD_some]
    rw [e] at hl
    exact absurd hl (by simp [voicePowerOn, isLive])⟩
  polyMode := fun _ => ⟨rfl, rfl⟩

/-- Both alternatives: the default patch is Poly and the latched mode Mono; RESET_VOICES was taken. -/
theorem witness_ModeSwitchRenderIdlesEverything :
    (let s : State := { ready with mode := .mono, resetReq := false }
     renderRuns s 1 fNegOne fZero fOne ∧ Inv params s ∧ (snapshot params s.patch).voiceMode ≠ s.mode
      ∧ ∃ t, exec (.render 1 fNegOne fZero fOne) s = .next t ∧ t.fault = .clear)
    ∧ (let s : State := { ready with mode := .poly, resetReq := true }
       renderRuns s 1 fNegOne fZero fOne ∧ Inv params s ∧ s.resetReq = true
        ∧ ∃ t, exec (.render 1 fNegOne fZero fOne) s = .next t ∧ t.fault = .clear) := by
  have hmode : (snapshot params []).voiceMode ≠ .mono := by
    have h : readWord params [] 0x000 = 0 := readWord_nil params 0x000
    simp [snapshot, h]
  exact ⟨⟨ready_runs.2, idle_inv .mono false, hmode, silent_render _ ready_runs.2 ready_idle rfl rfl⟩,
    ready_runs.2, idle_inv .poly true, rfl, silent_render _ ready_runs.2 ready_idle rfl rfl⟩

/-! The parts of a RENDER: over the test parameters with two voices -/

/-- Two voices in these states, the first marked sustained or not. -/
def two (a b : VoiceState) (mark : Bool) : State :=
  { resetWith pair with voices := [{ voicePowerOn pair with state := a, sustained := mark },
                                   { voicePowerOn pair with state := b }] }

/-- The pedal held over a Playing voice; released over a marked one; and neither. -/
theorem witness_SustainMarksPlayingVoices :
    (let s : State := { two .playing .idle false with hostSustain := true }
     1 < pair.maxVoices ∧ s.voices.length = pair.maxVoices ∧ s.hostSustain = true ∧ (s.voice 0).state = .playing)
    ∧ (let s : State := { two .playing .idle true with prevSustain := true }
       s.voices.length = pair.maxVoices ∧ s.hostSustain = false ∧ s.prevSustain = true ∧ (s.voice 0).sustained = true)
    ∧ (let s := two .playing .idle false
       s.voices.length = pair.maxVoices ∧ s.hostSustain = false ∧ s.prevSustain = false) := by decide +kernel

/-- A release bound to a Playing voice that is not sustained, and one bound to a sustained voice. -/
theorem witness_QueuedReleasesAreResolved :
    ∀ mark : Bool,
      (let s : State := { two .playing .idle mark with keymap := (List.replicate 128 none).set 127 (some 0)
                                                       relQ := [⟨127, 0⟩] }
       (s.voice 0).state = .playing ∧ (s.voice 0).sustained = mark ∧ s.relQ.map ReleaseRequest.key = [127]
        ∧ s.keyVoice 127 = some 0) := by decide +kernel

/-- Two Idle voices without a key and one request: the first slot takes it, the second takes none; key 61 stays. -/
theorem witness_NewestRequestsTakeLowestIdleVoices :
    (let s : State := { two .idle .idle false with polyReq := [⟨60, fNegOne, fOne, 0, false⟩] }
     s.curPoly ≤ s.voices.length ∧ (idleSlots s)[0]? = some 0
      ∧ ((sortNewestFirst s.polyReq)[0]?.map VoiceRequest.key) = some 60
      ∧ (idleSlots s)[1]? = some 1 ∧ (sortNewestFirst s.polyReq).length ≤ 1
      ∧ (∀ v, (s.voice v).state = .idle → (s.voice v).key = none) ∧ DistinctKeys VoiceRequest.key s.polyReq
      ∧ (∀ r ∈ s.polyReq, r.key < s.keymap.length)
      ∧ ∀ (j : Nat) (r : VoiceRequest), (sortNewestFirst s.polyReq)[j]? = some r → r.key = 61 → 2 ≤ j) := by
  refine ⟨by decide +kernel, by decide +kernel, by decide +kernel, by decide +kernel, by decide +kernel, ?_,
    List.nodup_singleton _, by decide +kernel, ?_⟩
  · rintro (_ | _ | v) _ <;> rfl
  · rintro (_ | j) r h hk
    · cases h; cases hk
    · cases h

/-- A candidate with a voice before it, and a pool without one. -/
theorem witness_StealTakesQuietestLowestVoice :
    (let s : State :=
      { two .playing .releasing false with
        voices := [{ voicePowerOn pair with
                      state := .playing
                      ops := [{ operatorPowerOn pair with enabled := true, carrier := true, amp := setImmediate fOne
                                                          env := { envIdle pair with stage := .sustain, level := fOne } }] },
                   { voicePowerOn pair with state := .releasing }] }
     stealCandidate pair s = some 1 ∧ stealable s 0 ∧ stealable s 1
      ∧ isNaN (score pair (s.voice 0)) = false)
    ∧ stealCandidate pair (two .idle .stolen false) = none := by
  unfold stealable
  decide +kernel

theorem idle_pool (pending : Bool) : PoolInv pair { resetWith pair with switchPending := pending } :=
  (poolInv_resetWith pair).congr rfl rfl

/-- A voice that stays, a Stolen voice without and with a pending switch, and a done voice that is not Idle. -/
theorem witness_FreePassFreesStolenAndDone :
    (PoolInv pair (resetWith pair) ∧ 1 < pair.maxVoices ∧ ((resetWith pair).voice 1).state = .idle)
    ∧ (∀ pending, PoolInv pair (stealVoice 1 { resetWith pair with switchPending := pending }))
    ∧ (∀ pending, (stealVoice 1 { resetWith pair with switchPending := pending }).switchPending = pending
        ∧ ((stealVoice 1 { resetWith pair with switchPending := pending }).voice 1).state = .stolen)
    ∧ (let s := (resetWith pair).setVoice 1 { voicePowerOn pair with state := .playing }
       PoolInv pair s ∧ (s.voice 1).state ≠ .idle ∧ isDone (s.voice 1) = true) := by
  refine ⟨⟨poolInv_resetWith pair, by decide, by decide +kernel⟩,
    fun pending => (idle_pool pending).stealVoice (by decide), by decide +kernel, ?_, by decide +kernel⟩
  exact (poolInv_resetWith pair).setVoice 1 (by decide +kernel) (fun h => absurd rfl h) (fun _ => rfl)

theorem witness_StealFadeEndsAtZero : (1 ≤ 1 ∧ 1 ≤ 65535) ∧ 1 ≤ 65535 ∧ 65535 ≤ 65535 := by decide

/-- Voice 0 is bound to key 127; the legato's key is another, and key 0 a third; the glide may be zero or not. -/
theorem witness_LegatoKeepsTheSound :
    0 < (bound .playing).voices.length ∧ ((bound .playing).voice 0).key = some 127 ∧ 127 ≠ 60
    ∧ ((bound .playing).voice 0).key ≠ some 0 ∧ 0 ≠ 60
    ∧ 60 < (bound .playing).keymap.length
    ∧ rint (fmul (snapshot pair []).glide (fofNat 48000)) = 0 ∧ rint (fmul fOne (fofNat 48000)) = 48000 := by decide +kernel

/-! The operator graph and the control units -/

/-- Six disabled operators run a voice sample to its end. -/
theorem witness_DisabledOperatorIsSkipped :
    (voicePowerOn pair).ops.length = 6
    ∧ (∃ l r w, voiceSample pair (snapshot pair []) 48000 (voicePowerOn pair) fZero fZero = .ok (l, r, w))
    ∧ ∃ o, (voicePowerOn pair).ops[5]? = some o ∧ o.enabled = false := by
  refine ⟨rfl, ?_, _, rfl, rfl⟩
  have run : ∀ (c : SampleInputs) (is : List Nat) (g : GraphRun), (∀ i ∈ is, (g.ops.getD i default).enabled = false) →
      ∃ h, operatorRun pair c is g = .ok h := by
    intro c is
    induction is with
    | nil => exact fun g _ => ⟨g, rfl⟩
    | cons i is ih =>
      intro g hg
      obtain ⟨h, e⟩ := ih { g with curMod := g.curMod ++ [fZero] } (fun j hj => hg j (List.mem_cons_of_mem _ hj))
      refine ⟨h, ?_⟩
      rw [operatorRun, operatorStep]
      dsimp only
      rw [if_pos (hg i List.mem_cons_self)]
      exact e
  unfold voiceSample
  dsimp only
  generalize (SampleInputs.mk _ _ _ _ _ _) = c
  obtain ⟨h, e⟩ := run c (List.range 6) ⟨(voicePowerOn pair).ops, [], fZero, fZero⟩ (by decide)
  rw [show operatorRun pair c (List.range 6)
    ⟨(pitchMultipliers pair (snapshot pair []) (blendedLfo pair (snapshot pair []) 48000 (voicePowerOn pair)).2 fZero).2.2.ops,
      [], fZero, fZero⟩ = .ok h from e]
  exact ⟨_, _, _, rfl⟩

/-- Two operator lists that differ in everything but the one FB_STATE. -/
theorem witness_OperatorReadsOthersThroughFeedbackOnly :
    (let o : Operator := { operatorPowerOn pair with fbSrc := 0 }
     let other : Operator := { operatorPowerOn pair with enabled := true, ampMod := fOne }
     o.fbSrc ≠ 7#3 ∧ ([o].getD o.fbSrc.toNat default).fbState = ([other].getD o.fbSrc.toNat default).fbState) := by
  decide

theorem witness_SamplesKeepConfiguration :
    ∃ t, renderSamples pair (snapshot pair []) 1 [] noted = .ok t := ⟨_, rfl⟩

theorem witness_InterpolatorOperations :
    feq fOne (⟨fZero, fOne, fZero, 0⟩ : Interp).target = true ∧ feq fZero (⟨fZero, fOne, fZero, 1⟩ : Interp).target = false
    ∧ (⟨fZero, fOne, fZero, 0⟩ : Interp).remaining = 0 ∧ (⟨fZero, fOne, fZero, 1⟩ : Interp).remaining = 1
    ∧ 2 ≤ (⟨fZero, fOne, fZero, 2⟩ : Interp).remaining := by decide

theorem witness_InterpolatorReachesTargetExactly : 1 ≤ 1 ∧ feq fOne (⟨fZero, fZero, fZero, 0⟩ : Interp).target = false := by
  decide

/-- An envelope in each stage; Delay with one sample left and with two. -/
theorem witness_EnvelopeStageTransitions :
    (∀ st : VoiceState → EnvStage, ∃ e : Envelope, e.stage = st .idle)
    ∧ (∀ n ∈ [1, 2], ∃ e : Envelope, e.stage = .delay ∧ e.delayRemaining = n ∧ 1 ≤ e.delayRemaining)
    ∧ (∀ inf : Bool, ∃ e : Envelope, e.infinite = inf ∧ e.stage ≠ .idle) := by
  refine ⟨fun st => ⟨{ (default : Envelope) with stage := st .idle }, rfl⟩, fun n hn => ?_, fun inf =>
    ⟨{ (default : Envelope) with infinite := inf, stage := .attack }, rfl, by simp⟩⟩
  refine ⟨{ (default : Envelope) with stage := .delay, delayRemaining := n }, rfl, rfl, ?_⟩
  revert n
  decide

theorem witness_InfiniteEnvelopeIgnoresStop :
    ({ (default : Envelope) with infinite := true }).infinite = true
    ∧ ∃ p : EnvParams, false = false ∧ feq p.release fOne = true :=
  ⟨rfl, { (default : EnvParams) with release := fOne }, rfl, by decide⟩

theorem witness_FracOfFiniteIsInUnitRange : isFinite 0x7F7FFFFF#32 = true ∧ isFinite 0x80000001#32 = true := by decide

/-! System commands -/

/-- The bounds of the sample rate and of the block size, and a rate below them. -/
theorem witness_SetSamplingInitialises :
    State.reset.fault = .clear ∧ State.reset.voices.length = params.maxVoices
    ∧ ((1000 ≤ (1000 : Word).toNat ∧ (384000 : Word).toNat ≤ 384000)
      ∧ (1 ≤ (1 : Word).toNat ∧ (1 : Word).toNat ≤ params.maxBlock))
    ∧ ¬ 1000 ≤ (999 : Word).toNat := by
  have h := params_maxBlock
  refine ⟨rfl, List.length_replicate, ⟨⟨by decide, by decide⟩, by decide, ?_⟩, by decide⟩
  show 1 ≤ params.maxBlock
  exact h.1

theorem witness_ResetVoicesOnlyRequests : State.reset.fault = .clear := rfl

theorem witness_PatchWriteChangesOneWord :
    State.reset.fault = .clear ∧ Memory.wf params State.reset.patch = true
    ∧ (patchWordDefined 0x000 ∧ patchWordDefined 0x022 ∧ patchWordDefined 0x040 ∧ patchWordDefined 0x0F8)
    ∧ (0x041 : Nat) ≠ 0x040 ∧ ¬ (4 * 0x040 ≤ 0x0FF ∧ 0x0FF < 4 * 0x040 + 4) := by
  unfold patchWordDefined
  exact ⟨rfl, rfl, by decide, by decide, by decide⟩

theorem witness_PatchReadAnswersStoredWord : State.reset.fault = .clear ∧ patchWordDefined 0x058 := by
  unfold patchWordDefined
  exact ⟨rfl, by decide⟩

theorem witness_UndefinedPatchAddressFaults :
    State.reset.fault = .clear ∧ ¬ patchWordDefined 0x023 ∧ ¬ patchWordDefined 0x059 ∧ ¬ patchWordDefined 0x100 := by
  unfold patchWordDefined
  exact ⟨rfl, by decide, by decide, by decide⟩

theorem witness_PatchResetRestoresDefaults : State.reset.fault = .clear ∧ 0 < 6 ∧ 5 < 6 := ⟨rfl, by decide, by decide⟩

/-- The last address of every region whose end does not depend on MAX_VOICES, and the first of the two that do. -/
theorem witness_StatusReadOnlyAnswers :
    ∀ a ∈ [0x0006, 0x0100, 0x027F, 0x05FF, 0x06FF, 0x08FF, 0x0903, 0x1009], statusWordDefined a := by
  have h := params_maxVoices
  unfold statusWordDefined
  intro a ha
  fin_cases ha <;> omega

theorem witness_StatusWordLayouts : 1 < params.maxVoices ∧ 127 < 128 := ⟨params_maxVoices.1, by decide⟩

/-- One entry in every queue; the entry after it is beyond the length; and a voice with six stored outputs. -/
theorem witness_StatusQueueAndVoiceWords :
    (let s : State := { State.reset with polyReq := [⟨60, fNegOne, fOne, 0, false⟩], relQ := [⟨60, 0⟩]
                                         monoSeq := [⟨60, fNegOne, fOne⟩], monoReq := [⟨60, fNegOne, fOne, 0, true⟩]
                                         voices := [voicePowerOn params] }
     s.polyReq[0]?.isSome = true ∧ s.polyReq.length ≤ 1 ∧ s.relQ[0]?.isSome = true ∧ s.relQ.length ≤ 1
      ∧ s.monoSeq[0]?.isSome = true ∧ s.monoSeq.length ≤ 1 ∧ s.monoReq[0]?.isSome = true
      ∧ (s.voice 0).prevMod[9 - 4]? = some fZero)
    ∧ State.reset.monoReq = [] ∧ 0 < params.maxVoices :=
  ⟨⟨rfl, by decide, rfl, by decide, rfl, by decide, rfl, rfl⟩, rfl, by have := params_maxVoices; omega⟩

theorem witness_UndefinedStatusAddressAnswersZero :
    (State.reset.fault = .clear ∧ (haltedWith []).fault ≠ .clear)
    ∧ ∀ a ∈ [0x0007, 0x00FF, 0x0280, 0x03FF, 0x0904, 0x0FFF, 0x100A, 0xFFFF], ¬ statusWordDefined a := by
  have h := params_maxVoices
  refine ⟨⟨rfl, by (intro h; cases h)⟩, ?_⟩
  unfold statusWordDefined
  intro a ha
  fin_cases ha <;> omega

/-! The invariants -/

theorem witness_StepKeepsLifecycleInvariant :
    Inv params { ready with cmdPort := [0x06000000#32] }
    ∧ ∃ t, step { ready with cmdPort := [0x06000000#32] } = .next t :=
  ⟨(idle_inv .poly false).congr rfl rfl rfl rfl rfl rfl rfl rfl, _, rfl⟩

theorem witness_StepKeepsVoiceRecords :
    RecordInv { ready with voices := [], cmdPort := [0x06000000#32] }
    ∧ ∃ t, step { ready with voices := [], cmdPort := [0x06000000#32] } = .next t :=
  ⟨fun _ hv => absurd hv List.not_mem_nil, _, rfl⟩

theorem witness_StepKeepsDataRanges :
    (let s : State := { ready with blockMax := 1, cmdPort := [0x06000000#32] }
     DataInv params s ∧ ∃ t, step s = .next t) := by
  refine ⟨⟨rfl, ?_, fun _ => ⟨by decide, by decide, params_maxBlock.1⟩, ?_, ?_, ?_, ?_⟩, _, rfl⟩ <;>
    exact fun _ h => absurd h List.not_mem_nil

end Sys2Proof.Tests
end

section
/-! PROOFS of the family 00_scope.md: frac (R10). -/

namespace Sys2Proof.Machine

theorem fVal_of_fMag_zero {x : F32} (hz : fMag x = 0) : fVal x = 0 := by
  unfold fVal
  simp [hz]

theorem ffloor_of_fMag_zero {x : F32} (hx : isFinite x = true) (hz : fMag x = 0) :
    ffloor x = fPack (fNeg x) 0 := by
  unfold ffloor
  simp [hx, hz]

/-- The floor of a finite value is a finite value of the same sign, at most one below it. -/
theorem ffloor_bounds {x : F32} (hx : isFinite x = true) :
    isFinite (ffloor x) = true ∧ fNeg (ffloor x) = fNeg x
      ∧ 0 ≤ fVal x - fVal (ffloor x) ∧ fVal x - fVal (ffloor x) < 2 ^ 149 := by
  by_cases hz : fMag x = 0
  · rw [ffloor_of_fMag_zero hx hz, fVal_of_fMag_zero hz]
    cases fNeg x <;> decide
  · obtain ⟨hfin, hneg, hmag⟩ := ffloor_val hx hz
    refine ⟨hfin, hneg, ?_⟩
    unfold fVal
    rw [hneg, hmag]
    cases fNeg x with
    | false =>
      -- rounding down the magnitude leaves its remainder
      simp only [Bool.false_and, Bool.false_eq_true, if_false]
      omega
    | true =>
      -- below zero, the magnitude is rounded up unless it is whole
      simp only [Bool.true_and, if_true, bne_iff_ne]
      split <;> omega

/-- The one subtraction of frac gives a pattern of non-negative sign, at most 1.0. -/
theorem fsub_ffloor_le_one {x : F32} (hx : isFinite x = true) :
    ∃ bits, fsub x (ffloor x) = fPack false bits ∧ bits ≤ 0x3F800000 := by
  obtain ⟨hfin, hneg, h0, h1⟩ := ffloor_bounds hx
  rw [fsub_finite hx hfin]
  split
  · exact ⟨0, by rw [hneg, Bool.and_not_self], by decide⟩
  · rw [decide_eq_false (by omega)]
    exact roundMag_below_one (by omega)

/-- Settles O45: x - floor(x) rounds to a pattern from +0.0 to 1.0, and frac replaces 1.0 by +0.0. -/
theorem fracOfFiniteIsInUnitRange : Obligations.FracOfFiniteIsInUnitRange := by
  unfold Obligations.FracOfFiniteIsInUnitRange
  intro x hx
  obtain ⟨bits, hbits, hle⟩ := fsub_ffloor_le_one hx
  unfold frac
  rw [hbits]
  dsimp only
  split
  · decide
  · next hne => exact fPack_unit hle hne

end Sys2Proof.Machine
end

section
/-! PROOFS of the family 10_state.md: the invariants of the state (R29, R30, R34, R41) at reset, under the samples of a
block and under every step. -/

namespace Sys2Proof

/-! ### Decoded commands are well formed -/

/-- The decoder reads the header fields at their widths (30_encoding.md R101). -/
theorem assemble_wellFormed {w w1 w2 w3 : Word} {i : Instr} (h : assemble w w1 w2 w3 = some i) : i.WellFormed := by
  have hkey : keyOf w < 128 := Nat.mod_lt _ (by decide)
  have himm : imm16Of w < 65536 := Nat.mod_lt _ (by decide)
  unfold assemble at h
  split at h <;> cases h <;> simp [Instr.WellFormed, Instr.wellFormed, hkey, himm]

theorem decode_wellFormed {port rest : List Word} {i : Instr} (h : decode port = .command i rest) : i.WellFormed := by
  unfold decode at h
  split at h
  · cases h
  split at h
  · cases h
  split at h
  · cases h
  split at h
  · next hi => cases h; exact assemble_wellFormed hi
  · cases h

end Sys2Proof

namespace Sys2Proof.Machine

variable {P : Params} {s t : State}

/-! ### What a step and a RENDER can do -/

/-- Everything a step that answers a state can do (40_host_commands.md R140, 30_encoding.md R114). -/
theorem step_cases (h : step s = .next t) :
    (∃ header rest, t = illegalPacket header (taken rest s))
    ∨ ∃ i rest, i.WellFormed ∧ exec i (taken rest s) = .next t := by
  unfold step at h
  split at h
  · cases h
  · cases h
  · next header why rest hd => cases h; exact .inl ⟨header, rest, rfl⟩
  · next i rest hd => exact .inr ⟨i, rest, decode_wellFormed hd, h⟩

/-- RENDER raises the fault of a check, or every check passes and it runs its sequence (40_host_commands.md R146). -/
theorem render_cases (P : Params) (n : Nat) (b m a : F32) (s : State) :
    (∃ code, render P n b m a s = raise code false s)
    ∨ (s.configured = true ∧ Claims.renderOperandsLegal s n b m a ∧ patchLegal P s.patch = true
      ∧ render P n b m a s
        = renderSequence P (snapshot P s.patch) n (operandF32 b) (operandF32 m) (operandF32 a) s) := by
  unfold render
  dsimp only
  split
  · exact .inl ⟨_, rfl⟩
  split
  · exact .inl ⟨_, rfl⟩
  split
  · exact .inl ⟨_, rfl⟩
  split
  · exact .inl ⟨_, rfl⟩
  split
  · exact .inl ⟨_, rfl⟩
  split
  · exact .inl ⟨_, rfl⟩
  · next hc hn hb hm ha hp =>
    simp only [Bool.not_eq_false, not_or, not_lt] at hc hn hb hm ha hp
    exact .inr ⟨hc, ⟨hn.1, hn.2, hb, hm, ha⟩, hp, rfl⟩

/-! ### What every step keeps -/

/-- A predicate that every command keeps: one clause for the registers and ports that it does not read, one for each
command that writes anything else. -/
structure KeptByCommands (I : State → Prop) : Prop where
  /-- FAULT, HOST_SUSTAIN, RESET_REQ, the command port and the response port are not read. -/
  ports : ∀ {s : State} {code pedal request words answers}, I s →
    I { s with fault := code, hostSustain := pedal, resetReq := request, cmdPort := words, respPort := answers }
  /-- NOTE_ON (40_host_commands.md R141, R142). -/
  noteOn : ∀ {s : State} {key : Nat} (freq velocity : F32) (ts : Word), KeyFits key → I s →
    I (noteOn key freq velocity ts s)
  /-- NOTE_OFF (R143, R144). -/
  noteOff : ∀ {s : State} {key : Nat} (ts : Word), KeyFits key → I s → I (noteOff params key ts s)
  /-- The sequence of a RENDER, which runs under a legal patch only (R146, R147). -/
  sequence : ∀ {s : State} (n : Nat) (b m a : F32), patchLegal params s.patch = true → I s →
    I (renderSequence params (snapshot params s.patch) n b m a s)
  /-- SET_SAMPLING (R150). -/
  setSampling : ∀ {s : State} (sr spb : Word), I s → I (setSampling params sr spb s)
  /-- PATCH_WRITE of a defined word (R152). -/
  patchWrite : ∀ {s : State} {addr : Nat} (data : Word), patchDefined params addr = true → I s →
    I { s with patch := writeWord params s.patch addr data }
  /-- PATCH_RESET (R154). -/
  patchReset : ∀ {s : State}, I s → I (patchReset s)

section
variable {I : State → Prop}

theorem KeptByCommands.endResponse (K : KeptByCommands I) (h : I s) (owes : Bool) : I (endResponse owes s) := by
  cases owes
  · exact h
  · exact K.ports h

theorem KeptByCommands.raise (K : KeptByCommands I) (h : I s) (code : FaultCode) (owes : Bool) :
    I (raise code owes s) :=
  K.endResponse (K.ports h) owes

theorem KeptByCommands.unlessHalted (K : KeptByCommands I) (h : I s) {owes : Bool} {run : State → State}
    (hrun : I (run s)) : I (unlessHalted owes run s) :=
  unlessHalted_induct I (K.endResponse h owes) (fun _ => hrun)

theorem KeptByCommands.render (K : KeptByCommands I) (h : I s) (n : Nat) (b m a : F32) :
    I (render params n b m a s) := by
  rcases render_cases params n b m a s with ⟨code, e⟩ | ⟨-, -, hp, e⟩
  · rw [e]
    exact K.raise h code false
  · rw [e]
    exact K.sequence n _ _ _ hp h

theorem KeptByCommands.patchAccess (K : KeptByCommands I) (h : I s) (addr : Nat) :
    (∀ data, I (Machine.patchWrite params addr data s)) ∧ I (patchRead params addr s) := by
  unfold Machine.patchWrite patchRead
  split
  · exact ⟨fun _ => K.raise h _ _, K.raise h _ _⟩
  · next hd => exact ⟨fun data => K.patchWrite data (Bool.eq_true_of_not_eq_false hd) h, K.ports h⟩

theorem KeptByCommands.statusRead (K : KeptByCommands I) (h : I s) (addr : Nat) : I (statusRead params addr s) := by
  unfold Machine.statusRead
  split
  · exact K.ports h
  · exact K.raise h _ _

theorem KeptByCommands.exec (K : KeptByCommands I) (h : I s) {i : Instr} (hi : i.WellFormed)
    (he : exec i s = .next t) : I t := by
  cases i with
  | noteOn key freq velocity ts =>
    cases he
    exact K.unlessHalted h (K.noteOn freq velocity ts (of_decide_eq_true hi) h)
  | noteOff key ts =>
    cases he
    exact K.unlessHalted h (K.noteOff ts (of_decide_eq_true hi) h)
  | sustain down =>
    cases he
    exact K.unlessHalted h (K.ports h)
  | render n b m a =>
    cases he
    exact K.unlessHalted h (K.render h n b m a)
  | setSampling sr spb =>
    cases he
    exact K.unlessHalted h (K.setSampling sr spb h)
  | resetVoices =>
    cases he
    exact K.unlessHalted h (K.ports h)
  | patchWrite addr data =>
    cases he
    exact K.unlessHalted h ((K.patchAccess h addr).1 data)
  | patchRead addr =>
    cases he
    exact K.unlessHalted h (K.patchAccess h addr).2
  | patchReset =>
    cases he
    exact K.unlessHalted h (K.patchReset h)
  | statusRead addr =>
    cases he
    exact K.statusRead h addr

/-- What every command keeps, every step keeps. -/
theorem KeptByCommands.step (K : KeptByCommands I) (h : I s) (hs : step s = .next t) : I t := by
  have htaken : ∀ rest, I (taken rest s) := fun _ => K.ports h
  rcases step_cases hs with ⟨header, rest, rfl⟩ | ⟨i, rest, hi, he⟩
  · exact K.unlessHalted (htaken rest) (K.raise (htaken rest) _ _)
  · exact K.exec (htaken rest) hi he

end

/-! ### The power-on pool -/

/-- FullReset of every voice leaves the power-on pool (42_voice_ops.md R249). -/
theorem voices_forVoices_fullReset (hs : s.voices.length = P.maxVoices) :
    (forVoices P (fullReset P) s).voices = List.replicate P.maxVoices (voicePowerOn P) := by
  obtain ⟨hlen, hpool⟩ := forVoices_induct_upto (P := P) (f := fullReset P) (s := s)
    (fun n t => t.voices.length = P.maxVoices ∧ ∀ v, v < n → t.voice v = voicePowerOn P)
    ⟨hs, fun _ hv => absurd hv (Nat.not_lt_zero _)⟩
    (fun v t hv ht => ⟨(length_fullReset P v t).trans ht.1, fun u hu => by
      rw [voice_fullReset]
      split
      · rfl
      · exact ht.2 u (by omega)⟩)
  refine List.eq_replicate_iff.mpr ⟨hlen, fun x hx => ?_⟩
  obtain ⟨v, hv, rfl⟩ := List.getElem_of_mem hx
  rw [← voice_eq_getElem _ hv]
  exact hpool v (hlen ▸ hv)

/-- The power-on pool with empty queues has the lifecycle invariant, in either mode. -/
theorem Inv.of_powerOn (hv : s.voices = List.replicate P.maxVoices (voicePowerOn P))
    (hk : s.keymap = List.replicate 128 none) (hp : s.polyReq = []) (hm : s.monoReq = []) (hr : s.relQ = [])
    (hq : s.monoSeq = []) (hc : 1 ≤ s.curPoly ∧ s.curPoly ≤ P.maxVoices) : Inv P s where
  pool := (poolInv_resetWith P).congr hv hk
  queues := QueueInv.empty hp hm hr hq
  polyphony := hc
  pendingUnbound := by simp [hp]
  monoMode := fun _ => ⟨hp, fun v hlt hl => by
    have e : s.voice v = voicePowerOn P := by simp [State.voice, hv, hlt]
    rw [e] at hl
    exact absurd hl (by simp [voicePowerOn, isLive])⟩
  polyMode := fun _ => ⟨hm, hq⟩

/-! ### The lifecycle invariant -/

/-- SET_SAMPLING starts the pool and the queues anew, or faults (40_host_commands.md R150). -/
theorem Inv.setSampling (h : Inv P s) (sr spb : Word) : Inv P (setSampling P sr spb s) := by
  unfold Machine.setSampling
  split
  · exact h.raise _ _
  split
  · exact h.raise _ _
  · refine Inv.of_powerOn (voices_forVoices_fullReset h.pool.poolSize) rfl rfl rfl rfl rfl ?_
    rw [PoolOnly.forVoices (PoolOnly.fullReset P)]
    exact h.polyphony

theorem inv_keptByCommands : KeptByCommands (Inv params) where
  ports := fun h => h.congr rfl rfl rfl rfl rfl rfl rfl rfl
  noteOn := fun freq velocity ts hk h => h.noteOn hk freq velocity ts
  noteOff := fun ts hk h => h.noteOff hk ts
  sequence := fun n b m a hp h => h.renderSequence params_maxVoices.1 (snapshot_polyphony hp) n b m a
  setSampling := fun sr spb h => h.setSampling sr spb
  patchWrite := fun _ _ h => h.congr rfl rfl rfl rfl rfl rfl rfl rfl
  patchReset := fun h => h.congr rfl rfl rfl rfl rfl rfl rfl rfl

/-- Settles O58: every command keeps the lifecycle invariant, so every step does. -/
theorem stepKeepsLifecycleInvariant : Obligations.StepKeepsLifecycleInvariant :=
  fun _ _ h hs => inv_keptByCommands.step h hs

/-! ### The record invariant -/

/-- NOTE_ON releases a voice at most (40_host_commands.md R141). -/
theorem RecordInv.noteOn (h : RecordInv s) (key : Nat) (freq velocity : F32) (ts : Word) :
    RecordInv (noteOn key freq velocity ts s) := by
  unfold Machine.noteOn
  dsimp only
  split
  · exact h.raise _ _
  split
  · exact h.raise _ _
  split
  · unfold noteOnMono
    split <;> exact h.congr rfl
  · unfold noteOnPoly
    split
    · exact h
    · dsimp only
      split
      · exact h.congr rfl
      · next v _ => exact (h.releaseAndUnbind v).congr rfl

theorem RecordInv.setSampling (h : RecordInv s) (sr spb : Word) : RecordInv (setSampling P sr spb s) := by
  unfold Machine.setSampling
  split
  · exact h.raise _ _
  split
  · exact h.raise _ _
  · exact RecordInv.congr
      (forVoices_induct (s := { s with fs := sr, blockMax := spb, configured := true }) RecordInv (h.congr rfl)
        (fun v _ _ ht => ht.fullReset v)) rfl

theorem recordInv_keptByCommands : KeptByCommands RecordInv where
  ports := fun h => h.congr rfl
  noteOn := fun freq velocity ts _ h => h.noteOn _ freq velocity ts
  noteOff := fun ts _ h => h.congr (by rw [noteOff_frame])
  sequence := fun n b m a hp h => h.renderSequence (fun _ hi => snapshot_mods hp hi) n b m a
  setSampling := fun sr spb h => h.setSampling sr spb
  patchWrite := fun _ _ h => h.congr rfl
  patchReset := fun h => h.congr rfl

/-- Settles O59: every command keeps the shape of the voice records, so every step does. -/
theorem stepKeepsVoiceRecords : Obligations.StepKeepsVoiceRecords :=
  fun _ _ h hs => recordInv_keptByCommands.step h hs

/-! ### The samples of a block -/

/-- Settles O40: with or without a fault, samples keep every voice's note and leave Idle voices alone. -/
theorem samplesKeepConfiguration : Obligations.SamplesKeepConfiguration := by
  unfold Obligations.SamplesKeepConfiguration
  intro P pt n js s t h v
  have hr : Rendered s t := by
    rcases renderSamples_spec P pt n js s with ⟨u, _, e, hr, -⟩ | ⟨u, _, e, hr, -⟩
    · have hu : u = t := by simpa [e] using h
      exact hu ▸ hr
    · have hu : u = t := by simpa [e] using h
      exact hu ▸ hr
  exact ⟨hr.notes v, hr.idle v⟩

/-! ### Reset -/

theorem recordInv_resetWith (P : Params) : RecordInv (resetWith P) := by
  intro v hv
  rw [List.eq_of_mem_replicate hv]
  exact voicePowerOn_wf P

/-- After power-on nothing is stored, queued or configured (70_reset_and_hazards.md R360). -/
theorem dataInv_resetWith (P : Params) : DataInv P (resetWith P) where
  patchWf := Memory.wf_nil P
  patchDefinedOnly := fun _ h => absurd h List.not_mem_nil
  sampling := fun h => Bool.noConfusion h
  polyLegal := fun _ h => absurd h List.not_mem_nil
  monoLegal := fun _ h => absurd h List.not_mem_nil
  seqLegal := fun _ h => absurd h List.not_mem_nil
  framesFinite := fun _ h => absurd h List.not_mem_nil

/-- Settles O57: power-on has an idle pool of at least two voices and nothing stored. -/
theorem invariantsHoldAtReset : Obligations.InvariantsHoldAtReset :=
  ⟨Inv.of_powerOn rfl rfl rfl rfl rfl rfl ⟨Nat.one_le_of_lt params_maxVoices.1, Nat.le_refl _⟩,
    recordInv_resetWith params, dataInv_resetWith params⟩

end Sys2Proof.Machine
end

section
/-! PROOFS of the family 20_memory.md, the patch map (R81, R85 to R88): what validation guarantees, and undefined
addresses. -/

namespace Sys2Proof.Machine

variable {P : Params} {s : State}

/-- Every word of every operator group of a legal patch is legal (R83, R88). -/
theorem opWord_legal {m : List Host.Cell} (h : patchLegal P m = true) {i : Nat} (hi : i < 6) {r : PatchRow}
    (hr : r ∈ opRows i) : fieldLegal r.range (readWord P m r.addr) = true :=
  fieldLegal_of_patchLegal h (List.mem_append_right _ (List.mem_flatMap.mpr ⟨i, List.mem_range.mpr hi, hr⟩))

theorem modIndexLegal_iff (bound : Nat) (j : BitVec 3) : modIndexLegal bound j = true ↔ j = 7#3 ∨ j.toNat < bound := by
  simp [modIndexLegal]

/-- FLAGS has no reserved bit (R85). -/
theorem fieldLegal_flags {w : Word} (h : fieldLegal .flags w = true) :
    w.extractLsb' 3 1 = 0#1 ∧ w.extractLsb' 10 22 = 0#22 := by
  simpa [fieldLegal, field] using h

/-- MODS has no reserved bit, lower modulators and no higher feedback source (R86, R88 V4 and V5). -/
theorem fieldLegal_mods {i : Nat} {w : Word} (h : fieldLegal (.mods i) w = true) :
    w.extractLsb' 12 20 = 0#20
    ∧ (∀ j, j = w.extractLsb' 0 3 ∨ j = w.extractLsb' 3 3 ∨ j = w.extractLsb' 6 3 → j = 7#3 ∨ j.toNat < i)
    ∧ (w.extractLsb' 9 3 = 7#3 ∨ (w.extractLsb' 9 3 : BitVec 3).toNat ≤ i) := by
  simp only [fieldLegal, field, Bool.and_eq_true, beq_iff_eq, modIndexLegal_iff, Nat.lt_succ_iff] at h
  obtain ⟨⟨⟨⟨hres, h0⟩, h1⟩, h2⟩, hfb⟩ := h
  refine ⟨hres, ?_, hfb⟩
  rintro j (rfl | rfl | rfl)
  · exact h0
  · exact h1
  · exact h2

/-- Settles O23: POLYPHONY, FLAGS, MODS and COARSE are rows of the patch map, and validation checks every row. -/
theorem legalPatchHasNoCycle : Obligations.LegalPatchHasNoCycle := by
  unfold Obligations.LegalPatchHasNoCycle
  intro m h
  refine ⟨snapshot_polyphony h, fun i hi => ?_⟩
  have hflags := opWord_legal h hi (r := ⟨opBase i + 0x00, .flags, if i = 0 then 0x00000003#32 else 0⟩) (by simp [opRows])
  have hmods := opWord_legal h hi (r := ⟨opBase i + 0x01, .mods i, 0x00000FFF#32⟩) (by simp [opRows])
  have hcoarse := opWord_legal h hi (r := ⟨opBase i + 0x02, .u32 1 255, 1⟩) (by simp [opRows])
  have e1 : opBase i + 0x01 = 0x041 + 0x20 * i := by unfold opBase; omega
  have e2 : opBase i + 0x02 = 0x042 + 0x20 * i := by unfold opBase; omega
  rw [e1] at hmods
  rw [e2] at hcoarse
  obtain ⟨hbit, hhigh⟩ := fieldLegal_flags hflags
  obtain ⟨hres, hlow, hfb⟩ := fieldLegal_mods hmods
  exact ⟨hbit, hhigh, hres, hlow, hfb, (of_decide_eq_true hcoarse).1⟩

/-- A running engine raises the code it is given (60_exceptions.md R331, R332). -/
theorem raise_of_clear (h : s.fault = .clear) (code : FaultCode) :
    raise code false s = { s with fault := code }
    ∧ raise code true s = { s with fault := code, respPort := s.respPort ++ [0] } := by
  simp [raise, endResponse, respond, h]

theorem patchDefined_iff_patchWordDefined (P : Params) (addr : Nat) :
    patchDefined P addr = true ↔ Claims.patchWordDefined addr :=
  patchDefined_iff P addr

/-- Settles O50: outside the map both commands take the branch that raises BAD_ADDRESS. -/
theorem undefinedPatchAddressFaults : Obligations.UndefinedPatchAddressFaults := by
  unfold Obligations.UndefinedPatchAddressFaults
  intro s addr data hc hu
  have hrun : s.halted = false := by simp [State.halted, hc]
  have hd : patchDefined params addr = false := by
    rwa [← Bool.not_eq_true, patchDefined_iff_patchWordDefined]
  obtain ⟨hsilent, hzero⟩ := raise_of_clear hc .badAddress
  constructor
  · show Host.Outcome.next (unlessHalted false (patchWrite params addr data) s) = _
    rw [unlessHalted_running _ _ hrun, patchWrite, if_pos hd, hsilent]
  · show Host.Outcome.next (unlessHalted true (patchRead params addr) s) = _
    rw [unlessHalted_running _ _ hrun, patchRead, if_pos hd, hzero]

end Sys2Proof.Machine
end

section
/-! PROOFS of the family 20_memory.md, the status space (R89, R90, 40_host_commands.md R155). -/

namespace Sys2Proof.Machine

open Claims

/-! ### Which word stands at a status address -/

section
variable (P : Params) (s : State)

theorem statusWord_voiceStatus {v : Nat} (hv : v < P.maxVoices) (hv' : v < 0x100) :
    statusWord P s (0x0100 + v) = some (voiceStatusWord (s.voice v) (isDone (s.voice v))) := by
  unfold statusWord
  rw [if_neg (by omega), if_pos (by omega), Nat.add_sub_cancel_left]
  exact if_pos hv

theorem statusWord_keymap {k : Nat} (hk : k < 128) :
    statusWord P s (0x0200 + k) = some (indexWord (s.keyVoice k)) := by
  unfold statusWord
  rw [if_neg (by omega), if_neg (by omega), if_pos (by omega), Nat.add_sub_cancel_left]

theorem statusWord_polyReq {addr i f : Nat} (hi : i < 128) (hf : f < 4) (ha : addr = 0x0400 + 4 * i + f) :
    statusWord P s addr = some (entryWord requestWord s.polyReq i f) := by
  subst ha
  unfold statusWord
  rw [if_neg (by omega), if_neg (by omega), if_neg (by omega), if_neg (by omega), if_pos (by omega),
    show (0x0400 + 4 * i + f - 0x0400) / 4 = i by omega, show (0x0400 + 4 * i + f - 0x0400) % 4 = f by omega]

theorem statusWord_relQ {addr i f : Nat} (hi : i < 128) (hf : f < 2) (ha : addr = 0x0600 + 2 * i + f) :
    statusWord P s addr = some (entryWord releaseWord s.relQ i f) := by
  subst ha
  unfold statusWord
  rw [if_neg (by omega), if_neg (by omega), if_neg (by omega), if_neg (by omega), if_neg (by omega), if_pos (by omega),
    show (0x0600 + 2 * i + f - 0x0600) / 2 = i by omega, show (0x0600 + 2 * i + f - 0x0600) % 2 = f by omega]

theorem statusWord_monoSeq {addr i f : Nat} (hi : i < 128) (hf : f < 4) (ha : addr = 0x0700 + 4 * i + f) :
    statusWord P s addr = some (entryWord seqWord s.monoSeq i f) := by
  subst ha
  unfold statusWord
  rw [if_neg (by omega), if_neg (by omega), if_neg (by omega), if_neg (by omega), if_neg (by omega), if_neg (by omega),
    if_pos (by omega),
    show (0x0700 + 4 * i + f - 0x0700) / 4 = i by omega, show (0x0700 + 4 * i + f - 0x0700) % 4 = f by omega]

theorem statusWord_monoReq {f : Nat} (hf : f < 4) :
    statusWord P s (0x0900 + f) = some (entryWord requestWord s.monoReq 0 f) := by
  unfold statusWord
  rw [if_neg (by omega), if_neg (by omega), if_neg (by omega), if_neg (by omega), if_neg (by omega), if_neg (by omega),
    if_neg (by omega), if_pos (by omega), Nat.add_sub_cancel_left]

theorem statusWord_voiceData {addr v f : Nat} (hv : v < P.maxVoices) (hf : f < 16) (ha : addr = 0x1000 + 16 * v + f) :
    statusWord P s addr = voiceDataWord (s.voice v) f := by
  subst ha
  have hq : (0x1000 + 16 * v + f - 0x1000) / 16 = v := by omega
  have hr : (0x1000 + 16 * v + f - 0x1000) % 16 = f := by omega
  unfold statusWord
  rw [if_neg (by omega), if_neg (by omega), if_neg (by omega), if_neg (by omega), if_neg (by omega), if_neg (by omega),
    if_neg (by omega), if_neg (by omega), if_neg (by omega), hq, hr, if_pos hv]

/-- The seven words of the engine (R90). -/
theorem globalStatus_isSome {addr : Nat} (h : addr ≤ 6) : ∃ w, globalStatus P s addr = some w := by
  interval_cases addr <;> exact ⟨_, rfl⟩

/-- The ten words of a voice's data (R90). -/
theorem voiceDataWord_isSome (v : Voice) {f : Nat} (h : f < 10) : ∃ w, voiceDataWord v f = some w := by
  interval_cases f <;> exact ⟨_, rfl⟩

end

/-- The model's map has a word at every address of R90's. -/
theorem statusWord_isSome_of_defined (s : State) {addr : Nat} (h : statusWordDefined addr) :
    ∃ w, statusWord params s addr = some w := by
  have hmax := params_maxVoices.2
  rcases h with h | ⟨h, h'⟩ | ⟨h, h'⟩ | ⟨h, h'⟩ | ⟨h, h'⟩ | ⟨h, h'⟩ | ⟨h, h'⟩ | ⟨h, h', hf⟩
  · rw [statusWord, if_pos (by omega)]
    exact globalStatus_isSome params s h
  · obtain ⟨v, rfl⟩ := Nat.exists_eq_add_of_le h
    exact ⟨_, statusWord_voiceStatus params s (by omega) (by omega)⟩
  · obtain ⟨k, rfl⟩ := Nat.exists_eq_add_of_le h
    exact ⟨_, statusWord_keymap params s (by omega)⟩
  · exact ⟨_, statusWord_polyReq params s (i := (addr - 0x0400) / 4) (f := (addr - 0x0400) % 4)
      (by omega) (by omega) (by omega)⟩
  · exact ⟨_, statusWord_relQ params s (i := (addr - 0x0600) / 2) (f := (addr - 0x0600) % 2)
      (by omega) (by omega) (by omega)⟩
  · exact ⟨_, statusWord_monoSeq params s (i := (addr - 0x0700) / 4) (f := (addr - 0x0700) % 4)
      (by omega) (by omega) (by omega)⟩
  · obtain ⟨f, rfl⟩ := Nat.exists_eq_add_of_le h
    exact ⟨_, statusWord_monoReq params s (by omega)⟩
  · rw [statusWord_voiceData params s (v := (addr - 0x1000) / 16) (f := (addr - 0x1000) % 16)
      (by omega) (by omega) (by omega)]
    exact voiceDataWord_isSome _ hf

/-- STATUS_READ of `addr` answers `w` and changes nothing else (40_host_commands.md R155). -/
def StatusReads (s : State) (addr : Nat) (w : Word) : Prop :=
  exec (.statusRead addr) s = .next { s with respPort := s.respPort ++ [w] }

/-- STATUS_READ answers the word at its address, HALTED or not. -/
theorem StatusReads.of_statusWord {s : State} {addr : Nat} {w : Word} (h : statusWord params s addr = some w) :
    StatusReads s addr w := by
  show Host.Outcome.next (statusRead params addr s) = _
  rw [statusRead, h]
  rfl

/-- Settles O52: every address of the status map has a word, and STATUS_READ answers it. -/
theorem statusReadOnlyAnswers : Obligations.StatusReadOnlyAnswers := by
  unfold Obligations.StatusReadOnlyAnswers
  intro s addr h
  obtain ⟨w, hw⟩ := statusWord_isSome_of_defined s h
  exact ⟨w, StatusReads.of_statusWord hw⟩

/-! ### The fields of the packed words -/

theorem toNat_append_eq_add {m n : Nat} (x : BitVec m) (y : BitVec n) :
    (x ++ y).toNat = x.toNat * 2 ^ n + y.toNat := by
  rw [BitVec.toNat_append, ← Nat.shiftLeft_add_eq_or_of_lt y.isLt, Nat.shiftLeft_eq]

theorem bitAt_eq (b : Bool) (k : Nat) : bitAt b k = b.toNat * 2 ^ k := by
  cases b <;> simp [bitAt]

/-- A word is the number its bits spell. -/
theorem ofNat_eq_of_toNat {n k : Nat} {x : BitVec n} (h : k = x.toNat) : BitVec.ofNat n k = x := by
  rw [h, BitVec.ofNat_toNat, BitVec.setWidth_eq]

theorem engineWord_fields (P : Params) (s : State) :
    engineWord P s = 0#8 ++ BitVec.ofNat 8 P.maxVoices ++ BitVec.ofNat 8 s.curPoly ++ 0#1
      ++ BitVec.ofBool (s.fault != .clear) ++ BitVec.ofBool s.prevSustain ++ BitVec.ofBool s.hostSustain
      ++ BitVec.ofBool s.switchPending ++ BitVec.ofBool s.resetReq ++ BitVec.ofBool (s.mode == .mono)
      ++ BitVec.ofBool s.configured := by
  have hmode : modeNumber s.mode = (s.mode == .mono).toNat := by cases s.mode <;> rfl
  refine ofNat_eq_of_toNat ?_
  simp only [State.halted, hmode, bitAt_eq, toNat_append_eq_add, BitVec.toNat_ofNat, BitVec.toNat_ofBool]
  omega

theorem faultWord_fields (c : FaultCode) : BitVec.ofNat 32 (faultNumber c) = 0#24 ++ faultCode c := by
  cases c <;> rfl

theorem queuesWord_fields (s : State) :
    queuesWord s = BitVec.ofNat 8 s.monoSeq.length ++ BitVec.ofNat 8 s.relQ.length ++ BitVec.ofNat 8 s.monoReq.length
      ++ BitVec.ofNat 8 s.polyReq.length := by
  refine ofNat_eq_of_toNat ?_
  simp only [toNat_append_eq_add, BitVec.toNat_ofNat]
  omega

theorem countsWord_fields (s : State) :
    countsWord s = 0#8 ++ BitVec.ofNat 8 (s.voices.countP (fun v => v.state == .idle))
      ++ BitVec.ofNat 8 (s.voices.countP (fun v => v.state == .stolen))
      ++ BitVec.ofNat 8 (s.voices.countP (fun v => v.state == .playing || v.state == .releasing)) := by
  refine ofNat_eq_of_toNat ?_
  simp only [isLive, toNat_append_eq_add, BitVec.toNat_ofNat]
  omega

theorem keyField_lt (k : Option Nat) : keyField k < 256 := by
  cases k with
  | none => decide
  | some k => exact Nat.mod_lt k (by decide)

theorem voiceStatusWord_fields (v : Voice) (done : Bool) :
    voiceStatusWord v done = 0#16 ++ BitVec.ofNat 8 (keyField v.key) ++ 0#4 ++ BitVec.ofBool done
      ++ BitVec.ofBool v.sustained ++ stateCode v.state := by
  have hkey := keyField_lt v.key
  have hstate : voiceStateNumber v.state = (stateCode v.state).toNat := by cases v.state <;> rfl
  refine ofNat_eq_of_toNat ?_
  simp only [hstate, bitAt_eq, toNat_append_eq_add, BitVec.toNat_ofNat, BitVec.toNat_ofBool]
  omega

theorem ofNat_keyField_some (k : Nat) : BitVec.ofNat 8 (keyField (some k)) = BitVec.ofNat 8 k :=
  BitVec.eq_of_toNat_eq (by simp [keyField])

/-- The key of a queue entry, as its first word holds it. -/
theorem keyWord_fields (k : Nat) : BitVec.ofNat 32 (k % 128) = 0#25 ++ BitVec.ofNat 7 k := by
  refine ofNat_eq_of_toNat ?_
  simp only [toNat_append_eq_add, BitVec.toNat_ofNat]
  omega

theorem requestWord_zero_fields (r : VoiceRequest) :
    requestWord r 0 = 0#23 ++ BitVec.ofBool r.monoRetrigger ++ 0#1 ++ BitVec.ofNat 7 r.key := by
  refine ofNat_eq_of_toNat ?_
  simp only [bitAt_eq, toNat_append_eq_add, BitVec.toNat_ofNat, BitVec.toNat_ofBool]
  omega

/-- Settles O53: each address has its word, and each word's fields stand at their bits. -/
theorem statusWordLayouts : Obligations.StatusWordLayouts := by
  unfold Obligations.StatusWordLayouts
  intro s
  have hmax := params_maxVoices.2
  refine ⟨?engine, ?fault, ?fs, ?blockMax, ?queues, ?counts, ?phase, fun v hv => ?voice, fun k hk => ?key⟩ <;>
    apply StatusReads.of_statusWord
  case engine => exact congrArg some (engineWord_fields params s)
  case fault => exact congrArg some (faultWord_fields s.fault)
  case fs | blockMax | phase => rfl
  case queues => exact congrArg some (queuesWord_fields s)
  case counts => exact congrArg some (countsWord_fields s)
  case voice =>
    rw [statusWord_voiceStatus params s hv (by omega), voiceStatusWord_fields]
    cases (s.voice v).key with
    | none => rfl
    | some k => rw [ofNat_keyField_some]
  case key =>
    rw [statusWord_keymap params s hk]
    cases s.keyVoice k <;> rfl

/-! ### Queue entries and voice data -/

section
variable {α : Type} {word : α → Nat → Word} {q : List α} {s : State} {addr i f : Nat}

/-- An entry at or beyond the length of its queue reads as 0 (R89). -/
theorem StatusReads.of_length_le (h : statusWord params s addr = some (entryWord word q i f)) (hi : q.length ≤ i) :
    StatusReads s addr 0 := by
  rw [entryWord, List.getElem?_eq_none hi] at h
  exact .of_statusWord h

/-- An entry of a queue reads as its fields. -/
theorem StatusReads.of_entry (h : statusWord params s addr = some (entryWord word q i f)) {e : α} (he : q[i]? = some e) :
    StatusReads s addr (word e f) := by
  rw [entryWord, he] at h
  exact .of_statusWord h

end

/-- A voice's stored outputs are words 4 to 9 of its data (R90). -/
theorem voiceDataWord_prevMod {v : Voice} {f : Nat} (h : 4 ≤ f) (h' : f ≤ 9) {x : F32} (hx : v.prevMod[f - 4]? = some x) :
    voiceDataWord v f = some x := by
  have e : voiceDataWord v f = some (v.prevMod.getD (f - 4) fZero) := by interval_cases f <;> rfl
  rw [e, List.getD_eq_getElem?_getD, hx, Option.getD_some]

/-- Settles O54: each address has its entry's or voice's field, and the packed first words their fields. -/
theorem statusQueueAndVoiceWords : Obligations.StatusQueueAndVoiceWords := by
  unfold Obligations.StatusQueueAndVoiceWords
  intro s
  refine ⟨fun i hi => ⟨fun hlen f hf => ?_, fun r hr => ?polyReq⟩, fun i hi => ⟨fun hlen f hf => ?_, fun r hr => ?relQ⟩,
    fun i hi => ⟨fun hlen f hf => ?_, fun e he => ?monoSeq⟩, ⟨fun hnil f hf => ?_, fun r hr => ?monoReq⟩,
    fun v hv => ?voiceData⟩
  · exact StatusReads.of_length_le (statusWord_polyReq params s hi hf rfl) hlen
  case polyReq =>
    have field : ∀ {addr f : Nat}, f < 4 → addr = 0x0400 + 4 * i + f → StatusReads s addr (requestWord r f) :=
      fun hf ha => .of_entry (statusWord_polyReq params s hi hf ha) hr
    rw [← requestWord_zero_fields]
    exact ⟨field (f := 0) (by decide) rfl, field (f := 1) (by decide) (by omega), field (f := 2) (by decide) (by omega),
      field (f := 3) (by decide) (by omega)⟩
  · exact StatusReads.of_length_le (statusWord_relQ params s hi hf rfl) hlen
  case relQ =>
    have field : ∀ {addr f : Nat}, f < 2 → addr = 0x0600 + 2 * i + f → StatusReads s addr (releaseWord r f) :=
      fun hf ha => .of_entry (statusWord_relQ params s hi hf ha) hr
    rw [← keyWord_fields]
    exact ⟨field (f := 0) (by decide) rfl, field (f := 1) (by decide) (by omega)⟩
  · exact StatusReads.of_length_le (statusWord_monoSeq params s hi hf rfl) hlen
  case monoSeq =>
    have field : ∀ {addr f : Nat}, f < 4 → addr = 0x0700 + 4 * i + f → StatusReads s addr (seqWord e f) :=
      fun hf ha => .of_entry (statusWord_monoSeq params s hi hf ha) he
    rw [← keyWord_fields]
    exact ⟨field (f := 0) (by decide) rfl, field (f := 1) (by decide) (by omega), field (f := 2) (by decide) (by omega),
      field (f := 3) (by decide) (by omega)⟩
  · exact StatusReads.of_length_le (statusWord_monoReq params s hf) (by simp [hnil])
  case monoReq =>
    have field : ∀ {f : Nat}, f < 4 → StatusReads s (0x0900 + f) (requestWord r f) :=
      fun hf => .of_entry (statusWord_monoReq params s hf) hr
    rw [← requestWord_zero_fields]
    exact ⟨field (f := 0) (by decide), field (f := 1) (by decide), field (f := 2) (by decide), field (f := 3) (by decide)⟩
  case voiceData =>
    have field : ∀ {addr f : Nat} {w : Word}, f < 16 → addr = 0x1000 + 16 * v + f →
        voiceDataWord (s.voice v) f = some w → StatusReads s addr w :=
      fun hf ha hw => .of_statusWord ((statusWord_voiceData params s hv hf ha).trans hw)
    exact ⟨field (f := 0) (by decide) rfl rfl, field (f := 1) (by decide) (by omega) rfl,
      field (f := 2) (by decide) (by omega) rfl, field (f := 3) (by decide) (by omega) rfl,
      fun f h4 h9 x hx => field (by omega) rfl (voiceDataWord_prevMod h4 h9 hx)⟩

end Sys2Proof.Machine
end

section
/-! PROOFS of the family 20_memory.md, the stored data: the patch RAM, the sampling configuration, the queued operands
and the emitted frames stay in range (R87, 40_host_commands.md R142, R150, 41_lifecycle.md R216). -/

namespace Sys2Proof.Machine

variable {P : Params} {s t u : State}

/-! ### The cells of the patch RAM -/

/-- A byte write lists no byte but its own that was not listed before. -/
theorem mem_writeByte {m : List Host.Cell} {a : Nat} {x : Byte} {c : Host.Cell} (h : c ∈ writeByte P m a x) :
    c ∈ m ∨ c.1 = a := by
  induction m with
  | nil =>
    unfold writeByte at h
    split at h
    · exact .inl h
    · exact .inr (by rw [List.mem_singleton.mp h])
  | cons d m ih =>
    obtain ⟨b, y⟩ := d
    unfold writeByte at h
    split at h
    · -- the cell would stand before this one
      split at h
      · exact .inl h
      · exact (List.mem_cons.mp h).elim (fun e => .inr (by rw [e])) .inl
    split at h
    · -- it takes this one's place
      split at h
      · exact .inl (List.mem_cons_of_mem _ h)
      · exact (List.mem_cons.mp h).elim (fun e => .inr (by rw [e])) (fun h => .inl (List.mem_cons_of_mem _ h))
    · -- it stands further on
      exact (List.mem_cons.mp h).elim (fun e => .inl (e ▸ List.mem_cons_self))
        (fun h => (ih h).imp_left (List.mem_cons_of_mem _))

/-- A word write lists no byte but the word's own that was not listed before. -/
theorem mem_writeWord {m : List Host.Cell} {addr : Nat} {w : Word} {c : Host.Cell} (h : c ∈ writeWord P m addr w) :
    c ∈ m ∨ c.1 / 4 = addr := by
  rcases mem_writeByte h with h | h
  · rcases mem_writeByte h with h | h
    · rcases mem_writeByte h with h | h
      · rcases mem_writeByte h with h | h
        · exact .inl h
        · exact .inr (by omega)
      · exact .inr (by omega)
    · exact .inr (by omega)
  · exact .inr (by omega)

/-! ### No part of a RENDER queues a note -/

/-- Every note that `t` queues, `s` queues too. -/
structure NoNewNotes (s t : State) : Prop where
  poly : t.polyReq ⊆ s.polyReq
  mono : t.monoReq ⊆ s.monoReq
  seq : t.monoSeq ⊆ s.monoSeq

theorem NoNewNotes.of_eq (hp : t.polyReq = s.polyReq) (hm : t.monoReq = s.monoReq) (hq : t.monoSeq = s.monoSeq) :
    NoNewNotes s t :=
  ⟨hp ▸ List.Subset.refl _, hm ▸ List.Subset.refl _, hq ▸ List.Subset.refl _⟩

theorem NoNewNotes.refl (s : State) : NoNewNotes s s := .of_eq rfl rfl rfl

theorem NoNewNotes.trans (h : NoNewNotes s t) (h' : NoNewNotes t u) : NoNewNotes s u :=
  ⟨List.Subset.trans h'.poly h.poly, List.Subset.trans h'.mono h.mono, List.Subset.trans h'.seq h.seq⟩

theorem PoolOnly.noNewNotes (h : PoolOnly s t) : NoNewNotes s t := by
  unfold PoolOnly at h
  rw [h]
  exact .of_eq rfl rfl rfl

theorem forceSteal_noNewNotes (changed : Bool) (s : State) : NoNewNotes s (forceSteal P changed s) where
  poly := List.nil_subset _
  mono := List.nil_subset _
  seq := List.nil_subset _

theorem resolvePoly_noNewNotes (s : State) : NoNewNotes s (resolvePoly s.relQ [] s) := by
  obtain ⟨t, kept, e, h, -⟩ := resolvePoly_induct (NoNewNotes s)
    (fun t v ht _ _ => ht.trans (PoolOnly.setVoice t v _).noNewNotes) s.relQ [] s (NoNewNotes.refl s)
  rw [e]
  exact h.trans (.of_eq rfl rfl rfl)

theorem retarget_noNewNotes (pt : Patch) (n : Nat) (s : State) : NoNewNotes s (retarget P pt n s) :=
  (PoolOnly.forVoices (fun v t => PoolOnly.setVoice t v _) s).noNewNotes

/-- The requests that step 4 leaves in POLY_REQ are among those it kept and those it still had to serve. -/
theorem allocatePoly_noNewNotes (pt : Patch) (reqs keep : List VoiceRequest) (s : State) :
    NoNewNotes { s with polyReq := keep ++ reqs } (allocatePoly P pt reqs keep s) := by
  induction reqs generalizing keep s with
  | nil => exact .of_eq (List.append_nil keep).symm rfl rfl
  | cons req reqs ih =>
    unfold allocatePoly
    split
    · have h := ih (keep ++ [req]) s
      rwa [List.append_assoc] at h
    · next v _ =>
      refine NoNewNotes.trans ⟨?_, ?_, ?_⟩ (ih keep (initializeVoice P pt v req s))
      · exact ((List.sublist_cons_self req reqs).append_left keep).subset
      · exact (PoolOnly.initializeVoice P pt v req s).noNewNotes.mono
      · exact (PoolOnly.initializeVoice P pt v req s).noNewNotes.seq

theorem allocatePoly_sorted_noNewNotes (pt : Patch) (s : State) :
    NoNewNotes s (allocatePoly P pt (sortNewestFirst s.polyReq) [] s) :=
  NoNewNotes.trans (t := { s with polyReq := sortNewestFirst s.polyReq })
    ⟨(sortNewestFirst_perm _).subset, List.Subset.refl _, List.Subset.refl _⟩ (allocatePoly_noNewNotes pt _ [] s)

theorem allocateMono_noNewNotes (pt : Patch) (s : State) : NoNewNotes s (allocateMono P pt s) := by
  unfold allocateMono
  split
  · obtain ⟨t, kept, e, h, -⟩ := resolveMono_induct (NoNewNotes s)
      (fun t ht _ _ => ht.trans (PoolOnly.setVoice t 0 _).noNewNotes) s.relQ [] s (NoNewNotes.refl s)
    rw [e]
    exact h.trans (.of_eq rfl rfl rfl)
  · exact NoNewNotes.trans (t := { s with monoReq := [], relQ := [] })
      ⟨List.Subset.refl _, List.nil_subset _, List.Subset.refl _⟩
      (PoolOnly.initializeMonoVoice P pt _ _).noNewNotes

theorem preRender_noNewNotes (pt : Patch) (n : Nat) (s : State) : NoNewNotes s (preRender P pt n s) := by
  unfold preRender
  dsimp only
  refine NoNewNotes.trans (t := latchMode pt s) (.of_eq rfl rfl rfl) ?_
  split
  · exact forceSteal_noNewNotes _ _
  · unfold preRenderVoices
    split
    · exact ((resolvePoly_noNewNotes _).trans (retarget_noNewNotes pt n _)).trans (allocatePoly_sorted_noNewNotes pt _)
    · exact (retarget_noNewNotes pt n _).trans (allocateMono_noNewNotes pt _)

theorem beforeSamples_noNewNotes (pt : Patch) (n : Nat) (b m a : F32) (s : State) :
    NoNewNotes s (beforeSamples P pt n b m a s) := by
  refine NoNewNotes.trans (.of_eq ?_ ?_ ?_) (preRender_noNewNotes pt n _) <;> rw [updateSustain_keeps] <;> rfl

theorem Rendered.noNewNotes (h : Rendered s t) : NoNewNotes s t := by
  rw [h.frame]
  exact .of_eq rfl rfl rfl

theorem postRender_noNewNotes (s : State) : NoNewNotes s (postRender P s) := by
  have hf : NoNewNotes s { freePass P s with switchPending := false } :=
    (PoolOnly.forVoices (PoolOnly.freeIfDone P) s).noNewNotes.trans (.of_eq rfl rfl rfl)
  unfold postRender
  dsimp only
  split
  · exact hf.trans (stealPass_pool P _).noNewNotes
  · exact hf

/-- A RENDER queues no note, and the frames it emits are finite (40_host_commands.md R147, 41_lifecycle.md R216). -/
theorem renderSequence_notes_frames (pt : Patch) (n : Nat) (b m a : F32) (s : State) :
    NoNewNotes s (renderSequence P pt n b m a s)
    ∧ ∃ fs, (renderSequence P pt n b m a s).framePort = s.framePort ++ fs
      ∧ ∀ f ∈ fs, isFinite f.left = true ∧ isFinite f.right = true := by
  have hb := beforeSamples_noNewNotes (P := P) pt n b m a s
  have hport : (beforeSamples P pt n b m a s).framePort = s.framePort := (beforeSamples_untouched pt n b m a s).framePort
  unfold renderSequence
  rcases renderSamples_spec P pt n (List.range n) (beforeSamples P pt n b m a s) with
    ⟨t, _, e, hr, -⟩ | ⟨t, _, e, hr, -⟩
  · obtain ⟨fs, hfs, hfin⟩ := hr.frames
    rw [e]
    exact ⟨(hb.trans hr.noNewNotes).trans (.of_eq rfl rfl rfl), fs, hport ▸ hfs, hfin⟩
  · obtain ⟨fs, hfs, hfin⟩ := hr.frames
    rw [e]
    exact ⟨(hb.trans hr.noNewNotes).trans (postRender_noNewNotes t), fs,
      (postRender_untouched t).framePort.trans (hport ▸ hfs), hfin⟩

/-! ### The data invariant -/

theorem DataInv.poolOnly (h : DataInv P s) (hp : PoolOnly s t) : DataInv P t := by
  unfold PoolOnly at hp
  rw [hp]
  exact { h with }

theorem DataInv.raise (h : DataInv P s) (code : FaultCode) (owes : Bool) : DataInv P (raise code owes s) := by
  cases owes <;> exact { h with }

/-- NoteOnMono queues its own operands (40_host_commands.md R142). -/
theorem DataInv.noteOnMono (h : DataInv P s) {f vel : F32} (hq : queuedLegal f vel) (k : Nat) (ts : Word)
    (retrig : Bool) : DataInv P (noteOnMono k f vel ts retrig s) := by
  unfold Machine.noteOnMono
  split
  · exact h
  · refine { h with monoLegal := fun r hr => ?_, seqLegal := fun e he => ?_ }
    · rcases List.mem_append.mp hr with hr | hr
      · refine h.monoLegal r ?_
        split at hr
        · exact List.mem_of_mem_drop hr
        · exact hr
      · rw [List.mem_singleton.mp hr]
        exact hq
    · dsimp only at he
      split at he
      · exact h.seqLegal e he
      · rcases List.mem_cons.mp he with rfl | he
        · exact hq
        · exact h.seqLegal e ((removeKey_sublist _ _ _).subset he)

/-- The polyphonic NOTE_ON queues its own operands (R141). -/
theorem DataInv.noteOnPoly (h : DataInv P s) {f vel : F32} (hq : queuedLegal f vel) (k : Nat) (ts : Word) :
    DataInv P (noteOnPoly k f vel ts s) := by
  have push : ∀ t : State, DataInv P t →
      DataInv P { t with polyReq := popWhileFull t.curPoly t.polyReq ++ [⟨k, f, vel, ts, false⟩] } := by
    intro t ht
    refine { ht with polyLegal := fun r hr => ?_ }
    rcases List.mem_append.mp hr with hr | hr
    · exact ht.polyLegal r ((popWhileFull_sublist _ _).subset hr)
    · rw [List.mem_singleton.mp hr]
      exact hq
  unfold Machine.noteOnPoly
  split
  · exact h
  · dsimp only
    split
    · exact push s h
    · next v _ => exact push _ (h.poolOnly (PoolOnly.releaseAndUnbind v s))

/-- NOTE_ON queues operands that passed its checks only (R141). -/
theorem DataInv.noteOn (h : DataInv P s) (k : Nat) (freq velocity : F32) (ts : Word) :
    DataInv P (noteOn k freq velocity ts s) := by
  unfold Machine.noteOn
  dsimp only
  split
  · exact h.raise _ _
  split
  · exact h.raise _ _
  · next hf hv =>
    have hq : queuedLegal (operandF32 freq) (operandF32 velocity) :=
      ⟨Bool.eq_true_of_not_eq_false hf, Bool.eq_true_of_not_eq_false hv⟩
    split
    · exact h.noteOnMono hq k ts false
    · exact h.noteOnPoly hq k ts

/-- A retrigger queues a note of the mono sequence again (R144). -/
theorem DataInv.monoReleaseRetrigger (h : DataInv P s) (k : Nat) (ts : Word) :
    DataInv P (monoReleaseRetrigger P k ts s) := by
  have ht : DataInv P { s with monoSeq := removeKey SeqEntry.key k s.monoSeq } :=
    { h with seqLegal := fun e he => h.seqLegal e ((removeKey_sublist _ _ _).subset he) }
  unfold Machine.monoReleaseRetrigger
  dsimp only
  split
  · next e es _ hseq =>
    split
    · exact ht.noteOnMono (ht.seqLegal e (hseq ▸ List.mem_cons_self)) _ _ _
    · exact ht
  · exact ht

/-- NOTE_OFF takes requests back, and queues none but a retrigger (R143, R144). -/
theorem DataInv.noteOff (h : DataInv P s) (k : Nat) (ts : Word) : DataInv P (noteOff P k ts s) := by
  have ht : DataInv P { s with polyReq := removeKey VoiceRequest.key k s.polyReq
                               monoReq := removeKey VoiceRequest.key k s.monoReq } :=
    { h with polyLegal := fun r hr => h.polyLegal r ((removeKey_sublist _ _ _).subset hr)
             monoLegal := fun r hr => h.monoLegal r ((removeKey_sublist _ _ _).subset hr) }
  have push : ∀ t : State, DataInv P t → ∀ dup : Bool,
      DataInv P (if dup then t else { t with relQ := t.relQ ++ [⟨k, ts⟩] }) := by
    intro t h dup
    cases dup
    · exact { h with }
    · exact h
  refine push _ ?_ _
  split
  · exact ht.monoReleaseRetrigger k ts
  · exact ht

theorem DataInv.renderSequence (h : DataInv P s) (pt : Patch) (n : Nat) (b m a : F32) :
    DataInv P (renderSequence P pt n b m a s) := by
  obtain ⟨hconf, hfs, hblock, -, hpatch, -, -⟩ := renderSequence_frame (P := P) pt n b m a s
  obtain ⟨hnotes, fs, hport, hfin⟩ := renderSequence_notes_frames (P := P) pt n b m a s
  exact {
    patchWf := hpatch ▸ h.patchWf
    patchDefinedOnly := hpatch ▸ h.patchDefinedOnly
    sampling := by rw [hconf, hfs, hblock]; exact h.sampling
    polyLegal := fun r hr => h.polyLegal r (hnotes.poly hr)
    monoLegal := fun r hr => h.monoLegal r (hnotes.mono hr)
    seqLegal := fun e he => h.seqLegal e (hnotes.seq he)
    framesFinite := fun f hf => by
      rw [hport] at hf
      exact (List.mem_append.mp hf).elim (h.framesFinite f) (hfin f) }

/-- SET_SAMPLING checks its two words, and empties the queues (R150). -/
theorem DataInv.setSampling (h : DataInv P s) (sr spb : Word) : DataInv P (setSampling P sr spb s) := by
  unfold Machine.setSampling
  split
  · exact h.raise _ _
  split
  · exact h.raise _ _
  · next hr hb =>
    have hrate := of_decide_eq_true (Bool.eq_true_of_not_eq_false hr)
    have hsize := of_decide_eq_true (Bool.eq_true_of_not_eq_false hb)
    have hset : DataInv P { s with fs := sr, blockMax := spb, configured := true } :=
      { h with sampling := fun _ => ⟨hrate, Nat.pos_of_ne_zero hsize.1, hsize.2⟩ }
    have hpool := hset.poolOnly (PoolOnly.forVoices (P := P) (PoolOnly.fullReset P) _)
    exact { hpool with
      polyLegal := fun _ hr => absurd hr List.not_mem_nil
      monoLegal := fun _ hr => absurd hr List.not_mem_nil
      seqLegal := fun _ he => absurd he List.not_mem_nil }

/-- PATCH_WRITE of a defined word (20_memory.md R87). -/
theorem DataInv.patchWrite (h : DataInv P s) {addr : Nat} (hd : patchDefined P addr = true) (data : Word) :
    DataInv P { s with patch := writeWord P s.patch addr data } :=
  { h with
    patchWf := writeWord_wf P s.patch addr data h.patchWf
    patchDefinedOnly := fun c hc => (mem_writeWord hc).elim (h.patchDefinedOnly c) (fun e => e ▸ hd) }

theorem DataInv.patchReset (h : DataInv P s) : DataInv P (patchReset s) :=
  { h with patchWf := Memory.wf_nil P, patchDefinedOnly := fun _ hc => absurd hc List.not_mem_nil }

theorem dataInv_keptByCommands : KeptByCommands (DataInv params) where
  ports := fun h => { h with }
  noteOn := fun freq velocity ts _ h => h.noteOn _ freq velocity ts
  noteOff := fun ts _ h => h.noteOff _ ts
  sequence := fun n b m a _ h => h.renderSequence _ n b m a
  setSampling := fun sr spb h => h.setSampling sr spb
  patchWrite := fun data hd h => h.patchWrite hd data
  patchReset := fun h => h.patchReset

/-- Settles O60: every command keeps the ranges of the stored data, so every step does. -/
theorem stepKeepsDataRanges : Obligations.StepKeepsDataRanges :=
  fun _ _ h hs => dataInv_keptByCommands.step h hs

end Sys2Proof.Machine
end

section
/-! PROOFS of the family 30_encoding.md, the round trip of encoder and decoder (R101 to R114): a header is its fields, so
a legal packet is the encoding of the command that its fields and payload make. -/

namespace Sys2Proof

/-! ### Headers by their fields -/

/-- R114's checks pass exactly when each of them does. -/
theorem headerIllegal_eq_none_iff (w : Word) :
    headerIllegal w = none ↔ opcodeKnown (opcOf w) = true ∧ reservedBitOf w = 0
      ∧ (opcodeUsesKey (opcOf w) = false → keyOf w = 0) ∧ strayImm16 (opcOf w) (imm16Of w) = 0 := by
  unfold headerIllegal
  split_ifs <;> simp_all

theorem headerIllegal_ne_none_iff (w : Word) :
    headerIllegal w ≠ none ↔ opcodeKnown (opcOf w) = false ∨ reservedBitOf w ≠ 0
      ∨ (opcodeUsesKey (opcOf w) = false ∧ keyOf w ≠ 0) ∨ strayImm16 (opcOf w) (imm16Of w) ≠ 0 := by
  rw [ne_eq, headerIllegal_eq_none_iff]
  simp only [not_and_or, Classical.not_imp, Bool.not_eq_true, ne_eq]

/-- A header with bit 23 clear is the one written from its fields: no bit is left over. -/
theorem headerWord_of_fields {w : Word} {o k m : Nat} (hr : reservedBitOf w = 0) (ho : opcOf w = o) (hk : keyOf w = k)
    (hm : imm16Of w = m) : headerWord o k m = w := by
  apply BitVec.eq_of_toNat_eq
  have hlt := w.isLt
  unfold reservedBitOf at hr
  unfold opcOf at ho
  unfold keyOf at hk
  unfold imm16Of at hm
  rw [headerWord_toNat (by omega) (by omega) (by omega)]
  omega

/-! ### Every command comes back from its packet -/

/-- A packet written from fields that its opcode admits decodes to the command they make, whatever follows it. -/
theorem decode_packet {o k m : Nat} {payload rest : List Word} {i : Instr} (ho : opcodeKnown o = true) (hk : k < 128)
    (hm : m < 65536) (hkey : opcodeUsesKey o = false → k = 0) (hstray : strayImm16 o m = 0)
    (hlen : payload.length + 1 = packetWords o)
    (hi : ∀ w, opcOf w = o → keyOf w = k → imm16Of w = m → assemble w ((payload ++ rest).getD 0 0)
      ((payload ++ rest).getD 1 0) ((payload ++ rest).getD 2 0) = some i) :
    decode (headerWord o k m :: payload ++ rest) = .command i rest := by
  have hlt : o < 256 := by have := of_decide_eq_true ho; omega
  obtain ⟨hopc, hkeyOf, himm, hbit⟩ := header_fields hlt hk hm
  have hlegal : headerIllegal (headerWord o k m) = none := by
    rw [headerIllegal_eq_none_iff, hopc, hkeyOf, himm]
    exact ⟨ho, hbit, hkey, hstray⟩
  have hwhole : packetWords (opcOf (headerWord o k m)) ≤ (payload ++ rest).length + 1 := by
    rw [hopc, ← hlen, List.length_append]
    omega
  rcases decode_cons _ _ hwhole with ⟨why, hbad, -⟩ | ⟨-, j, hj, hd⟩
  · rw [hlegal] at hbad
    cases hbad
  · rw [hi _ hopc hkeyOf himm] at hj
    cases hj
    rwa [hopc, ← hlen, Nat.add_sub_cancel, List.drop_left] at hd

/-- A well-formed command's header passes R114's checks and reads its fields back. -/
theorem decode_encode {i : Instr} (rest : List Word) (h : i.WellFormed) :
    decode (encode i ++ rest) = .command i rest := by
  cases i
  case noteOn key _ _ _ | noteOff key _ =>
    exact decode_packet rfl (of_decide_eq_true h) (by decide) nofun rfl rfl
      (fun w ho hk _ => by simp [assemble, ho, hk])
  case sustain down =>
    cases down <;>
      exact decode_packet rfl (by decide) (by decide) (fun _ => rfl) rfl rfl
        (fun w ho _ hm => by simp [assemble, ho, hm])
  case render imm _ _ _ | patchWrite imm _ | patchRead imm | statusRead imm =>
    exact decode_packet rfl (by decide) (of_decide_eq_true h) (fun _ => rfl) rfl rfl
      (fun w ho _ hm => by simp [assemble, ho, hm])
  case setSampling | resetVoices | patchReset =>
    exact decode_packet rfl (by decide) (by decide) (fun _ => rfl) rfl rfl (fun w ho _ _ => by simp [assemble, ho])

/-- Settles O1: every well-formed command's header reads its fields back and passes R114's checks. -/
theorem decodeOfEncodeIsTheCommand : Obligations.DecodeOfEncodeIsTheCommand :=
  fun _ rest h => decode_encode rest h

/-! ### A decoded packet is its command's encoding -/

/-- The header checks force every field that the command does not use to 0, so the encoder writes the header back. -/
theorem encode_assemble {w w1 w2 w3 : Word} {i : Instr} (hw : headerIllegal w = none)
    (h : assemble w w1 w2 w3 = some i) : encode i = w :: [w1, w2, w3].take (packetWords (opcOf w) - 1) := by
  obtain ⟨-, hbit, hkey0, himm⟩ := (headerIllegal_eq_none_iff w).mp hw
  have hword : ∀ {k m}, keyOf w = k → imm16Of w = m → headerWord (opcOf w) k m = w :=
    fun hk hm => headerWord_of_fields hbit rfl hk hm
  unfold assemble at h
  split at h <;> cases h <;> rename_i ho <;> rw [ho] at hword hkey0 himm ⊢
  -- the notes use KEY, SUSTAIN bit 0 of IMM16, the next group all of IMM16, the last no field
  case h_1 | h_2 => exact congrArg (List.cons · _) (hword rfl himm)
  case h_3 =>
    have hbit0 : imm16Of w = if imm16Of w % 2 == 1 then 1 else 0 := by
      have : imm16Of w / 2 = 0 := himm
      rcases (by omega : imm16Of w = 0 ∨ imm16Of w = 1) with h | h <;> rw [h] <;> rfl
    exact congrArg (List.cons · _) (hword (hkey0 rfl) hbit0)
  case h_4 | h_7 | h_8 | h_10 => exact congrArg (List.cons · _) (hword (hkey0 rfl) rfl)
  case h_5 | h_6 | h_9 => exact congrArg (List.cons · _) (hword (hkey0 rfl) himm)

theorem packetWords_le_four (o : Nat) : packetWords o ≤ 4 := by
  unfold packetWords
  split <;> decide

/-- The payload words that the decoder reads are the first words of the port, up to the packet's length. -/
theorem take_getD_eq_take {xs : List Word} {n : Nat} (h3 : n ≤ 3) (hn : n ≤ xs.length) :
    [xs.getD 0 0, xs.getD 1 0, xs.getD 2 0].take n = xs.take n := by
  have hget : ∀ j < n, xs[j]? = some (xs.getD j 0) := fun j hj => by
    simp [List.getD_eq_getElem?_getD, List.getElem?_eq_getElem (Nat.lt_of_lt_of_le hj hn)]
  refine List.ext_getElem? fun j => ?_
  rw [List.getElem?_take, List.getElem?_take]
  split
  · next hj =>
    have hcases : j = 0 ∨ j = 1 ∨ j = 2 := by omega
    rw [hget j hj]
    rcases hcases with rfl | rfl | rfl <;> rfl
  · rfl

theorem decode_cons_partial {w : Word} {rest : List Word} (h : rest.length + 1 < packetWords (opcOf w)) :
    decode (w :: rest) = .partialPacket := by
  unfold decode
  exact if_pos h

/-- What stands on the port where the decoder answers a command. -/
theorem decode_command_cases {port rest : List Word} {i : Instr} (h : decode port = .command i rest) :
    ∃ w xs, port = w :: xs ∧ packetWords (opcOf w) ≤ xs.length + 1 ∧ headerIllegal w = none
      ∧ assemble w (xs.getD 0 0) (xs.getD 1 0) (xs.getD 2 0) = some i ∧ rest = xs.drop (packetWords (opcOf w) - 1) := by
  cases port with
  | nil => cases h
  | cons w xs =>
    by_cases hlen : packetWords (opcOf w) ≤ xs.length + 1
    · rcases decode_cons w xs hlen with ⟨why, -, hd⟩ | ⟨hw, j, hj, hd⟩
      · cases hd.symm.trans h
      · cases hd.symm.trans h
        exact ⟨w, xs, rfl, hlen, hw, hj, rfl⟩
    · cases (decode_cons_partial (by omega)).symm.trans h

theorem eq_encode_of_decode {port rest : List Word} {i : Instr} (h : decode port = .command i rest) :
    port = encode i ++ rest := by
  obtain ⟨w, xs, rfl, hlen, hw, hi, rfl⟩ := decode_command_cases h
  have hmax := packetWords_le_four (opcOf w)
  rw [encode_assemble hw hi, take_getD_eq_take (by omega) (by omega), List.cons_append, List.take_append_drop]

/-- Settles O2: the header's fields are the command's and R114's checks leave no other bit set. -/
theorem decodedPacketIsItsCommandsEncoding : Obligations.DecodedPacketIsItsCommandsEncoding :=
  fun _ _ _ h => ⟨decode_wellFormed h, eq_encode_of_decode h⟩

/-- Settles O3, by running the decoder on the ten packets. -/
theorem specExamplePacketsDecode : Obligations.SpecExamplePacketsDecode := by
  unfold Obligations.SpecExamplePacketsDecode
  decide

end Sys2Proof
end

section
/-! PROOFS of the family 30_encoding.md, whole packets (R101, R102, R114): the lengths and the reserved headers of the
spec's bit positions are the decoder's. -/

namespace Sys2Proof

open Claims

/-! ### The header's bit fields as numbers -/

theorem opc_toNat (w : Word) : (opc w).toNat = opcOf w := by
  have := opcOf_lt w
  unfold opc opcOf at *
  rw [BitVec.extractLsb'_toNat, Nat.shiftRight_eq_div_pow]
  omega

theorem opc_eq_iff (w : Word) (o : BitVec 8) : opc w = o ↔ opcOf w = o.toNat := by
  rw [← BitVec.toNat_inj, opc_toNat]

theorem reservedBit_eq_one_iff (w : Word) : w.extractLsb' 23 1 = 1#1 ↔ reservedBitOf w ≠ 0 := by
  rw [← BitVec.toNat_inj, BitVec.extractLsb'_toNat, Nat.shiftRight_eq_div_pow, reservedBitOf]
  simp only [BitVec.toNat_ofNat]
  omega

theorem key_eq_zero_iff (w : Word) : (w.extractLsb' 16 7 : BitVec 7) = 0 ↔ keyOf w = 0 := by
  rw [← BitVec.toNat_inj, BitVec.extractLsb'_toNat, Nat.shiftRight_eq_div_pow]
  rfl

theorem imm16_eq_zero_iff (w : Word) : (w.extractLsb' 0 16 : BitVec 16) = 0 ↔ imm16Of w = 0 := by
  rw [← BitVec.toNat_inj, BitVec.extractLsb'_toNat, Nat.shiftRight_eq_div_pow, pow_zero, Nat.div_one]
  rfl

/-- Bits 15 to 1 of IMM16, which SUSTAIN does not use. -/
theorem imm16High_eq_zero_iff (w : Word) :
    ((w.extractLsb' 0 16 : BitVec 16).extractLsb' 1 15 : BitVec 15) = 0 ↔ imm16Of w / 2 = 0 := by
  rw [← BitVec.toNat_inj, BitVec.extractLsb'_toNat, BitVec.extractLsb'_toNat, imm16Of]
  simp only [Nat.shiftRight_eq_div_pow, BitVec.ofNat_eq_ofNat, BitVec.toNat_ofNat]
  omega

/-- The opcode map's packet length is the decoder's (R102). -/
theorem lengthOf_opc (w : Word) : lengthOf (opc w) = packetWords (opcOf w) := by
  unfold packetWords
  split <;> simp_all [lengthOf, opc_eq_iff]

theorem wholePacket_iff {port : List Word} {header : Word} {rest : List Word} :
    wholePacket port header rest ↔ port = header :: rest ∧ packetWords (opcOf header) ≤ rest.length + 1 := by
  rw [wholePacket, lengthOf_opc]

/-! ### Reserved headers -/

/-- The IMM16 bits that a known opcode does not use, as R114 lists them. -/
theorem strayImm16_ne_zero_iff {o : Nat} (ho : opcodeKnown o = true) (m : Nat) :
    strayImm16 o m ≠ 0 ↔ (m ≠ 0 ∧ (o = 1 ∨ o = 2 ∨ o = 5 ∨ o = 6 ∨ o = 9)) ∨ (m / 2 ≠ 0 ∧ o = 3) := by
  obtain ⟨hlo, hhi⟩ := of_decide_eq_true ho
  unfold strayImm16
  interval_cases o <;> simp

theorem opcodeKnown_eq_false_iff (o : Nat) : opcodeKnown o = false ↔ o = 0 ∨ 11 ≤ o := by
  rw [opcodeKnown, decide_eq_false_iff_not]
  omega

theorem opcodeUsesKey_eq_false_iff (o : Nat) : opcodeUsesKey o = false ↔ o ≠ 1 ∧ o ≠ 2 := by
  simp [opcodeUsesKey]

/-- The headers that R114 names, read bit by bit, are those that the decoder's checks refuse. -/
theorem reservedHeader_iff (w : Word) : reservedHeader w ↔ headerIllegal w ≠ none := by
  rw [headerIllegal_ne_none_iff, opcodeKnown_eq_false_iff, opcodeUsesKey_eq_false_iff]
  unfold reservedHeader
  simp only [opc_eq_iff, opc_toNat, reservedBit_eq_one_iff, key_eq_zero_iff, imm16_eq_zero_iff, imm16High_eq_zero_iff,
    ne_eq]
  simp only [BitVec.ofNat_eq_ofNat, BitVec.toNat_ofNat, Nat.reducePow, Nat.reduceMod]
  rw [← or_assoc]
  refine or_congr_right' fun hnot => ?_
  have hknown : opcodeKnown (opcOf w) = true := by
    rw [← Bool.not_eq_false, opcodeKnown_eq_false_iff]
    exact hnot
  exact or_congr_right (or_congr and_comm (strayImm16_ne_zero_iff hknown _).symm)

/-- Settles O4: R114's headers are those the decoder refuses, and it decides a whole packet by its header. -/
theorem wholePacketIsCommandUnlessReserved : Obligations.WholePacketIsCommandUnlessReserved := by
  unfold Obligations.WholePacketIsCommandUnlessReserved
  intro port header rest hp
  obtain ⟨rfl, hlen⟩ := wholePacket_iff.mp hp
  rw [reservedHeader_iff, lengthOf_opc]
  rcases decode_cons header rest hlen with ⟨why, hbad, hd⟩ | ⟨hok, i, -, hd⟩
  · exact ⟨fun _ => ⟨why, hd⟩, fun h => absurd (by simp [hbad]) h⟩
  · exact ⟨fun h => absurd hok h, fun _ => ⟨i, hd⟩⟩

end Sys2Proof
end

section
/-! PROOFS of the family 30_encoding.md, the engine at its command port (R114, R115, 60_exceptions.md R331,
70_reset_and_hazards.md R380): when a step exists, how a run stands without one, and what a reserved packet does. -/

namespace Sys2Proof.Machine

open Claims

variable {s : State}

/-! ### The engine by what stands on the command port -/

theorem exec_next (i : Instr) (s : State) : ∃ t, exec i s = .next t := by
  cases i <;> exact ⟨_, rfl⟩

theorem step_of_empty (h : s.cmdPort = []) :
    step s = .fault (waitReason s)
    ∧ runStanding s
      = if s.drained then (if s.halted then .faulted else .completed) else .stuck (waitReason s) := by
  unfold step runStanding
  rw [h]
  exact ⟨rfl, rfl⟩

theorem step_of_partialPacket {header : Word} {rest : List Word} (hp : s.cmdPort = header :: rest)
    (h : rest.length + 1 < lengthOf (opc header)) :
    step s = .fault .partialPacket ∧ runStanding s = .stuck .partialPacket := by
  rw [lengthOf_opc] at h
  unfold step runStanding
  rw [hp, decode_cons_partial h]
  exact ⟨rfl, rfl⟩

theorem step_of_wholePacket {header : Word} {rest : List Word} (h : wholePacket s.cmdPort header rest) :
    (∃ t, step s = .next t) ∧ runStanding s = .running := by
  obtain ⟨hp, hlen⟩ := wholePacket_iff.mp h
  unfold step runStanding
  rw [hp]
  rcases decode_cons header rest hlen with ⟨why, -, hd⟩ | ⟨-, i, -, hd⟩
  · rw [hd]
    exact ⟨⟨_, rfl⟩, rfl⟩
  · rw [hd]
    exact ⟨exec_next i _, rfl⟩

/-- Without a whole packet the engine has no step and the run does not stand as running. -/
theorem no_step_of_no_wholePacket (h : ¬ ∃ header rest, wholePacket s.cmdPort header rest) :
    (∃ why, step s = .fault why) ∧ runStanding s ≠ .running := by
  cases hp : s.cmdPort with
  | nil =>
    obtain ⟨hstep, hstand⟩ := step_of_empty hp
    refine ⟨⟨_, hstep⟩, ?_⟩
    rw [hstand]
    split_ifs <;> simp
  | cons header rest =>
    have hlen : rest.length + 1 < lengthOf (opc header) :=
      Nat.lt_of_not_le fun hle => h ⟨header, rest, hp, hle⟩
    obtain ⟨hstep, hstand⟩ := step_of_partialPacket hp hlen
    exact ⟨⟨_, hstep⟩, by rw [hstand]; simp⟩

theorem step_next_iff : (∃ t, step s = .next t) ↔ ∃ header rest, wholePacket s.cmdPort header rest := by
  refine ⟨fun ⟨t, ht⟩ => ?_, fun ⟨_, _, h⟩ => (step_of_wholePacket h).1⟩
  by_contra hno
  obtain ⟨⟨why, hw⟩, -⟩ := no_step_of_no_wholePacket hno
  cases hw.symm.trans ht

theorem runStanding_eq_running_iff :
    runStanding s = .running ↔ ∃ header rest, wholePacket s.cmdPort header rest := by
  refine ⟨fun hr => ?_, fun ⟨_, _, h⟩ => (step_of_wholePacket h).2⟩
  by_contra hno
  exact (no_step_of_no_wholePacket hno).2 hr

/-- With no word on any port the run has ended (R380). -/
theorem ended_of_ports_empty (hc : s.cmdPort = []) (hd : s.drained = true) :
    step s = .fault .commandPortEmpty ∧ runStanding s = if s.fault = .clear then .completed else .faulted := by
  obtain ⟨hstep, hstand⟩ := step_of_empty hc
  rw [hstep, hstand, waitReason, if_pos hd, if_pos hd]
  by_cases hf : s.fault = .clear <;> simp [State.halted, hf]

/-- With a response or a frame not taken the run is stuck (R380). -/
theorem stuck_of_output_unread (hc : s.cmdPort = []) (hd : s.drained = false) :
    step s = .fault .outputUnread ∧ runStanding s = .stuck .outputUnread := by
  obtain ⟨hstep, hstand⟩ := step_of_empty hc
  rw [hstep, hstand, waitReason, hd]
  exact ⟨rfl, rfl⟩

/-- Settles O5, by what stands on the command port: a whole packet, part of one, or nothing. -/
theorem stepNeedsAWholePacket : Obligations.StepNeedsAWholePacket := by
  unfold Obligations.StepNeedsAWholePacket
  intro s
  refine ⟨step_next_iff, runStanding_eq_running_iff.trans step_next_iff.symm, fun hc hr hf => ?_, fun hc hne => ?_,
    fun _ _ => step_of_partialPacket⟩
  · exact ended_of_ports_empty hc ((drained_iff s).mpr ⟨hr, hf⟩)
  · refine stuck_of_output_unread hc (Bool.eq_false_iff.mpr fun hd => ?_)
    obtain ⟨hr, hf⟩ := (drained_iff s).mp hd
    exact hne.elim (· hr) (· hf)

/-! ### A reserved packet -/

theorem owesResponse_eq_true_iff (header : Word) : owesResponse header = true ↔ answers header := by
  unfold owesResponse answers
  simp [opc_eq_iff]

theorem step_of_reservedHeader {header : Word} {rest : List Word} (h : wholePacket s.cmdPort header rest)
    (hr : reservedHeader header) :
    step s = .next (illegalPacket header (taken (rest.drop (lengthOf (opc header) - 1)) s)) := by
  obtain ⟨why, hd⟩ := (wholePacketIsCommandUnlessReserved _ _ _ h).1 hr
  rw [step, hd]

theorem illegalPacket_of_clear (header : Word) (h : s.fault = .clear) :
    illegalPacket header s = raise .illegalCommand (owesResponse header) s :=
  unlessHalted_running _ _ (by simp [State.halted, h])

/-- Settles O7: the packet is taken, and the fault raised on the rest of the port. -/
theorem reservedPacketRaisesIllegalCommand : Obligations.ReservedPacketRaisesIllegalCommand := by
  unfold Obligations.ReservedPacketRaisesIllegalCommand
  intro s header rest hc hp hr
  have hclear : (taken (rest.drop (lengthOf (opc header) - 1)) s).fault = .clear := hc
  obtain ⟨hsilent, hzero⟩ := raise_of_clear hclear .illegalCommand
  rw [step_of_reservedHeader hp hr, illegalPacket_of_clear header hclear]
  constructor
  · intro hno
    rw [Bool.eq_false_iff.mpr (mt (owesResponse_eq_true_iff header).mp hno), hsilent]
    rfl
  · intro hans
    rw [(owesResponse_eq_true_iff header).mpr hans, hzero]
    rfl

end Sys2Proof.Machine
end

section
/-! PROOFS of the family 40_host_commands.md, the dispatch (R140, 60_exceptions.md R332): what a command runs while the
engine runs, and what is left of it while HALTED. -/

namespace Sys2Proof.Machine

variable {s : State}

/-! ### The command of a running and of a HALTED engine -/

/-- What a command does to a running engine. -/
def commandRun : Instr → State → State
  | .noteOn k freq velocity ts => noteOn k freq velocity ts
  | .noteOff k ts => noteOff params k ts
  | .sustain down => sustainPedal down
  | .render n b m a => render params n b m a
  | .setSampling sr spb => setSampling params sr spb
  | .resetVoices => resetVoices
  | .patchWrite addr data => patchWrite params addr data
  | .patchRead addr => patchRead params addr
  | .patchReset => patchReset
  | .statusRead addr => statusRead params addr

/-- Whether a command that is discarded while HALTED owes a response word (60_exceptions.md R332): PATCH_READ alone
does. -/
def commandOwes : Instr → Bool
  | .patchRead _ => true
  | _ => false

theorem exec_eq_unlessHalted {i : Instr} (hi : ∀ a, i ≠ .statusRead a) (s : State) :
    exec i s = .next (unlessHalted (commandOwes i) (commandRun i) s) := by
  cases i with
  | statusRead addr => exact absurd rfl (hi addr)
  | _ => rfl

theorem halted_eq_false (h : s.fault = .clear) : s.halted = false := by simp [State.halted, h]

/-- A running engine runs every command. -/
theorem exec_of_clear (h : s.fault = .clear) (i : Instr) : exec i s = .next (commandRun i s) := by
  cases i with
  | statusRead addr => rfl
  | _ => rw [exec_eq_unlessHalted (by simp), unlessHalted_running _ _ (halted_eq_false h)]

/-- A HALTED engine discards every command but STATUS_READ. -/
theorem exec_of_halted (h : s.fault ≠ .clear) {i : Instr} (hi : ∀ a, i ≠ .statusRead a) :
    exec i s = .next (endResponse (commandOwes i) s) := by
  rw [exec_eq_unlessHalted hi, unlessHalted_halted _ _ ((halted_iff s).mpr h)]

/-- Settles O6: the step takes the decoder's command, and exec runs it on the rest of the port. -/
theorem stepRunsTheDecodedCommand : Obligations.StepRunsTheDecodedCommand := by
  unfold Obligations.StepRunsTheDecodedCommand
  intro s i rest hd
  rw [step, hd]
  rfl

/-- Settles O8: nothing is left of a discarded command but the word that a PATCH_READ owes. -/
theorem haltedEngineDiscardsCommands : Obligations.HaltedEngineDiscardsCommands := by
  unfold Obligations.HaltedEngineDiscardsCommands
  intro s i hf hi
  rw [exec_of_halted hf hi]
  constructor
  · intro hread
    cases i with
    | patchRead a => exact absurd rfl (hread a)
    | _ => rfl
  · rintro a rfl
    rfl

/-- Settles O19: the meaning of SUSTAIN is one write. -/
theorem sustainWritesHostSustainOnly : Obligations.SustainWritesHostSustainOnly :=
  fun _ down h => exec_of_clear h (.sustain down)

/-- Settles O47: the meaning of RESET_VOICES is one write. -/
theorem resetVoicesOnlyRequests : Obligations.ResetVoicesOnlyRequests :=
  fun _ h => exec_of_clear h .resetVoices

end Sys2Proof.Machine
end

section
/-! PROOFS of the family 40_host_commands.md, NOTE_ON (R141, R142): its checks, its polyphonic and its monophonic path,
one equation for each branch. -/

namespace Sys2Proof.Machine

variable {s : State} {k : Nat} {freq velocity : F32}

/-! ### The checks -/

theorem freqLegal_iff (f : F32) :
    freqLegal f = true ↔ feq f fNegOne = true ∨ (isFinite f = true ∧ flt fZero f = true) := by
  simp [freqLegal]

theorem unitLegal_iff (x : F32) :
    unitLegal x = true ↔ isFinite x = true ∧ fle fZero x = true ∧ fle x fOne = true := by
  simp [unitLegal, finiteBetween, and_assoc]

theorem noteOn_of_illegal (h : ¬ queuedLegal (flush freq) (flush velocity)) (k : Nat) (ts : Word) (s : State) :
    noteOn k freq velocity ts s = raise .badOperand false s := by
  unfold noteOn operandF32
  dsimp only
  split
  · rfl
  · next hf => exact if_pos (Bool.eq_false_iff.mpr fun hv => h ⟨Bool.eq_true_of_not_eq_false hf, hv⟩)

theorem noteOn_of_poly (h : queuedLegal (flush freq) (flush velocity)) (hm : s.mode = .poly) (k : Nat) (ts : Word) :
    noteOn k freq velocity ts s = noteOnPoly k (flush freq) (flush velocity) ts s := by
  obtain ⟨hf, hv⟩ := h
  unfold noteOn operandF32
  dsimp only
  rw [if_neg (by simp [hf]), if_neg (by simp [hv])]
  split
  · next e => cases hm.symm.trans e
  · rfl

theorem noteOn_of_mono (h : queuedLegal (flush freq) (flush velocity)) (hm : s.mode = .mono) (k : Nat) (ts : Word) :
    noteOn k freq velocity ts s = noteOnMono k (flush freq) (flush velocity) ts false s := by
  obtain ⟨hf, hv⟩ := h
  unfold noteOn operandF32
  dsimp only
  rw [if_neg (by simp [hf]), if_neg (by simp [hv])]
  split
  · rfl
  · next e => cases hm.symm.trans e

/-- Settles O16: the checks of NOTE_ON are R141's, and the first that fails raises BAD_OPERAND. -/
theorem noteOnBadOperandFaults : Obligations.NoteOnBadOperandFaults := by
  unfold Obligations.NoteOnBadOperandFaults
  intro s k freq velocity ts hc f v hbad
  rw [← freqLegal_iff, ← unitLegal_iff] at hbad
  rw [exec_of_clear hc, commandRun, noteOn_of_illegal hbad, (raise_of_clear hc .badOperand).1]

/-! ### The polyphonic path -/

theorem noteOnPoly_of_pending (h : ∃ r ∈ s.polyReq, r.key = k) (f vel : F32) (ts : Word) :
    noteOnPoly k f vel ts s = s :=
  if_pos (hasKey_true _ _ _ h)

theorem noteOnPoly_of_unbound (h : ∀ r ∈ s.polyReq, r.key ≠ k) (hk : s.keyVoice k = none) (f vel : F32) (ts : Word) :
    noteOnPoly k f vel ts s
      = { s with polyReq := s.polyReq.drop (s.polyReq.length + 1 - s.curPoly) ++ [⟨k, f, vel, ts, false⟩] } := by
  unfold noteOnPoly
  rw [if_neg (by simp [hasKey_false _ _ _ h]), hk]
  dsimp only
  rw [popWhileFull_eq_drop]

theorem noteOnPoly_of_bound (h : ∀ r ∈ s.polyReq, r.key ≠ k) {v : Nat} (hk : s.keyVoice k = some v) (f vel : F32)
    (ts : Word) :
    noteOnPoly k f vel ts s
      = { releaseAndUnbind v s with
          polyReq := s.polyReq.drop (s.polyReq.length + 1 - s.curPoly) ++ [⟨k, f, vel, ts, false⟩] } := by
  unfold noteOnPoly
  rw [if_neg (by simp [hasKey_false _ _ _ h]), hk]
  dsimp only
  rw [popWhileFull_eq_drop, PoolOnly.releaseAndUnbind v s]

/-- ReleaseAndUnbind of a voice that holds a key (42_voice_ops.md R246). -/
theorem releaseAndUnbind_of_key {v : Nat} (h : (s.voice v).key = some k) :
    releaseAndUnbind v s
      = let y := if (s.voice v).state = .playing then releaseVoice (s.voice v) else s.voice v
        { s with voices := s.voices.set v (unbound y.state y), keymap := s.keymap.set k none } := by
  unfold releaseAndUnbind
  dsimp only
  rw [h]
  rfl

/-- Settles O12: with the key neither pending nor bound, the polyphonic path makes room and queues. -/
theorem noteOnQueuesPolyRequest : Obligations.NoteOnQueuesPolyRequest := by
  unfold Obligations.NoteOnQueuesPolyRequest
  intro s k freq velocity ts hc hm hf hv hnew hk
  rw [exec_of_clear hc, commandRun, noteOn_of_poly ⟨hf, hv⟩ hm, noteOnPoly_of_unbound hnew hk]

/-- Settles O13: with the key bound, ReleaseAndUnbind runs before the request is queued. -/
theorem noteOnRetriggerUnbindsVoice : Obligations.NoteOnRetriggerUnbindsVoice := by
  unfold Obligations.NoteOnRetriggerUnbindsVoice
  intro s k v freq velocity ts hc hm hf hv hnew hk hkey
  rw [exec_of_clear hc, commandRun, noteOn_of_poly ⟨hf, hv⟩ hm, noteOnPoly_of_bound hnew hk,
    releaseAndUnbind_of_key hkey]
  rfl

/-! ### The monophonic path -/

theorem noteOnMono_of_pending (h : ∃ r ∈ s.monoReq, r.key = k) (f vel : F32) (ts : Word) (retrig : Bool) :
    noteOnMono k f vel ts retrig s = s :=
  if_pos (hasKey_true _ _ _ h)

/-- While at most one request waits, for another key, that request gives way. -/
theorem noteOnMono_of_not_pending (h : ∀ r ∈ s.monoReq, r.key ≠ k) (hlen : s.monoReq.length ≤ 1) (f vel : F32)
    (ts : Word) (retrig : Bool) :
    noteOnMono k f vel ts retrig s
      = { s with monoReq := [⟨k, f, vel, ts, retrig⟩]
                 monoSeq := if retrig then s.monoSeq else ⟨k, f, vel⟩ :: removeKey SeqEntry.key k s.monoSeq } := by
  have hroom : (if s.monoReq.length = 1 then s.monoReq.drop 1 else s.monoReq) = [] := by
    split
    · next h1 => exact List.drop_eq_nil_of_le (Nat.le_of_eq h1)
    · exact List.length_eq_zero_iff.mp (by omega)
  unfold noteOnMono
  rw [if_neg (by simp [hasKey_false _ _ _ h]), hroom, List.nil_append]

/-- Settles O15: the one request gives way to the new one, and the key moves to the front of the held keys. -/
theorem noteOnQueuesMonoRequest : Obligations.NoteOnQueuesMonoRequest := by
  unfold Obligations.NoteOnQueuesMonoRequest
  intro s k freq velocity ts hc hm hlen hf hv hnew
  rw [exec_of_clear hc, commandRun, noteOn_of_mono ⟨hf, hv⟩ hm, noteOnMono_of_not_pending hnew hlen]
  rfl

/-- Settles O14: in either mode the pending key is found before anything is written. -/
theorem duplicateNoteOnIsIgnored : Obligations.DuplicateNoteOnIsIgnored := by
  unfold Obligations.DuplicateNoteOnIsIgnored
  intro s k freq velocity ts hc hf hv hpending
  rw [exec_of_clear hc, commandRun]
  rcases hpending with ⟨hm, hr⟩ | ⟨hm, hr⟩
  · rw [noteOn_of_poly ⟨hf, hv⟩ hm, noteOnPoly_of_pending hr]
  · rw [noteOn_of_mono ⟨hf, hv⟩ hm, noteOnMono_of_pending hr]

end Sys2Proof.Machine
end

section
/-! PROOFS of the family 40_host_commands.md, NOTE_OFF (R143, R144): what both modes share, and the monophonic
retrigger. -/

namespace Sys2Proof.Machine

variable {P : Params} {s : State} {k : Nat}

/-! ### The retrigger -/

theorem monoReleaseRetrigger_of_sounding {e : SeqEntry} {es : List SeqEntry} (hmono : s.monoReq = [])
    (hheld : removeKey SeqEntry.key k s.monoSeq = e :: es)
    (hloud : flt P.silenceEps (summedCarrierOutput (s.voice 0)) = true) (ts : Word) :
    monoReleaseRetrigger P k ts s
      = { s with monoReq := [⟨e.key, e.freq, e.velocity, ts, true⟩]
                 monoSeq := removeKey SeqEntry.key k s.monoSeq } := by
  unfold monoReleaseRetrigger
  dsimp only
  split
  · next hheld' =>
    cases hheld.symm.trans hheld'
    exact (if_pos hloud).trans (noteOnMono_of_not_pending
      (s := { s with monoSeq := removeKey SeqEntry.key k s.monoSeq }) (by simp [hmono]) (by simp [hmono]) e.freq
      e.velocity ts true)
  · next hno => exact (hno e es hmono hheld).elim

theorem monoReleaseRetrigger_of_not_sounding (h : s.monoReq ≠ [] ∨ removeKey SeqEntry.key k s.monoSeq = []
    ∨ flt P.silenceEps (summedCarrierOutput (s.voice 0)) = false) (ts : Word) :
    monoReleaseRetrigger P k ts s = { s with monoSeq := removeKey SeqEntry.key k s.monoSeq } := by
  unfold monoReleaseRetrigger
  dsimp only
  split
  · next e es hmono hheld =>
    rcases h with h | h | h
    · exact absurd hmono h
    · cases h.symm.trans hheld
    · exact if_neg (by rw [Bool.not_eq_true]; exact h)
  · rfl

/-- The retrigger reads no release. -/
theorem monoReleaseRetrigger_relQ (k : Nat) (ts : Word) (s : State) :
    (monoReleaseRetrigger P k ts s).relQ = s.relQ := by
  by_cases h : s.monoReq ≠ [] ∨ removeKey SeqEntry.key k s.monoSeq = []
      ∨ flt P.silenceEps (summedCarrierOutput (s.voice 0)) = false
  · rw [monoReleaseRetrigger_of_not_sounding h]
  · simp only [not_or, not_not, Bool.not_eq_false] at h
    obtain ⟨hmono, hheld, hloud⟩ := h
    obtain ⟨e, es, he⟩ := List.exists_cons_of_ne_nil hheld
    rw [monoReleaseRetrigger_of_sounding hmono he hloud]

/-! ### The parts of NOTE_OFF -/

/-- The key's pending requests are taken back (R143). -/
def cancelRequests (k : Nat) (s : State) : State :=
  { s with polyReq := removeKey VoiceRequest.key k s.polyReq, monoReq := removeKey VoiceRequest.key k s.monoReq }

/-- What NOTE_OFF does to the notes, by the mode (R143, R144). -/
def noteOffPath (P : Params) (k : Nat) (ts : Word) (s : State) : State :=
  match s.mode with
  | .mono => monoReleaseRetrigger P k ts (cancelRequests k s)
  | .poly => cancelRequests k s

/-- A release is queued for the key, unless REL_Q holds one (R143). -/
def queueRelease (k : Nat) (ts : Word) (s : State) : State :=
  { s with relQ := if hasKey ReleaseRequest.key k s.relQ then s.relQ else s.relQ ++ [⟨k, ts⟩] }

theorem queueRelease_of_new (h : ∀ r ∈ s.relQ, r.key ≠ k) (ts : Word) :
    queueRelease k ts s = { s with relQ := s.relQ ++ [⟨k, ts⟩] } := by
  rw [queueRelease, if_neg (by simp [hasKey_false _ _ _ h])]

theorem queueRelease_of_queued (h : ∃ r ∈ s.relQ, r.key = k) (ts : Word) : queueRelease k ts s = s := by
  rw [queueRelease, if_pos (hasKey_true _ _ _ h)]

theorem noteOffPath_relQ (k : Nat) (ts : Word) (s : State) : (noteOffPath P k ts s).relQ = s.relQ := by
  unfold noteOffPath
  split
  · exact monoReleaseRetrigger_relQ k ts (cancelRequests k s)
  · rfl

theorem noteOff_eq (k : Nat) (ts : Word) (s : State) :
    noteOff P k ts s = queueRelease k ts (noteOffPath P k ts s) := by
  show (if hasKey ReleaseRequest.key k s.relQ then noteOffPath P k ts s
    else { noteOffPath P k ts s with relQ := (noteOffPath P k ts s).relQ ++ [⟨k, ts⟩] }) = _
  rw [queueRelease, noteOffPath_relQ]
  split
  · rw [← noteOffPath_relQ (P := P) k ts s]
  · rfl

theorem noteOff_of_poly (hm : s.mode = .poly) (k : Nat) (ts : Word) :
    noteOff P k ts s = queueRelease k ts (cancelRequests k s) := by
  rw [noteOff_eq, noteOffPath, hm]

theorem noteOff_of_mono (hm : s.mode = .mono) (k : Nat) (ts : Word) :
    noteOff P k ts s = queueRelease k ts (monoReleaseRetrigger P k ts (cancelRequests k s)) := by
  rw [noteOff_eq, noteOffPath, hm]

/-- Settles O17: in Poly, NOTE_OFF takes the requests back and queues at most one release. -/
theorem noteOffQueuesOneRelease : Obligations.NoteOffQueuesOneRelease := by
  unfold Obligations.NoteOffQueuesOneRelease
  intro s k ts hc hm
  rw [exec_of_clear hc, commandRun, noteOff_of_poly hm]
  constructor
  · intro hnew
    rw [queueRelease_of_new (s := cancelRequests k s) hnew]
    rfl
  · intro hqueued
    rw [queueRelease_of_queued (s := cancelRequests k s) hqueued]
    rfl

/-- Settles O18: in Mono, the retrigger runs between the two, and needs a key still held and a sounding voice 0. -/
theorem noteOffRetriggersHeldKey : Obligations.NoteOffRetriggersHeldKey := by
  unfold Obligations.NoteOffRetriggersHeldKey
  intro s k ts hc hm mono held rel t
  rw [exec_of_clear hc, commandRun, noteOff_of_mono hm]
  constructor
  · intro e es hmono hheld hloud
    rw [monoReleaseRetrigger_of_sounding (s := cancelRequests k s) hmono hheld hloud]
    rfl
  · intro hquiet
    rw [monoReleaseRetrigger_of_not_sounding (s := cancelRequests k s) hquiet]
    rfl

end Sys2Proof.Machine
end

section
/-! PROOFS of the family 40_host_commands.md, what the note commands leave unchanged (R141 to R145, R151,
70_reset_and_hazards.md R366). -/

namespace Sys2Proof.Machine

variable {s t : State}

/-- A note command is discarded or runs; it never owes a word. -/
theorem exec_noteCommand_cases {i : Instr} (hi : Claims.isNoteCommand i) (h : exec i s = .next t) :
    t = s ∨ t = commandRun i s := by
  have hread : ∀ a, i ≠ .statusRead a := by
    rintro a rfl
    exact hi
  have howes : commandOwes i = false := by
    cases i with
    | patchRead a => exact hi.elim
    | _ => rfl
  by_cases hc : s.fault = .clear
  · cases (exec_of_clear hc i).symm.trans h
    exact .inr rfl
  · cases (exec_of_halted hc hread).symm.trans h
    exact .inl (by rw [howes]; rfl)

/-- Settles O20: each of the four writes within the frame, and its own part of it only. -/
theorem noteCommandsFrame : Obligations.NoteCommandsFrame := by
  unfold Obligations.NoteCommandsFrame
  intro s t i hi h
  rcases exec_noteCommand_cases hi h with rfl | rfl
  · exact ⟨rfl, fun _ => rfl, fun _ => ⟨rfl, rfl, rfl⟩, fun _ => rfl, fun _ => rfl⟩
  · cases i with
    | noteOn k f v ts =>
      simp only [commandRun]
      rw [noteOn_frame]
      exact ⟨rfl, fun _ => rfl, fun hno => absurd rfl (hno k f v ts), fun _ => rfl, fun _ => rfl⟩
    | noteOff k ts =>
      simp only [commandRun]
      rw [noteOff_frame]
      exact ⟨rfl, fun _ => rfl, fun _ => ⟨rfl, rfl, rfl⟩, fun _ => rfl, fun _ => rfl⟩
    | sustain down =>
      exact ⟨rfl, fun _ => rfl, fun _ => ⟨rfl, rfl, rfl⟩, fun hno => absurd rfl (hno down), fun _ => rfl⟩
    | resetVoices => exact ⟨rfl, fun _ => rfl, fun _ => ⟨rfl, rfl, rfl⟩, fun _ => rfl, fun hno => absurd rfl hno⟩
    | _ => exact hi.elim

end Sys2Proof.Machine
end

section
/-! PROOFS of the family 40_host_commands.md, RENDER (R146 to R148): its checks in their order, the frames it emits,
what it never writes, and the RENDER of an idle pool. -/

namespace Sys2Proof.Machine

open Claims

variable {P : Params} {s : State} {n : Nat} {b m a : F32}

/-! ### The checks -/

theorem render_of_unconfigured (h : s.configured = false) (n : Nat) (b m a : F32) :
    render P n b m a s = raise .notConfigured false s :=
  if_pos h

theorem render_of_illegal_operands (hc : s.configured = true) (h : ¬ renderOperandsLegal s n b m a) :
    render P n b m a s = raise .badOperand false s := by
  unfold render operandF32
  dsimp only
  rw [if_neg (by simp [hc])]
  split
  · rfl
  split
  · rfl
  split
  · rfl
  split
  · rfl
  · next hn hb hm ha =>
    simp only [Bool.not_eq_false, not_or, not_lt] at hn hb hm ha
    exact absurd ⟨hn.1, hn.2, hb, hm, ha⟩ h

theorem render_of_legal_operands (hc : s.configured = true) (h : renderOperandsLegal s n b m a) :
    render P n b m a s = if patchLegal P s.patch = false then raise .badPatch false s
      else renderSequence P (snapshot P s.patch) n (flush b) (flush m) (flush a) s := by
  obtain ⟨hn, hmax, hb, hm, ha⟩ := h
  unfold render operandF32
  dsimp only
  rw [if_neg (by simp [hc]), if_neg (by omega), if_neg (by simp [hb]), if_neg (by simp [hm]), if_neg (by simp [ha])]

/-- A RENDER that passes its checks runs its sequence. -/
theorem exec_render_of_runs (h : renderRuns s n b m a) :
    exec (.render n b m a) s
      = .next (renderSequence params (snapshot params s.patch) n (flush b) (flush m) (flush a) s) := by
  obtain ⟨hclear, hc, hops, hp⟩ := h
  rw [exec_of_clear hclear, commandRun, render_of_legal_operands hc hops, if_neg (by simp [hp])]

/-- Settles O22: the checks run in their order, and each failure raises its own fault. -/
theorem renderRaisesFirstFailedCheck : Obligations.RenderRaisesFirstFailedCheck := by
  unfold Obligations.RenderRaisesFirstFailedCheck
  intro s n b m a hclear
  have hraise := fun code => (raise_of_clear hclear code).1
  rw [exec_of_clear hclear, commandRun]
  refine ⟨fun hc => ?_, fun hc hops => ?_, fun hc hops hp => ?_⟩
  · rw [render_of_unconfigured hc, hraise]
  · rw [render_of_illegal_operands hc hops, hraise]
  · rw [render_of_legal_operands hc hops, if_pos hp, hraise]

/-! ### The frames -/

theorem Rendered.fault {t : State} (h : Rendered s t) : t.fault = s.fault := by rw [h.frame]

/-- Without an earlier fault, a sequence emits one frame a sample, or raises NUMERIC after fewer (R147, 41_lifecycle.md
R216). -/
theorem renderSequence_fault_frames (h : s.fault = .clear) (pt : Patch) (n : Nat) (b m a : F32) :
    ∃ frames, (renderSequence P pt n b m a s).framePort = s.framePort ++ frames
      ∧ (((renderSequence P pt n b m a s).fault = .clear ∧ frames.length = n)
        ∨ ((renderSequence P pt n b m a s).fault = .numeric ∧ frames.length < n)) := by
  have hb := beforeSamples_untouched (P := P) pt n b m a s
  have hfault : (beforeSamples P pt n b m a s).fault = .clear := hb.fault.trans h
  have hport : (beforeSamples P pt n b m a s).framePort = s.framePort := hb.framePort
  unfold renderSequence
  rcases renderSamples_spec P pt n (List.range n) (beforeSamples P pt n b m a s) with
    ⟨t, frames, e, hr, hf, hlen⟩ | ⟨t, frames, e, hr, hf, hlen⟩
  · have ht : t.fault = .clear := hr.fault.trans hfault
    rw [hport] at hf
    rw [List.length_range] at hlen
    rw [e]
    exact ⟨frames, (raise_framePort _ _ t).trans hf, .inr ⟨by rw [raise_fault, if_pos ht], hlen⟩⟩
  · have ht : t.fault = .clear := hr.fault.trans hfault
    have hp := postRender_untouched (P := P) t
    rw [hport] at hf
    rw [List.length_range] at hlen
    rw [e]
    exact ⟨frames, hp.framePort.trans hf, .inl ⟨hp.fault.trans ht, hlen⟩⟩

/-- Settles O24: the checks passed, so what the frames and FAULT are at the end is the sequence's. -/
theorem renderEmitsNFramesOrFaultsNumeric : Obligations.RenderEmitsNFramesOrFaultsNumeric := by
  unfold Obligations.RenderEmitsNFramesOrFaultsNumeric
  intro s n b m a hrun
  have hclear : s.fault = .clear := hrun.1
  obtain ⟨frames, hport, hend⟩ :=
    renderSequence_fault_frames (P := params) hclear (snapshot params s.patch) n (flush b) (flush m) (flush a)
  exact ⟨_, frames, exec_render_of_runs hrun, hport, hend⟩

/-! ### What RENDER never writes -/

/-- Between `s` and `t` the patch RAM, the configuration, the pedal and two ports stay, and frames are only appended. -/
def RenderLeaves (s t : State) : Prop :=
  t.patch = s.patch ∧ t.fs = s.fs ∧ t.blockMax = s.blockMax ∧ t.configured = s.configured
    ∧ t.hostSustain = s.hostSustain ∧ t.cmdPort = s.cmdPort ∧ t.respPort = s.respPort
    ∧ ∃ frames, t.framePort = s.framePort ++ frames

theorem RenderLeaves.refl (s : State) : RenderLeaves s s :=
  ⟨rfl, rfl, rfl, rfl, rfl, rfl, rfl, [], (List.append_nil _).symm⟩

theorem RenderLeaves.render (P : Params) (n : Nat) (b m a : F32) (s : State) : RenderLeaves s (render P n b m a s) := by
  rcases render_cases P n b m a s with ⟨code, e⟩ | ⟨-, -, -, e⟩
  · rw [e]
    exact ⟨rfl, rfl, rfl, rfl, rfl, rfl, rfl, [], (List.append_nil _).symm⟩
  · obtain ⟨hc, hfs, hmax, hsus, hpatch, hcmd, hresp⟩ := renderSequence_frame (P := P) (snapshot P s.patch) n
      (operandF32 b) (operandF32 m) (operandF32 a) s
    obtain ⟨-, frames, hport, -⟩ := renderSequence_notes_frames (P := P) (snapshot P s.patch) n
      (operandF32 b) (operandF32 m) (operandF32 a) s
    rw [e]
    exact ⟨hpatch, hfs, hmax, hc, hsus, hcmd, hresp, frames, hport⟩

/-- Settles O26: a RENDER is discarded, raises a fault or runs its sequence, and none of them writes these. -/
theorem renderFrame : Obligations.RenderFrame := by
  unfold Obligations.RenderFrame
  intro s t n b m a h
  have hl : RenderLeaves s t := by
    cases h
    exact unlessHalted_induct (RenderLeaves s) (RenderLeaves.refl s) (fun _ => RenderLeaves.render params n b m a s)
  refine ⟨fun addr => ?_, hl⟩
  obtain ⟨hpatch, -⟩ := hl
  rw [hpatch]

/-! ### The mode of a RENDER -/

theorem allocatePoly_mode (pt : Patch) (reqs keep : List VoiceRequest) (s : State) :
    (allocatePoly P pt reqs keep s).mode = s.mode := by
  induction reqs generalizing keep s with
  | nil => rfl
  | cons req reqs ih =>
    unfold allocatePoly
    split
    · exact ih _ s
    · next v _ => rw [ih, PoolOnly.initializeVoice P pt v req s]

theorem allocateMono_mode (pt : Patch) (s : State) : (allocateMono P pt s).mode = s.mode := by
  unfold allocateMono
  split
  · obtain ⟨t, kept, e, ht, -⟩ := resolveMono_induct (fun t => t.mode = s.mode) (fun t ht _ _ => ht) s.relQ [] s rfl
    rw [e]
    exact ht
  · rw [PoolOnly.initializeMonoVoice P pt _ _]

theorem forceSteal_mode (changed : Bool) (s : State) : (forceSteal P changed s).mode = s.mode :=
  forVoices_induct (P := P) (f := fun v t => if (t.voice v).state = .idle then t else stealVoice v t)
    (fun t => t.mode = s.mode) rfl (fun v t _ ht => by
      split
      · exact ht
      · rw [PoolOnly.stealVoice v t]
        exact ht)

/-- Pre-render latches the patch's VOICE_MODE, and nothing after the latch writes MODE (41_lifecycle.md R190). -/
theorem preRender_mode (pt : Patch) (n : Nat) (s : State) : (preRender P pt n s).mode = pt.voiceMode := by
  unfold preRender
  dsimp only
  split
  · exact forceSteal_mode _ _
  · unfold preRenderVoices
    split
    · dsimp only
      rw [allocatePoly_mode, retarget_mode, resolvePoly_mode]
      rfl
    · rw [allocateMono_mode, retarget_mode]
      rfl

/-! ### The RENDER of an idle pool -/

/-- The free pass of an idle pool frees nothing (41_lifecycle.md R221). -/
theorem freePass_of_idle (h : ∀ v, (s.voice v).state = .idle) : freePass P s = s :=
  forVoices_induct (fun t => t = s) rfl (fun v t _ ht => by
    subst ht
    exact if_neg (by simp [h v]))

/-- With no voice to free and no request to steal for, post-render only ends the mode switch (R220, R222). -/
theorem postRender_of_allIdle {x : Bool} (h : AllIdle x s) : postRender P s = { s with switchPending := false } := by
  unfold postRender
  rw [freePass_of_idle h.idle]
  dsimp only
  split
  · unfold stealPass
    dsimp only
    rw [h.poly, List.length_nil, Nat.zero_sub]
    rfl
  · rfl

theorem AllIdle.beforeSamples {x : Bool} (h : AllIdle x s) (P : Params) (pt : Patch) (n : Nat) (b m a : F32) :
    AllIdle s.hostSustain (beforeSamples P pt n b m a s) :=
  AllIdle.preRender (AllIdle.updateSustain (s := setGlobalTargets pt n b m a s) ⟨h.idle, h.poly, h.mono, h.prev⟩ P pt)
    P pt n

/-- A sequence over an idle pool emits silence, and leaves the pool idle under the patch's mode. -/
theorem renderSequence_of_allIdle {x : Bool} (h : AllIdle x s) (pt : Patch) (n : Nat) (b m a : F32) :
    AllIdle s.hostSustain (renderSequence P pt n b m a s)
    ∧ (renderSequence P pt n b m a s).mode = pt.voiceMode
    ∧ (renderSequence P pt n b m a s).framePort = s.framePort ++ List.replicate n ⟨fZero, fZero⟩ := by
  have hport : (beforeSamples P pt n b m a s).framePort = s.framePort :=
    (beforeSamples_untouched pt n b m a s).framePort
  have hbefore : (beforeSamples P pt n b m a s).mode = pt.voiceMode := preRender_mode pt n _
  obtain ⟨t, e, ht, hmode, hframes⟩ := renderSamples_idle P pt n (List.range n) (h.beforeSamples P pt n b m a)
  rw [List.length_range, hport] at hframes
  unfold renderSequence
  rw [e]
  dsimp only
  rw [postRender_of_allIdle ht]
  exact ⟨⟨ht.idle, ht.poly, ht.mono, ht.prev⟩, hmode.trans hbefore, hframes⟩

/-- Settles O25: an idle pool stays idle and its samples are silence; with all n of them emitted, none faulted. -/
theorem idleRenderEmitsSilence : Obligations.IdleRenderEmitsSilence := by
  unfold Obligations.IdleRenderEmitsSilence
  intro s n b m a hrun hidle hpoly hmono
  have hclear : s.fault = .clear := hrun.1
  have hstart : AllIdle s.prevSustain s := ⟨voice_idle_of hidle, hpoly, hmono, rfl⟩
  obtain ⟨hend, hmode, hsilent⟩ := renderSequence_of_allIdle (P := params) hstart (snapshot params s.patch) n (flush b)
    (flush m) (flush a)
  obtain ⟨frames, hframes, hfault⟩ := renderSequence_fault_frames (P := params) hclear (snapshot params s.patch) n
    (flush b) (flush m) (flush a)
  have hlen : frames.length = n := by
    rw [List.append_cancel_left (hframes.symm.trans hsilent), List.length_replicate]
  refine ⟨_, exec_render_of_runs hrun, ?_, hsilent, mem_idle_of hend.idle, hend.prev, hmode⟩
  rcases hfault with ⟨hc, -⟩ | ⟨-, hlt⟩
  · exact hc
  · omega

end Sys2Proof.Machine
end

section
/-! PROOFS of the family 40_host_commands.md, the system commands (R150 to R155): SET_SAMPLING, the patch commands and
STATUS_READ outside the status map. -/

namespace Sys2Proof.Machine

open Claims

variable {P : Params} {s : State} {addr : Nat}

/-! ### SET_SAMPLING -/

/-- FullReset of every voice writes the pool and the key map only (42_voice_ops.md R249). -/
theorem forVoices_fullReset (h : s.voices.length = P.maxVoices) :
    forVoices P (fullReset P) s
      = { s with voices := List.replicate P.maxVoices (voicePowerOn P)
                 keymap := (forVoices P (fullReset P) s).keymap } := by
  conv_lhs => rw [PoolOnly.forVoices (P := P) (PoolOnly.fullReset P) s]
  rw [voices_forVoices_fullReset h]

theorem setSampling_of_legal {sr spb : Word} (hr : sampleRateLegal sr = true) (hb : blockSizeLegal P spb = true)
    (h : s.voices.length = P.maxVoices) :
    setSampling P sr spb s
      = { s with fs := sr, blockMax := spb, configured := true
                 voices := List.replicate P.maxVoices (voicePowerOn P)
                 keymap := List.replicate 128 none
                 polyReq := [], monoReq := [], relQ := [], monoSeq := []
                 resetReq := false, switchPending := false, glfoPhase := fZero
                 gBend := setImmediate fZero, gMod := setImmediate fZero, gAft := setImmediate fZero
                 gCutoff := setImmediate (readF32 P s.patch 0x020)
                 gReso := setImmediate (readF32 P s.patch 0x021) } := by
  unfold setSampling
  rw [if_neg (by simp [hr]), if_neg (by simp [hb])]
  rw [forVoices_fullReset (s := { s with fs := sr, blockMax := spb, configured := true }) h]

theorem setSampling_of_illegal {sr spb : Word} (h : ¬ (sampleRateLegal sr = true ∧ blockSizeLegal P spb = true)) :
    setSampling P sr spb s = raise .badOperand false s := by
  unfold setSampling
  split
  · rfl
  · next hr => exact if_pos (Bool.eq_false_iff.mpr fun hb => h ⟨Bool.eq_true_of_not_eq_false hr, hb⟩)

theorem samplingLegal_iff (P : Params) (sr spb : Word) :
    (sampleRateLegal sr = true ∧ blockSizeLegal P spb = true)
      ↔ (1000 ≤ sr.toNat ∧ sr.toNat ≤ 384000) ∧ (1 ≤ spb.toNat ∧ spb.toNat ≤ P.maxBlock) := by
  simp only [sampleRateLegal, blockSizeLegal, decide_eq_true_eq, Nat.one_le_iff_ne_zero]

/-- Settles O46: legal operands start the pool, the queues and the controls anew; others raise BAD_OPERAND. -/
theorem setSamplingInitialises : Obligations.SetSamplingInitialises := by
  unfold Obligations.SetSamplingInitialises
  intro s sr spb hc hpool cutoff resonance legal
  rw [exec_of_clear hc, commandRun]
  constructor
  · intro hl
    obtain ⟨hr, hb⟩ := (samplingLegal_iff params sr spb).mpr hl
    rw [setSampling_of_legal hr hb hpool]
    rfl
  · intro hl
    rw [setSampling_of_illegal (mt (samplingLegal_iff params sr spb).mp hl), (raise_of_clear hc _).1]

/-! ### Patch access -/

theorem patchWrite_of_defined (h : patchWordDefined addr) (data : Word) (s : State) :
    patchWrite P addr data s = { s with patch := writeWord P s.patch addr data } :=
  if_neg (by simp [(patchDefined_iff_patchWordDefined P addr).mpr h])

theorem patchRead_of_defined (h : patchWordDefined addr) (s : State) :
    patchRead P addr s = respond (readWord P s.patch addr) s :=
  if_neg (by simp [(patchDefined_iff_patchWordDefined P addr).mpr h])

/-- Settles O48: the write of a word is the write of its four bytes. -/
theorem patchWriteChangesOneWord : Obligations.PatchWriteChangesOneWord := by
  unfold Obligations.PatchWriteChangesOneWord
  intro s addr data hc hwf hd
  refine ⟨_, exec_of_clear hc _, ?_⟩
  rw [commandRun, patchWrite_of_defined hd]
  refine ⟨rfl, ?_, fun a ha => ?_, fun c hb => ?_⟩
  · rw [readWord_writeWord params s.patch addr data hwf, if_pos rfl]
  · rw [readWord_writeWord params s.patch addr data hwf, if_neg ha]
  · rw [readByte_writeWord params s.patch addr data hwf, if_neg (by omega)]

/-- Settles O49: the address is defined, so the stored word is the answer. -/
theorem patchReadAnswersStoredWord : Obligations.PatchReadAnswersStoredWord := by
  unfold Obligations.PatchReadAnswersStoredWord
  intro s addr hc hd
  rw [exec_of_clear hc, commandRun, patchRead_of_defined hd]
  rfl

/-! ### The defaults of the patch map -/

/-- Rows of the map, looked up by their addresses, give their defaults. -/
theorem map_patchDefault_addr {rows : List PatchRow} (h : rows ⊆ patchRows P) :
    (rows.map PatchRow.addr).map (patchDefault P) = rows.map PatchRow.reset := by
  rw [List.map_map]
  exact List.map_congr_left fun r hr => patchDefault_of_mem (h hr)

theorem globalRows_defaults (P : Params) :
    (List.range 0x023).map (patchDefault P) = (globalRows P).map PatchRow.reset := by
  rw [← globalRows_addrs P]
  exact map_patchDefault_addr (List.subset_append_left _ _)

theorem opRows_defaults (P : Params) {i : Nat} (hi : i < 6) :
    (List.range 0x19).map (fun k => patchDefault P (opBase i + k)) = (opRows i).map PatchRow.reset := by
  have hrows : opRows i ⊆ patchRows P := fun r hr =>
    List.mem_append_right _ (List.mem_flatMap.mpr ⟨i, List.mem_range.mpr hi, hr⟩)
  rw [← map_patchDefault_addr hrows, opRows_addrs, List.map_map]
  rfl

/-- Settles O51: a patch RAM with nothing listed reads as the defaults of the map's rows. -/
theorem patchResetRestoresDefaults : Obligations.PatchResetRestoresDefaults := by
  unfold Obligations.PatchResetRestoresDefaults
  intro s hc
  have hread : readWord params [] = patchDefault params := funext (readWord_nil params)
  refine ⟨{ s with patch := [] }, exec_of_clear hc .patchReset, rfl, patchLegal_default params_legal, ?_,
    fun i hi => ?_⟩
  · dsimp only
    rw [hread, globalRows_defaults]
    rfl
  · dsimp only
    rw [hread]
    exact opRows_defaults params hi

/-! ### STATUS_READ outside the status map -/

theorem globalStatus_eq_none (P : Params) (s : State) (h : 7 ≤ addr) : globalStatus P s addr = none := by
  unfold globalStatus
  split
  any_goals omega
  rfl

theorem voiceDataWord_eq_none (v : Voice) {f : Nat} (h : 10 ≤ f) : voiceDataWord v f = none := by
  unfold voiceDataWord
  split
  any_goals omega
  exact if_neg (by omega)

/-- The addresses that R90 leaves out: the gaps between its blocks, the ends of the two blocks of voices, and the last
six words of every voice's data. -/
theorem statusAddress_gaps (h : ¬ statusWordDefined addr) :
    (7 ≤ addr ∧ addr < 0x0100) ∨ (0x0100 + params.maxVoices ≤ addr ∧ addr < 0x0200) ∨ (0x0280 ≤ addr ∧ addr < 0x0400)
      ∨ (0x0904 ≤ addr ∧ addr < 0x1000)
      ∨ (0x1000 ≤ addr ∧ (addr - 0x1000) / 16 < params.maxVoices ∧ 10 ≤ (addr - 0x1000) % 16)
      ∨ (0x1000 ≤ addr ∧ params.maxVoices ≤ (addr - 0x1000) / 16) := by
  unfold statusWordDefined at h
  omega

/-- The model's map has no word outside R90's. -/
theorem statusWord_eq_none (h : ¬ statusWordDefined addr) (s : State) : statusWord params s addr = none := by
  rcases statusAddress_gaps h with ⟨hlo, hhi⟩ | ⟨hlo, hhi⟩ | ⟨hlo, hhi⟩ | ⟨hlo, hhi⟩ | ⟨hlo, hv, hf⟩ | ⟨hlo, hv⟩
  · rw [statusWord, if_pos hhi, globalStatus_eq_none params s hlo]
  · rw [statusWord, if_neg (by omega), if_pos hhi]
    exact if_neg (by omega)
  · rw [statusWord, if_neg (by omega), if_neg (by omega), if_neg (by omega), if_pos hhi]
  · rw [statusWord, if_neg (by omega), if_neg (by omega), if_neg (by omega), if_neg (by omega), if_neg (by omega),
      if_neg (by omega), if_neg (by omega), if_neg (by omega), if_pos hhi]
  · rw [statusWord_voiceData params s hv (f := (addr - 0x1000) % 16) (by omega) (by omega)]
    exact voiceDataWord_eq_none _ hf
  · rw [statusWord, if_neg (by omega), if_neg (by omega), if_neg (by omega), if_neg (by omega), if_neg (by omega),
      if_neg (by omega), if_neg (by omega), if_neg (by omega), if_neg (by omega), if_neg (by omega)]

theorem raise_of_halted (h : s.fault ≠ .clear) (code : FaultCode) :
    raise code true s = { s with respPort := s.respPort ++ [0] } := by
  simp [raise, endResponse, respond, h]

/-- Settles O55: outside the map STATUS_READ raises BAD_ADDRESS, which a HALTED engine does not take over. -/
theorem undefinedStatusAddressAnswersZero : Obligations.UndefinedStatusAddressAnswersZero := by
  unfold Obligations.UndefinedStatusAddressAnswersZero
  intro s addr hd
  have hexec : exec (.statusRead addr) s = .next (raise .badAddress true s) := by
    show Host.Outcome.next (statusRead params addr s) = _
    rw [statusRead, statusWord_eq_none hd]
  rw [hexec]
  constructor
  · intro hc
    rw [(raise_of_clear hc .badAddress).2]
  · intro hf
    rw [raise_of_halted hf]

end Sys2Proof.Machine
end

section
/-! PROOFS of the family 41_lifecycle.md, the order of the requests, the steal fade and StealPass's choice (R196, R213,
R222). -/

namespace Sys2Proof.Machine

open Claims

variable {P : Params} {s : State}

/-! ### The sort of the requests -/

theorem insertNewestFirst_pairwise (r : VoiceRequest) {q : List VoiceRequest}
    (h : q.Pairwise (fun x y => y.timestamp.toNat ≤ x.timestamp.toNat)) :
    (insertNewestFirst r q).Pairwise (fun x y => y.timestamp.toNat ≤ x.timestamp.toNat) := by
  induction q with
  | nil => exact List.pairwise_singleton _ r
  | cons x q ih =>
    obtain ⟨hx, hq⟩ := List.pairwise_cons.mp h
    unfold insertNewestFirst
    split
    · next hr =>
      refine List.pairwise_cons.mpr ⟨fun y hy => ?_, h⟩
      rcases List.mem_cons.mp hy with rfl | hy
      · exact hr
      · exact (hx y hy).trans hr
    · next hr =>
      refine List.pairwise_cons.mpr ⟨fun y hy => ?_, ih hq⟩
      rcases List.mem_cons.mp ((insertNewestFirst_perm r q).mem_iff.mp hy) with rfl | hy
      · omega
      · exact hx y hy

/-- An insertion passes newer requests only, so it moves past none of its own timestamp. -/
theorem filter_insertNewestFirst (ts : Word) (r : VoiceRequest) (q : List VoiceRequest) :
    (insertNewestFirst r q).filter (fun e => e.timestamp == ts) = (r :: q).filter (fun e => e.timestamp == ts) := by
  induction q with
  | nil => rfl
  | cons x q ih =>
    unfold insertNewestFirst
    split
    · rfl
    · next hnewer =>
      rw [List.filter_cons, ih]
      by_cases hr : r.timestamp = ts
      · have hx : x.timestamp ≠ ts := fun hx => hnewer (by rw [hx, hr])
        simp [hr, hx]
      · simp [hr, List.filter_cons]

/-- Settles O32: each insertion keeps the three, so the sort, an insertion for each request, does. -/
theorem sortIsStableNewestFirst : Obligations.SortIsStableNewestFirst := by
  unfold Obligations.SortIsStableNewestFirst
  intro q
  refine ⟨sortNewestFirst_perm q, ?_, fun ts => ?_⟩
  · induction q with
    | nil => exact List.Pairwise.nil
    | cons r q ih => exact insertNewestFirst_pairwise r ih
  · induction q with
    | nil => rfl
    | cons r q ih =>
      show (insertNewestFirst r (sortNewestFirst q)).filter _ = _
      rw [filter_insertNewestFirst, List.filter_cons, List.filter_cons, ih]

/-! ### The steal fade -/

/-- Settles O35: at the last sample the fade is 1.0 - n / n, and a count divided by itself is 1.0. -/
theorem stealFadeEndsAtZero : Obligations.StealFadeEndsAtZero := by
  unfold Obligations.StealFadeEndsAtZero
  intro n h1 h2
  obtain ⟨hfinite, hmag, -⟩ := fofNat_finite h1 h2
  unfold stealFade
  rw [Nat.sub_add_cancel h1, fdiv_self hfinite hmag]
  decide

/-! ### The voice to steal -/

/-- The score in the model's own words is the score written out (R222, 42_voice_ops.md R250). -/
theorem stealScore_eq_score (P : Params) (v : Voice) : stealScore P v = score P v := rfl

theorem isLive_iff (st : VoiceState) : isLive st = true ↔ st = .playing ∨ st = .releasing := by
  cases st <;> decide

/-- `v` is the choice among the live voices below `k`: it scores below +infinity, and every live voice of lower index
whose score is a number scores more. -/
structure QuietestBelow (P : Params) (s : State) (k v : Nat) : Prop where
  below : v < k
  live : isLive (s.voice v).state = true
  number : flt (score P (s.voice v)) fInf = true
  lowest : ∀ u, u < v → isLive (s.voice u).state = true → isNaN (score P (s.voice u)) = false →
    flt (score P (s.voice v)) (score P (s.voice u)) = true

/-- What the scan holds after the voices below `k`: no choice yet and +infinity, or the choice and its score; and no live
voice seen scores less. -/
structure ScanState (P : Params) (s : State) (k : Nat) (best : Option Nat) (bestScore : F32) : Prop where
  choice : (best = none ∧ bestScore = fInf) ∨
    ∃ v, best = some v ∧ bestScore = score P (s.voice v) ∧ QuietestBelow P s k v
  least : ∀ u, u < k → isLive (s.voice u).state = true → flt (score P (s.voice u)) bestScore = false

theorem ScanState.start (P : Params) (s : State) : ScanState P s 0 none fInf where
  choice := .inl ⟨rfl, rfl⟩
  least := fun _ hu => absurd hu (Nat.not_lt_zero _)

/-- A voice that does not beat the best so far. -/
theorem ScanState.skip {k : Nat} {best : Option Nat} {bestScore : F32} (h : ScanState P s k best bestScore)
    (hk : isLive (s.voice k).state = true → flt (score P (s.voice k)) bestScore = false) :
    ScanState P s (k + 1) best bestScore where
  choice := h.choice.imp_right fun ⟨v, hb, hs, hv⟩ =>
    ⟨v, hb, hs, Nat.lt_succ_of_lt hv.below, hv.live, hv.number, hv.lowest⟩
  least := fun u hu => by
    rcases Nat.lt_succ_iff_lt_or_eq.mp hu with hu | rfl
    · exact h.least u hu
    · exact hk

/-- A voice that beats the best so far scores below every voice seen. -/
theorem ScanState.take {k : Nat} {best : Option Nat} {bestScore : F32} (h : ScanState P s k best bestScore)
    (hlive : isLive (s.voice k).state = true) (hlt : flt (score P (s.voice k)) bestScore = true) :
    ScanState P s (k + 1) (some k) (score P (s.voice k)) where
  choice := by
    refine .inr ⟨k, rfl, rfl, Nat.lt_succ_self k, hlive, ?_, fun u hu hl hn => flt_of_not_flt hlt hn (h.least u hu hl)⟩
    rcases h.choice with ⟨-, rfl⟩ | ⟨v, -, rfl, hv⟩
    · exact hlt
    · exact flt_trans hlt hv.number
  least := fun u hu hl => by
    rcases Nat.lt_succ_iff_lt_or_eq.mp hu with hu | rfl
    · exact Bool.eq_false_iff.mpr fun hless => Bool.eq_false_iff.mp (h.least u hu hl) (flt_trans hless hlt)
    · exact flt_irrefl _

theorem stealScan_scanState (n : Nat) {k : Nat} {best : Option Nat} {bestScore : F32}
    (h : ScanState P s k best bestScore) :
    ∃ final, ScanState P s (k + n) (stealScan P s (List.range' k n) best bestScore) final := by
  induction n generalizing k best bestScore with
  | zero => exact ⟨bestScore, h⟩
  | succ n ih =>
    rw [List.range'_succ, ← Nat.succ_add_eq_add_succ]
    unfold stealScan
    simp only [stealScore_eq_score, Bool.and_eq_true]
    split
    · next hk => exact ih (h.take hk.1 hk.2)
    · next hk => exact ih (h.skip fun hl => Bool.eq_false_iff.mpr fun hlt => hk ⟨hl, hlt⟩)

/-- What the whole scan finds. -/
theorem stealCandidate_scanState (P : Params) (s : State) :
    ∃ final, ScanState P s s.curPoly (stealCandidate P s) final := by
  obtain ⟨final, h⟩ := stealScan_scanState s.curPoly (ScanState.start P s)
  rw [Nat.zero_add, ← List.range_eq_range'] at h
  exact ⟨final, h⟩

/-- Settles O33: the candidate is what the scan holds after the last voice below CUR_POLY. -/
theorem stealTakesQuietestLowestVoice : Obligations.StealTakesQuietestLowestVoice := by
  unfold Obligations.StealTakesQuietestLowestVoice
  intro P s
  obtain ⟨final, hchoice, hleast⟩ := stealCandidate_scanState P s
  have hlive : ∀ {u}, stealable s u → isLive (s.voice u).state = true := fun h => (isLive_iff _).mpr h.2
  constructor
  · intro v hv
    rcases hchoice with ⟨hn, -⟩ | ⟨w, hw, rfl, hq⟩
    · cases hv.symm.trans hn
    cases hv.symm.trans hw
    exact ⟨⟨hq.below, (isLive_iff _).mp hq.live⟩, hq.number, fun u hu => hleast u hu.1 (hlive hu),
      fun u hlt hu => hq.lowest u hlt (hlive hu)⟩
  · intro hnone u hu
    rcases hchoice with ⟨-, rfl⟩ | ⟨w, hw, -⟩
    · exact hleast u hu.1 (hlive hu)
    · cases hnone.symm.trans hw

end Sys2Proof.Machine
end

section
/-! PROOFS of the family 41_lifecycle.md, the pedal's marks and the queued releases (R185, R192). -/

namespace Sys2Proof.Machine

variable {P : Params} {s : State}

/-! ### The pedal -/

theorem sustainVoice_sustained_iff (P : Params) (pt : Patch) (fs : Word) (piano : Bool) (v : Voice) :
    (sustainVoice P pt fs piano v).sustained = true ↔ v.sustained = true ∨ v.state = .playing := by
  refine ⟨(sustainVoice_keeps P pt fs piano v).2.2, fun h => ?_⟩
  unfold sustainVoice
  split
  · dsimp only
    split <;> rfl
  · next hmarked =>
    rcases h with hs | hp
    · exact hs
    · exact Bool.eq_true_of_not_eq_false fun hs => hmarked ⟨hp, hs⟩

/-- One voice of the pool after a loop that rewrites each voice by itself. -/
theorem voice_forVoices_setVoice (g : State → Voice → Voice)
    (hg : ∀ t : State, { t with voices := s.voices } = s → g t = g s) (hpool : s.voices.length = P.maxVoices) {v : Nat}
    (hv : v < P.maxVoices) :
    (forVoices P (fun v t => t.setVoice v (g t (t.voice v))) s).voice v = g s (s.voice v) := by
  have hlt : v < s.voices.length := hpool ▸ hv
  rw [forVoices_setVoice P g s hg]
  simp [State.voice, List.getD_eq_getElem?_getD, hlt, hv]

/-- UpdateSustain voice by voice (R185). -/
theorem voice_updateSustain (pt : Patch) (hpool : s.voices.length = P.maxVoices) {v : Nat} (hv : v < P.maxVoices) :
    (updateSustain P pt s).voice v =
      if s.hostSustain then sustainVoice P pt s.fs (s.mode == .poly && pt.pianoPedal) (s.voice v)
      else if s.prevSustain then unsustainVoice P pt s.fs (s.mode == .poly && pt.pianoPedal) (s.voice v)
      else s.voice v := by
  have hfs : ∀ t : State, { t with voices := s.voices } = s → t.fs = s.fs := fun t h => by rw [← h]
  unfold updateSustain
  split
  · exact voice_forVoices_setVoice (fun t => sustainVoice P pt t.fs (s.mode == .poly && pt.pianoPedal))
      (fun t h => by rw [hfs t h]) hpool hv
  split
  · exact voice_forVoices_setVoice (fun t => unsustainVoice P pt t.fs (s.mode == .poly && pt.pianoPedal))
      (fun t h => by rw [hfs t h]) hpool hv
  · rfl

/-- Settles O29, by the pedal's three cases: held, just released, and up. -/
theorem sustainMarksPlayingVoices : Obligations.SustainMarksPlayingVoices := by
  unfold Obligations.SustainMarksPlayingVoices
  intro P pt s v hv hpool
  dsimp only
  rw [voice_updateSustain pt hpool hv]
  refine ⟨congrArg State.prevSustain (updateSustain_keeps P pt s), ?_⟩
  cases hhost : s.hostSustain with
  | true =>
    have hkeeps := sustainVoice_keeps P pt s.fs (s.mode == .poly && pt.pianoPedal) (s.voice v)
    exact ⟨hkeeps.2.1, hkeeps.1, fun _ => sustainVoice_sustained_iff P pt s.fs _ _, nofun, nofun⟩
  | false =>
    cases hprev : s.prevSustain with
    | true =>
      have hkeeps := unsustainVoice_keeps P pt s.fs (s.mode == .poly && pt.pianoPedal) (s.voice v)
      exact ⟨hkeeps.2.1, hkeeps.1, nofun, fun _ _ => hkeeps.2.2, nofun⟩
    | false => exact ⟨rfl, rfl, nofun, nofun, fun _ _ => rfl⟩

/-! ### The queued releases -/

/-- A release that step 2 keeps: its key is bound to a sustained voice. -/
def keptRelease (s : State) (r : ReleaseRequest) : Bool :=
  match s.keyVoice r.key with
  | some v => (s.voice v).sustained
  | none => false

/-- A voice that step 2 releases. -/
def ReleasedBy (s : State) (rs : List ReleaseRequest) (v : Nat) : Prop :=
  (s.voice v).state = .playing ∧ (s.voice v).sustained = false ∧ ∃ r ∈ rs, s.keyVoice r.key = some v

theorem releasedBy_cons (s : State) (r : ReleaseRequest) (rs : List ReleaseRequest) (v : Nat) :
    ReleasedBy s (r :: rs) v ↔ ReleasedBy s [r] v ∨ ReleasedBy s rs v := by
  simp only [ReleasedBy, List.mem_cons, List.not_mem_nil, or_false, exists_eq_left, exists_eq_or_imp]
  tauto

theorem releasedBy_singleton_of_bound {r : ReleaseRequest} {u : Nat} (hk : s.keyVoice r.key = some u) (v : Nat) :
    ReleasedBy s [r] v ↔ v = u ∧ (s.voice u).state = .playing ∧ (s.voice u).sustained = false := by
  simp only [ReleasedBy, List.mem_singleton, exists_eq_left, hk, Option.some.injEq]
  constructor
  · rintro ⟨hp, hs, rfl⟩
    exact ⟨rfl, hp, hs⟩
  · rintro ⟨rfl, hp, hs⟩
    exact ⟨hp, hs, rfl⟩

/-- An index outside the pool reads an Idle record. -/
theorem voice_lt_of_playing {v : Nat} (h : (s.voice v).state = .playing) : v < s.voices.length := by
  by_contra hv
  rw [State.voice, List.getD_eq_getElem?_getD, List.getElem?_eq_none (by omega)] at h
  cases h

/-- What one queued release does: it is kept or gone, with nothing released; or it is gone, with its voice released. -/
theorem resolvePoly_cons (r : ReleaseRequest) (rs rem : List ReleaseRequest) (s : State) :
    ((∀ v, ¬ ReleasedBy s [r] v)
      ∧ resolvePoly (r :: rs) rem s = resolvePoly rs (if keptRelease s r then rem ++ [r] else rem) s)
    ∨ ∃ u, keptRelease s r = false ∧ (∀ v, ReleasedBy s [r] v ↔ v = u) ∧ u < s.voices.length
      ∧ resolvePoly (r :: rs) rem s = resolvePoly rs rem (s.setVoice u (releaseVoice (s.voice u))) := by
  rw [resolvePoly]
  unfold keptRelease
  cases hk : s.keyVoice r.key with
  | none => exact .inl ⟨fun v h => by simp [ReleasedBy, hk] at h, rfl⟩
  | some u =>
    have hone := releasedBy_singleton_of_bound hk
    dsimp only
    by_cases hs : (s.voice u).sustained = true
    · exact .inl ⟨fun v h => by simp [hone, hs] at h, by rw [if_pos hs, if_pos hs]⟩
    by_cases hp : (s.voice u).state = .playing
    · rw [Bool.not_eq_true] at hs
      exact .inr ⟨u, hs, fun v => by simp [hone, hs, hp], voice_lt_of_playing hp, by simp [hs, hp]⟩
    · exact .inl ⟨fun v h => by simp [hone, hp] at h, by rw [if_neg hs, if_neg hp, if_neg hs]⟩

/-- Step 2 over the releases `rs`, `rem` being those kept before. -/
structure Resolved (rs rem : List ReleaseRequest) (s t : State) : Prop where
  frame : t = { s with voices := t.voices, relQ := rem ++ rs.filter (keptRelease s) }
  released : ∀ v, ReleasedBy s rs v → t.voice v = releaseVoice (s.voice v)
  others : ∀ v, ¬ ReleasedBy s rs v → t.voice v = s.voice v

/-- A release that releases nothing, before the rest. -/
theorem Resolved.cons_of_none {r : ReleaseRequest} {rs rem : List ReleaseRequest} {t : State}
    (hr : ∀ v, ¬ ReleasedBy s [r] v) (h : Resolved rs (if keptRelease s r then rem ++ [r] else rem) s t) :
    Resolved (r :: rs) rem s t where
  frame := by
    rw [h.frame, List.filter_cons]
    cases keptRelease s r <;> simp
  released := fun v hv => h.released v (((releasedBy_cons s r rs v).mp hv).resolve_left (hr v))
  others := fun v hv => h.others v fun hrs => hv ((releasedBy_cons s r rs v).mpr (.inr hrs))

/-- A release that releases its voice, before the rest: the voice is Playing no more, so nothing releases it again. -/
theorem Resolved.cons_of_released {r : ReleaseRequest} {rs rem : List ReleaseRequest} {t : State} {u : Nat}
    (hkept : keptRelease s r = false) (hr : ∀ v, ReleasedBy s [r] v ↔ v = u) (hu : u < s.voices.length)
    (h : Resolved rs rem (s.setVoice u (releaseVoice (s.voice u))) t) : Resolved (r :: rs) rem s t := by
  have hvoice := fun v => voice_setVoice s v u (releaseVoice (s.voice u)) hu
  have hsame : ∀ v, v ≠ u → (ReleasedBy (s.setVoice u (releaseVoice (s.voice u))) rs v ↔ ReleasedBy s rs v) := by
    intro v hv
    simp [ReleasedBy, hvoice, hv]
  have hnot : ¬ ReleasedBy (s.setVoice u (releaseVoice (s.voice u))) rs u := by
    simp [ReleasedBy, hvoice]
  have hfilter : keptRelease (s.setVoice u (releaseVoice (s.voice u))) = keptRelease s := by
    funext e
    unfold keptRelease
    rw [keyVoice_setVoice]
    split
    · rw [hvoice]
      split
      · next hvu => rw [hvu, releaseVoice_sustained]
      · rfl
    · rfl
  constructor
  · rw [h.frame, hfilter, List.filter_cons_of_neg (by simp [hkept])]
    rfl
  · intro v hv
    by_cases hvu : v = u
    · rw [hvu, h.others u hnot, hvoice, if_pos rfl]
    · have hrs := ((releasedBy_cons s r rs v).mp hv).resolve_left (mt (hr v).mp hvu)
      rw [h.released v ((hsame v hvu).mpr hrs), hvoice, if_neg hvu]
  · intro v hv
    rw [releasedBy_cons, hr, not_or] at hv
    rw [h.others v (mt (hsame v hv.1).mp hv.2), hvoice, if_neg hv.1]

theorem resolvePoly_resolved (rs rem : List ReleaseRequest) (s : State) :
    Resolved rs rem s (resolvePoly rs rem s) := by
  induction rs generalizing rem s with
  | nil => exact ⟨by simp [resolvePoly], fun v hv => by simp [ReleasedBy] at hv, fun v _ => rfl⟩
  | cons r rs ih =>
    rcases resolvePoly_cons r rs rem s with ⟨hr, e⟩ | ⟨u, hkept, hr, hu, e⟩
    · rw [e]
      exact Resolved.cons_of_none hr (ih _ s)
    · rw [e]
      exact Resolved.cons_of_released hkept hr hu (ih rem _)

/-- Settles O30: step 2 from an empty remainder. -/
theorem queuedReleasesAreResolved : Obligations.QueuedReleasesAreResolved := by
  unfold Obligations.QueuedReleasesAreResolved
  intro s t
  obtain ⟨hframe, hreleased, hothers⟩ := resolvePoly_resolved s.relQ [] s
  have hrel : t.relQ = s.relQ.filter (keptRelease s) := congrArg State.relQ hframe
  exact ⟨by rw [hrel]; exact hframe, hrel, fun v => ⟨hreleased v, hothers v⟩⟩

end Sys2Proof.Machine
end

section
/-! PROOFS of the family 41_lifecycle.md, the allocation of the requests in Poly (R194, R196). -/

namespace Sys2Proof.Machine

open Claims

variable {P : Params} {pt : Patch} {s : State}

/-! ### Pairs -/

theorem map_fst_zip_sublist {α β : Type} (xs : List α) (ys : List β) : ((xs.zip ys).map Prod.fst).Sublist xs := by
  induction xs generalizing ys with
  | nil => exact List.Sublist.refl _
  | cons x xs ih =>
    cases ys with
    | nil => exact List.nil_sublist _
    | cons y ys => exact (ih ys).cons_cons x

theorem map_snd_zip_sublist {α β : Type} (xs : List α) (ys : List β) : ((xs.zip ys).map Prod.snd).Sublist ys := by
  induction xs generalizing ys with
  | nil => exact List.nil_sublist _
  | cons x xs ih =>
    cases ys with
    | nil => exact List.Sublist.refl _
    | cons y ys => exact (ih ys).cons_cons y

theorem mem_zip_iff {α β : Type} {xs : List α} {ys : List β} {p : α × β} :
    p ∈ xs.zip ys ↔ ∃ j : Nat, xs[j]? = some p.1 ∧ ys[j]? = some p.2 := by
  simp only [List.mem_iff_getElem?, List.getElem?_zip_eq_some]

/-! ### One voice initialised -/

/-- The record InitializeVoice leaves is the record written out (42_voice_ops.md R230 to R234). -/
theorem freshVoice_eq_startedVoice (P : Params) (pt : Patch) (fs : Word) (phase : F32) (r : VoiceRequest) :
    freshVoice P pt fs phase r = startedVoice P pt fs phase r := rfl

theorem voice_initializeVoice (pt : Patch) {v : Nat} (hv : v < s.voices.length) (r : VoiceRequest) (u : Nat) :
    (initializeVoice P pt v r s).voice u = if u = v then startedVoice P pt s.fs s.glfoPhase r else s.voice u := by
  unfold initializeVoice
  dsimp only
  rw [voice_setKey, voice_setVoice _ _ _ _ (by rw [clearKey_voices]; exact hv), voice_clearKey, clearKey_fs,
    clearKey_glfoPhase, freshVoice_eq_startedVoice]

theorem length_initializeVoice (P : Params) (pt : Patch) (v : Nat) (r : VoiceRequest) (s : State) :
    (initializeVoice P pt v r s).voices.length = s.voices.length := by
  unfold initializeVoice
  simp

theorem keymap_length_initializeVoice (P : Params) (pt : Patch) (v : Nat) (r : VoiceRequest) (s : State) :
    (initializeVoice P pt v r s).keymap.length = s.keymap.length := by
  unfold initializeVoice
  simp only [keymap_length_setKey, setVoice_keymap, keymap_length_clearKey]

/-- Initialising a voice that holds no key binds the request's key and no other. -/
theorem keyVoice_initializeVoice_of_unbound (pt : Patch) {v : Nat} (hv : (s.voice v).key = none) {r : VoiceRequest}
    (hr : r.key < s.keymap.length) (k : Nat) :
    (initializeVoice P pt v r s).keyVoice k = if k = r.key then some v else s.keyVoice k := by
  unfold initializeVoice
  rw [hv]
  split
  · next h => rw [h]; exact keyVoice_setKey_same _ _ hr
  · next h => exact keyVoice_setKey_ne _ _ h

/-! ### The Idle voices -/

theorem freeSlot_eq_head (s : State) : freeSlot s = (idleSlots s).head? := List.head?_filter.symm

theorem idleSlots_nodup (s : State) : (idleSlots s).Nodup := List.nodup_range.filter _

theorem mem_idleSlots {v : Nat} : v ∈ idleSlots s ↔ v < s.curPoly ∧ (s.voice v).state = .idle := by
  simp [idleSlots]

/-- The voice initialised is Idle no more; the other Idle voices are left. -/
theorem idleSlots_initializeVoice (pt : Patch) {v : Nat} {vs : List Nat} (h : idleSlots s = v :: vs)
    (hv : v < s.voices.length) (r : VoiceRequest) : idleSlots (initializeVoice P pt v r s) = vs := by
  have hcur : (initializeVoice P pt v r s).curPoly = s.curPoly := by rw [PoolOnly.initializeVoice P pt v r s]
  have hfilter : idleSlots (initializeVoice P pt v r s) = (idleSlots s).filter (fun u => u != v) := by
    unfold idleSlots
    rw [hcur, List.filter_filter]
    refine List.filter_congr fun u _ => ?_
    rw [voice_initializeVoice pt hv]
    by_cases hu : u = v
    · simp [hu, startedVoice]
    · simp [hu]
  have hnodup := idleSlots_nodup s
  rw [h, List.nodup_cons] at hnodup
  rw [hfilter, h, List.filter_cons_of_neg (by simp), List.filter_eq_self]
  exact fun u hu => bne_iff_ne.mpr fun e => hnodup.1 (e ▸ hu)

/-! ### The allocation as a sequence of assignments -/

/-- Each voice of `pairs` initialised for its request, in order. -/
def assignVoices (P : Params) (pt : Patch) : List (Nat × VoiceRequest) → State → State
  | [], s => s
  | p :: ps, s => assignVoices P pt ps (initializeVoice P pt p.1 p.2 s)

/-- The loop of step 4 pairs the Idle voices with the requests, in both orders, and keeps the requests left over. -/
theorem allocatePoly_eq_assignVoices (reqs keep : List VoiceRequest) (s : State) (h : s.curPoly ≤ s.voices.length) :
    allocatePoly P pt reqs keep s
      = { assignVoices P pt ((idleSlots s).zip reqs) s with
          polyReq := keep ++ reqs.drop (idleSlots s).length } := by
  induction reqs generalizing keep s with
  | nil => simp [allocatePoly, assignVoices]
  | cons r reqs ih =>
    rw [allocatePoly, freeSlot_eq_head]
    cases hslots : idleSlots s with
    | nil =>
      dsimp only [List.head?_nil]
      rw [ih _ s h, hslots]
      simp
    | cons v vs =>
      have hv : v < s.voices.length :=
        Nat.lt_of_lt_of_le (mem_idleSlots.mp (hslots ▸ List.mem_cons_self)).1 h
      have hcur : (initializeVoice P pt v r s).curPoly = s.curPoly := by rw [PoolOnly.initializeVoice P pt v r s]
      dsimp only [List.head?_cons]
      rw [ih keep _ (by rw [hcur, length_initializeVoice]; exact h), idleSlots_initializeVoice pt hslots hv r]
      rfl

/-- Different voices of the pool are assigned. -/
structure VoicesAssignable (ps : List (Nat × VoiceRequest)) (s : State) : Prop where
  inPool : ∀ p ∈ ps, p.1 < s.voices.length
  distinct : (ps.map Prod.fst).Nodup

theorem VoicesAssignable.head {p : Nat × VoiceRequest} {ps : List (Nat × VoiceRequest)}
    (h : VoicesAssignable (p :: ps) s) : p.1 < s.voices.length ∧ ∀ q ∈ ps, q.1 ≠ p.1 := by
  exact ⟨h.inPool p List.mem_cons_self, fun q hq e =>
    (List.nodup_cons.mp h.distinct).1 (List.mem_map.mpr ⟨q, hq, e⟩)⟩

theorem VoicesAssignable.tail {p : Nat × VoiceRequest} {ps : List (Nat × VoiceRequest)}
    (h : VoicesAssignable (p :: ps) s) (P : Params) (pt : Patch) :
    VoicesAssignable ps (initializeVoice P pt p.1 p.2 s) where
  inPool := fun q hq => by rw [length_initializeVoice]; exact h.inPool q (List.mem_cons_of_mem _ hq)
  distinct := (List.nodup_cons.mp h.distinct).2

theorem voice_assignVoices_of_not_mem {ps : List (Nat × VoiceRequest)} (h : VoicesAssignable ps s) {v : Nat}
    (hv : ∀ p ∈ ps, p.1 ≠ v) : (assignVoices P pt ps s).voice v = s.voice v := by
  induction ps generalizing s with
  | nil => rfl
  | cons p ps ih =>
    rw [assignVoices, ih (h.tail P pt) fun q hq => hv q (List.mem_cons_of_mem _ hq), voice_initializeVoice pt h.head.1,
      if_neg (hv p List.mem_cons_self).symm]

theorem voice_assignVoices_of_mem {ps : List (Nat × VoiceRequest)} (h : VoicesAssignable ps s) {p : Nat × VoiceRequest}
    (hp : p ∈ ps) : (assignVoices P pt ps s).voice p.1 = startedVoice P pt s.fs s.glfoPhase p.2 := by
  induction ps generalizing s with
  | nil => cases hp
  | cons q ps ih =>
    obtain ⟨hq, hne⟩ := h.head
    rcases List.mem_cons.mp hp with rfl | hp
    · rw [assignVoices, voice_assignVoices_of_not_mem (h.tail P pt) hne, voice_initializeVoice pt hq, if_pos rfl]
    · rw [assignVoices, ih (h.tail P pt) hp, PoolOnly.initializeVoice P pt q.1 q.2 s]

/-- The voices assigned hold no key, and the requests different keys of the map. -/
structure KeysAssignable (ps : List (Nat × VoiceRequest)) (s : State) : Prop where
  voices : VoicesAssignable ps s
  unbound : ∀ p ∈ ps, (s.voice p.1).key = none
  distinct : (ps.map fun p => p.2.key).Nodup
  mapped : ∀ p ∈ ps, p.2.key < s.keymap.length

theorem KeysAssignable.head_ne {p : Nat × VoiceRequest} {ps : List (Nat × VoiceRequest)}
    (h : KeysAssignable (p :: ps) s) : ∀ q ∈ ps, q.2.key ≠ p.2.key := fun q hq e =>
  (List.nodup_cons.mp h.distinct).1 (List.mem_map.mpr ⟨q, hq, e⟩)

theorem KeysAssignable.tail {p : Nat × VoiceRequest} {ps : List (Nat × VoiceRequest)}
    (h : KeysAssignable (p :: ps) s) (P : Params) (pt : Patch) :
    KeysAssignable ps (initializeVoice P pt p.1 p.2 s) where
  voices := h.voices.tail P pt
  unbound := fun q hq => by
    obtain ⟨hp, hne⟩ := h.voices.head
    rw [voice_initializeVoice pt hp, if_neg (hne q hq)]
    exact h.unbound q (List.mem_cons_of_mem _ hq)
  distinct := (List.nodup_cons.mp h.distinct).2
  mapped := fun q hq => by rw [keymap_length_initializeVoice]; exact h.mapped q (List.mem_cons_of_mem _ hq)

theorem keyVoice_initializeVoice_head {p : Nat × VoiceRequest} {ps : List (Nat × VoiceRequest)}
    (h : KeysAssignable (p :: ps) s) (k : Nat) :
    (initializeVoice P pt p.1 p.2 s).keyVoice k = if k = p.2.key then some p.1 else s.keyVoice k :=
  keyVoice_initializeVoice_of_unbound pt (h.unbound p List.mem_cons_self) (h.mapped p List.mem_cons_self) k

theorem keyVoice_assignVoices_of_not_mem {ps : List (Nat × VoiceRequest)} (h : KeysAssignable ps s) {k : Nat}
    (hk : ∀ p ∈ ps, p.2.key ≠ k) : (assignVoices P pt ps s).keyVoice k = s.keyVoice k := by
  induction ps generalizing s with
  | nil => rfl
  | cons p ps ih =>
    rw [assignVoices, ih (h.tail P pt) fun q hq => hk q (List.mem_cons_of_mem _ hq), keyVoice_initializeVoice_head h,
      if_neg (hk p List.mem_cons_self).symm]

theorem keyVoice_assignVoices_of_mem {ps : List (Nat × VoiceRequest)} (h : KeysAssignable ps s)
    {p : Nat × VoiceRequest} (hp : p ∈ ps) : (assignVoices P pt ps s).keyVoice p.2.key = some p.1 := by
  induction ps generalizing s with
  | nil => cases hp
  | cons q ps ih =>
    rcases List.mem_cons.mp hp with rfl | hp
    · rw [assignVoices, keyVoice_assignVoices_of_not_mem (h.tail P pt) h.head_ne, keyVoice_initializeVoice_head h,
        if_pos rfl]
    · exact ih (h.tail P pt) hp

/-! ### Step 4 -/

theorem zip_voicesAssignable (h : s.curPoly ≤ s.voices.length) (reqs : List VoiceRequest) :
    VoicesAssignable ((idleSlots s).zip reqs) s where
  inPool := fun _ hp => Nat.lt_of_lt_of_le (mem_idleSlots.mp (List.of_mem_zip hp).1).1 h
  distinct := (idleSlots_nodup s).sublist (map_fst_zip_sublist _ _)

theorem zip_keysAssignable (h : s.curPoly ≤ s.voices.length) {reqs : List VoiceRequest}
    (hidle : ∀ v, (s.voice v).state = .idle → (s.voice v).key = none) (hdistinct : DistinctKeys VoiceRequest.key reqs)
    (hmapped : ∀ r ∈ reqs, r.key < s.keymap.length) : KeysAssignable ((idleSlots s).zip reqs) s where
  voices := zip_voicesAssignable h reqs
  unbound := fun _ hp => hidle _ (mem_idleSlots.mp (List.of_mem_zip hp).1).2
  distinct := by
    have hsub := (map_snd_zip_sublist (idleSlots s) reqs).map VoiceRequest.key
    rw [List.map_map] at hsub
    exact hdistinct.sublist hsub
  mapped := fun _ hp => hmapped _ (List.of_mem_zip hp).2

/-- Settles O31: step 4 assigns the Idle voices to the sorted requests, pair by pair. -/
theorem newestRequestsTakeLowestIdleVoices : Obligations.NewestRequestsTakeLowestIdleVoices := by
  unfold Obligations.NewestRequestsTakeLowestIdleVoices
  intro P pt s hcur sorted t
  have ht : t = { assignVoices P pt ((idleSlots s).zip sorted) s with polyReq := sorted.drop (idleSlots s).length } :=
    allocatePoly_eq_assignVoices sorted [] s hcur
  have hvoice : ∀ v, t.voice v = (assignVoices P pt ((idleSlots s).zip sorted) s).voice v := fun v => by rw [ht]; rfl
  have hkey : ∀ k, t.keyVoice k = (assignVoices P pt ((idleSlots s).zip sorted) s).keyVoice k := fun k => by
    rw [ht]; rfl
  have hpairs := zip_voicesAssignable hcur sorted
  refine ⟨by rw [ht], fun j v r hv hr => ?_, fun v hv => ?_, fun hidle hdistinct hmapped => ?_⟩
  · rw [hvoice]
    exact voice_assignVoices_of_mem hpairs (p := (v, r)) (mem_zip_iff.mpr ⟨j, hv, hr⟩)
  · rw [hvoice]
    refine voice_assignVoices_of_not_mem hpairs fun p hp e => ?_
    obtain ⟨j, hj, hr⟩ := mem_zip_iff.mp hp
    have hbeyond : sorted.length ≤ j := hv j (e ▸ hj)
    have hbelow : j < sorted.length := (List.getElem?_eq_some_iff.mp hr).1
    omega
  · have hperm := sortNewestFirst_perm s.polyReq
    have hkeys : KeysAssignable ((idleSlots s).zip sorted) s := zip_keysAssignable hcur hidle
      ((hperm.map _).nodup_iff.mpr hdistinct) fun r hr => hmapped r (hperm.subset hr)
    refine ⟨fun j v r hv hr => ?_, fun k hk => ?_⟩
    · rw [hkey]
      exact keyVoice_assignVoices_of_mem hkeys (p := (v, r)) (mem_zip_iff.mpr ⟨j, hv, hr⟩)
    · rw [hkey]
      refine keyVoice_assignVoices_of_not_mem hkeys fun p hp e => ?_
      obtain ⟨j, hj, hr⟩ := mem_zip_iff.mp hp
      have hbeyond : (idleSlots s).length ≤ j := hk j p.2 hr e
      have hbelow : j < (idleSlots s).length := (List.getElem?_eq_some_iff.mp hj).1
      omega

end Sys2Proof.Machine
end

section
/-! PROOFS of the family 41_lifecycle.md, the free pass (R221). -/

namespace Sys2Proof.Machine

variable {P : Params} {s : State}

/-- A voice that the free pass frees. -/
abbrev ToFree (v : Voice) : Prop := v.state = .stolen ∨ (v.state ≠ .idle ∧ isDone v = true)

/-- What the free pass makes of a voice it frees: as at power-on where a mode switch is pending, else unbound. -/
def freedVoice (P : Params) (pending : Bool) (v : Voice) : Voice := if pending then voicePowerOn P else unbound .idle v

theorem freedVoice_state (P : Params) (pending : Bool) (v : Voice) : (freedVoice P pending v).state = .idle := by
  cases pending <;> rfl

theorem freedVoice_key (P : Params) (pending : Bool) (v : Voice) : (freedVoice P pending v).key = none := by
  cases pending <;> rfl

/-- What the turns below `n` leave: their voices freed where they are to be, the others as they were. -/
structure FreedBelow (P : Params) (s : State) (n : Nat) (t : State) : Prop where
  pool : t.voices.length = s.voices.length
  pending : t.switchPending = s.switchPending
  voices : ∀ u, t.voice u =
    if u < n ∧ ToFree (s.voice u) then freedVoice P s.switchPending (s.voice u) else s.voice u

/-- A turn meets its voice as it was before the pass. -/
theorem FreedBelow.turn {v : Nat} {t : State} (h : FreedBelow P s v t) (hv : v < s.voices.length) :
    FreedBelow P s (v + 1) (freeIfDone P v t) where
  pool := (length_freeIfDone P v t).trans h.pool
  pending := by rw [PoolOnly.freeIfDone P v t]; exact h.pending
  voices := fun u => by
    have hself : t.voice v = s.voice v := by rw [h.voices, if_neg (by omega)]
    rw [voice_freeIfDone P v t (h.pool ▸ hv), hself, h.pending]
    by_cases hu : u = v
    · subst hu
      simp only [true_and, Nat.lt_succ_self]
      split
      · rfl
      · exact hself
    · have hlt : u < v + 1 ↔ u < v := by omega
      rw [if_neg fun e => hu e.1, h.voices]
      simp only [hlt]

/-- The free pass voice by voice. -/
theorem voice_freePass (hpool : s.voices.length = P.maxVoices) {v : Nat} (hv : v < P.maxVoices) :
    (freePass P s).voice v = if ToFree (s.voice v) then freedVoice P s.switchPending (s.voice v) else s.voice v := by
  have h : FreedBelow P s P.maxVoices (freePass P s) :=
    forVoices_induct_upto (FreedBelow P s) ⟨rfl, rfl, fun u => by simp⟩ fun v t hv ht => ht.turn (hpool ▸ hv)
  rw [h.voices]
  simp [hv]

theorem PoolInv.freePass (h : PoolInv P s) : PoolInv P (Machine.freePass P s) :=
  forVoices_induct (PoolInv P) h fun v t hv ht => by
    unfold freeIfDone
    dsimp only
    split
    · split
      · exact (ht.freeVoice hv).fullReset hv
      · exact ht.freeVoice hv
    · exact ht

/-- Settles O34: each voice is as the pass leaves it, and a freed one holds no key, so no key maps to it. -/
theorem freePassFreesStolenAndDone : Obligations.FreePassFreesStolenAndDone := by
  unfold Obligations.FreePassFreesStolenAndDone
  intro P s h v hv t free
  have hvoice : t.voice v = if free then freedVoice P s.switchPending (s.voice v) else s.voice v :=
    voice_freePass h.poolSize hv
  refine ⟨fun hf => ?_, fun hf hp => ?_, fun hf hp => ?_, fun hf k hk => ?_⟩
  · rw [hvoice, if_neg hf]
  · rw [hvoice, if_pos hf, hp]
    rfl
  · rw [hvoice, if_pos hf, hp]
    rfl
  · have hbound : (t.voice v).key = some k := (h.freePass.bound v k hv).mpr hk
    rw [hvoice, if_pos hf, freedVoice_key] at hbound
    cases hbound

end Sys2Proof.Machine
end

section
/-! PROOFS of the family 41_lifecycle.md, a RENDER that ends without a fault: the global controls sample by sample (R181,
R210, R211), and the RENDER after a mode switch or a reset request (R191, R221, 70_reset_and_hazards.md R370). -/

namespace Sys2Proof.Machine

variable {P : Params} {pt : Patch} {s t u : State}

/-- A sequence that ends without a fault has rendered every sample. -/
theorem renderSequence_of_fault_clear {n : Nat} {b m a : F32} (h : (renderSequence P pt n b m a s).fault = .clear) :
    ∃ u, renderSamples P pt n (List.range n) (beforeSamples P pt n b m a s) = .ok u
      ∧ Rendered (beforeSamples P pt n b m a s) u ∧ renderSequence P pt n b m a s = postRender P u := by
  unfold renderSequence at h ⊢
  rcases renderSamples_spec P pt n (List.range n) (beforeSamples P pt n b m a s) with
    ⟨u, frames, e, hr, -⟩ | ⟨u, frames, e, hr, -⟩
  · rw [e] at h
    dsimp only at h
    rw [raise_fault] at h
    split at h
    · cases h
    · next hne => exact absurd h hne
  · rw [e]
    exact ⟨u, rfl, hr, rfl⟩

/-! ### The global controls -/

/-- GLFO_PHASE after one sample (R211). -/
def lfoPhaseStep (pt : Patch) (fs : Word) (phase : F32) : F32 := frac (fadd phase (fdiv pt.lfoRate (fofNat fs.toNat)))

/-- The global controls of `t` are those of `s`, `k` samples later. -/
structure ControlsAdvanced (pt : Patch) (k : Nat) (s t : State) : Prop where
  fs : t.fs = s.fs
  gBend : t.gBend = interpSample^[k] s.gBend
  gMod : t.gMod = interpSample^[k] s.gMod
  gAft : t.gAft = interpSample^[k] s.gAft
  gCutoff : t.gCutoff = interpSample^[k] s.gCutoff
  gReso : t.gReso = interpSample^[k] s.gReso
  glfoPhase : t.glfoPhase = (lfoPhaseStep pt s.fs)^[k] s.glfoPhase

theorem ControlsAdvanced.refl (pt : Patch) (s : State) : ControlsAdvanced pt 0 s s := by constructor <;> rfl

theorem ControlsAdvanced.trans {k : Nat} (h : ControlsAdvanced pt 1 s t) (h' : ControlsAdvanced pt k t u) :
    ControlsAdvanced pt (k + 1) s u where
  fs := h'.fs.trans h.fs
  gBend := by rw [h'.gBend, h.gBend]; rfl
  gMod := by rw [h'.gMod, h.gMod]; rfl
  gAft := by rw [h'.gAft, h.gAft]; rfl
  gCutoff := by rw [h'.gCutoff, h.gCutoff]; rfl
  gReso := by rw [h'.gReso, h.gReso]; rfl
  glfoPhase := by rw [h'.glfoPhase, h.glfoPhase, h.fs]; rfl

/-- The voices of a sample leave the controls. -/
theorem mixVoices_untouched {j n : Nat} {vs : List Nat} {dryL dryR l r : F32}
    (h : mixVoices P pt j n vs s dryL dryR = .ok (l, r, t)) : Untouched s t := by
  induction vs generalizing s dryL dryR with
  | nil =>
    cases h
    exact Untouched.refl _
  | cons v vs ih =>
    unfold mixVoices at h
    split at h
    · exact ih h
    split at h
    · cases h
    · exact (PoolOnly.setVoice s v _).untouched.trans (ih h)

theorem renderSample_controls {n j : Nat} (h : renderSample P pt n j s = .ok t) : ControlsAdvanced pt 1 s t := by
  unfold renderSample at h
  split at h
  · cases h
  · next l r u hmix =>
    have hu := mixVoices_untouched hmix
    split at h
    · cases h
      exact ⟨hu.fs, hu.gBend, hu.gMod, hu.gAft, hu.gCutoff, hu.gReso, hu.glfoPhase⟩
    · cases h

theorem renderSamples_controls {n : Nat} {js : List Nat} (h : renderSamples P pt n js s = .ok t) :
    ControlsAdvanced pt js.length s t := by
  induction js generalizing s with
  | nil =>
    cases h
    exact ControlsAdvanced.refl pt _
  | cons j js ih =>
    unfold renderSamples at h
    split at h
    · cases h
    · next u hj => exact (renderSample_controls hj).trans (ih h)

/-- Settles O27: the steps before the samples re-target the controls, each sample advances them, the rest leaves them. -/
theorem globalsAdvanceOncePerSample : Obligations.GlobalsAdvanceOncePerSample := by
  unfold Obligations.GlobalsAdvanceOncePerSample
  intro s t n b m a hrun hexec hclear
  cases (exec_render_of_runs hrun).symm.trans hexec
  obtain ⟨u, hsamples, -, hend⟩ := renderSequence_of_fault_clear hclear
  have hbefore := beforeSamples_untouched (P := params) (snapshot params s.patch) n (flush b) (flush m) (flush a) s
  have hcontrols := renderSamples_controls hsamples
  have hafter := postRender_untouched (P := params) u
  rw [List.length_range] at hcontrols
  rw [hend, hafter.gBend, hafter.gMod, hafter.gAft, hafter.gCutoff, hafter.gReso, hafter.glfoPhase, hcontrols.gBend,
    hcontrols.gMod, hcontrols.gAft, hcontrols.gCutoff, hcontrols.gReso, hcontrols.glfoPhase, hbefore.gBend,
    hbefore.gMod, hbefore.gAft, hbefore.gCutoff, hbefore.gReso, hbefore.glfoPhase, hbefore.fs]
  exact ⟨rfl, rfl, rfl, rfl, rfl, rfl⟩

/-! ### A mode switch or a reset request -/

/-- What step 1 of a mode switch or a reset leaves, and samples keep: no voice is live and nothing is queued. -/
structure Silenced (P : Params) (mode : VoiceMode) (s : State) : Prop where
  inv : Inv P s
  silent : ∀ v, v < P.maxVoices → isLive (s.voice v).state = false
  poly : s.polyReq = []
  mono : s.monoReq = []
  rel : s.relQ = []
  seq : s.monoSeq = []
  reset : s.resetReq = false
  mode : s.mode = mode

theorem preRender_of_switch (h : pt.voiceMode ≠ s.mode ∨ s.resetReq = true) (P : Params) (n : Nat) :
    preRender P pt n s = forceSteal P (pt.voiceMode != s.mode) (latchMode pt s) := by
  unfold preRender
  dsimp only
  refine if_pos ?_
  rcases h with h | h
  · simp [h]
  · simp [latchMode, h]

theorem Inv.silenced_preRender (h : Inv P s) (h2 : 2 ≤ P.maxVoices) (hp : PolyphonyLegal P pt)
    (hswitch : pt.voiceMode ≠ s.mode ∨ s.resetReq = true) (n : Nat) :
    Silenced P pt.voiceMode (Machine.preRender P pt n s) where
  inv := h.preRender h2 hp n
  mode := preRender_mode pt n s
  silent := by
    rw [preRender_of_switch hswitch]
    exact (forceSteal_pool (h.pool.congr (t := latchMode pt s) rfl rfl) _).2
  poly := by rw [preRender_of_switch hswitch]; rfl
  mono := by rw [preRender_of_switch hswitch]; rfl
  rel := by rw [preRender_of_switch hswitch]; rfl
  seq := by rw [preRender_of_switch hswitch]; rfl
  reset := by rw [preRender_of_switch hswitch]; rfl

/-- The steps before pre-render write neither MODE nor RESET_REQ. -/
theorem Inv.silenced_beforeSamples (h : Inv P s) (h2 : 2 ≤ P.maxVoices) (hp : PolyphonyLegal P pt)
    (hswitch : pt.voiceMode ≠ s.mode ∨ s.resetReq = true) (n : Nat) (b m a : F32) :
    Silenced P pt.voiceMode (Machine.beforeSamples P pt n b m a s) := by
  refine ((h.setGlobalTargets pt n b m a).updateSustain pt).silenced_preRender h2 hp ?_ n
  rw [updateSustain_keeps]
  exact hswitch

theorem Silenced.rendered {mode : VoiceMode} (h : Silenced P mode s) (hr : Rendered s t) : Silenced P mode t where
  inv := h.inv.rendered hr
  silent := fun v hv => by rw [(hr.notes v).state]; exact h.silent v hv
  poly := by rw [hr.frame]; exact h.poly
  mono := by rw [hr.frame]; exact h.mono
  rel := by rw [hr.frame]; exact h.rel
  seq := by rw [hr.frame]; exact h.seq
  reset := by rw [hr.frame]; exact h.reset
  mode := by rw [hr.frame]; exact h.mode

theorem freePass_pool (P : Params) (s : State) : PoolOnly s (freePass P s) := PoolOnly.forVoices (PoolOnly.freeIfDone P) s

/-- With no request waiting, post-render frees and steals nothing (R220, R222). -/
theorem postRender_of_no_request (h : s.polyReq = []) : postRender P s = { freePass P s with switchPending := false } := by
  have hpoly : (freePass P s).polyReq = [] := by rw [freePass_pool]; exact h
  unfold postRender
  dsimp only
  split
  · simp only [stealPass, hpoly, List.length_nil, Nat.zero_sub, stealTimes]
  · rfl

/-- The free pass over voices that are Idle or Stolen leaves all of them Idle. -/
theorem freePass_idle (hpool : s.voices.length = P.maxVoices) {v : Nat} (hv : v < P.maxVoices)
    (h : isLive (s.voice v).state = false) : ((freePass P s).voice v).state = .idle := by
  rw [voice_freePass hpool hv]
  split
  · exact freedVoice_state _ _ _
  · next hkeep =>
    cases hstate : (s.voice v).state with
    | idle => rfl
    | stolen => exact absurd (.inl hstate) hkeep
    | playing => rw [hstate] at h; cases h
    | releasing => rw [hstate] at h; cases h

/-- A pool of Idle voices holds no key and no mark, and no key maps to it. -/
theorem PoolInv.unbound_of_idle (h : PoolInv P s) (hidle : ∀ v, v < P.maxVoices → (s.voice v).state = .idle) :
    (∀ v ∈ s.voices, v.state = .idle ∧ v.key = none ∧ v.sustained = false) ∧ ∀ k, s.keyVoice k = none := by
  have hkey : ∀ v, v < P.maxVoices → (s.voice v).key = none := fun v hv =>
    h.key_none hv (by rw [hidle v hv]; rfl)
  constructor
  · intro x hx
    obtain ⟨v, hlt, rfl⟩ := List.getElem_of_mem hx
    have hv : v < P.maxVoices := h.poolSize ▸ hlt
    rw [← voice_eq_getElem s hlt]
    refine ⟨hidle v hv, hkey v hv, Bool.eq_false_iff.mpr fun hs => ?_⟩
    cases (hidle v hv).symm.trans (h.sustainedPlaying v hv hs)
  · intro k
    refine Option.eq_none_iff_forall_ne_some.mpr fun v hk => ?_
    have hv := h.mapped k v hk
    cases (hkey v hv).symm.trans ((h.bound v k hv).mpr hk)

/-- Settles O28: step 1 steals every voice and empties the queues, the samples keep that, the free pass frees the voices. -/
theorem modeSwitchRenderIdlesEverything : Obligations.ModeSwitchRenderIdlesEverything := by
  unfold Obligations.ModeSwitchRenderIdlesEverything
  intro s t n b m a hrun hinv hswitch hexec hclear
  have ⟨_, _, _, hlegal⟩ := hrun
  cases (exec_render_of_runs hrun).symm.trans hexec
  obtain ⟨u, -, hrendered, hend⟩ := renderSequence_of_fault_clear hclear
  have hu : Silenced params (snapshot params s.patch).voiceMode u :=
    (hinv.silenced_beforeSamples params_maxVoices.1 (snapshot_polyphony hlegal) hswitch n _ _ _).rendered hrendered
  rw [hend, postRender_of_no_request hu.poly]
  have hfree := freePass_pool params u
  have hpool : PoolInv params { freePass params u with switchPending := false } :=
    hu.inv.pool.freePass.congr rfl rfl
  obtain ⟨hvoices, hkeys⟩ := hpool.unbound_of_idle fun v hv => freePass_idle hu.inv.pool.poolSize hv (hu.silent v hv)
  refine ⟨hvoices, hkeys, ?_⟩
  rw [hfree]
  exact ⟨hu.poly, hu.mono, hu.rel, hu.seq, hu.reset, rfl, hu.mode⟩

end Sys2Proof.Machine
end

section
/-! PROOFS of the family 42_voice_ops.md: IsDone (R251) and Legato (R236). -/

namespace Sys2Proof.Machine

open Claims

variable {P : Params} {pt : Patch} {req : VoiceRequest} {s : State}

/-! ### IsDone -/

theorem envIsIdle_iff (e : Envelope) : envIsIdle e = true ↔ e.stage = .idle := beq_iff_eq

/-- An operator that is not heard does not hold its voice up. -/
theorem unheard_or_idle_iff (o : Operator) :
    (!heard o || envIsIdle o.env) = true ↔ (o.enabled = true → o.carrier = true → o.env.stage = .idle) := by
  rw [Bool.or_eq_true, Bool.not_eq_true', ← Bool.not_eq_true, envIsIdle_iff, ← imp_iff_not_or, heard,
    Bool.and_eq_true, and_imp]

/-- Settles O37: IsDone asks each operator whether it is unheard or Idle. -/
theorem voiceIsDoneWhenCarriersIdle : Obligations.VoiceIsDoneWhenCarriersIdle := by
  unfold Obligations.VoiceIsDoneWhenCarriersIdle
  intro v
  simp only [isDone, List.all_eq_true, unheard_or_idle_iff]

/-! ### Legato -/

theorem mapOps_length (pt : Patch) (f : Operator → OpPatch → Operator) (ops : List Operator) :
    (mapOps pt f ops).length = ops.length :=
  List.length_mapIdx

theorem mapOps_getElem? (pt : Patch) (f : Operator → OpPatch → Operator) (ops : List Operator) (i : Nat) :
    (mapOps pt f ops)[i]? = ops[i]?.map (fun o => f o (pt.op i)) :=
  List.getElem?_mapIdx

theorem glideTo_zero (x : Interp) (f : F32) {g : Nat} (h : g = 0) : glideTo x f g = setImmediate f := if_pos h

theorem glideTo_of_ne_zero (x : Interp) (f : F32) {g : Nat} (h : g ≠ 0) : glideTo x f g = setTarget x f g := if_neg h

theorem legatoVoice_ops_length (fs : Word) (v : Voice) : (legatoVoice P pt fs req v).ops.length = v.ops.length := by
  simp only [legatoVoice, mapOps_length]

/-- A legato changes an operator in its frequency ramp only. -/
theorem legatoVoice_op (fs : Word) (v : Voice) {i : Nat} {o p : Operator} (ho : v.ops[i]? = some o)
    (hp : (legatoVoice P pt fs req v).ops[i]? = some p) :
    p = { o with freq := glideTo o.freq (pitchOf P (pt.op i) o.fixed (noteFreq P req)) (glideSamples pt fs) } := by
  unfold legatoVoice at hp
  rw [mapOps_getElem?, ho] at hp
  exact (Option.some.inj hp).symm

theorem legato_voices_length : (legato P pt req s).voices.length = s.voices.length := by
  simp only [legato, setKey_voices, voices_length_setVoice, clearKey_voices]

theorem voice_legato_zero (h : 0 < s.voices.length) :
    (legato P pt req s).voice 0 = legatoVoice P pt s.fs req (s.voice 0) := by
  simp only [legato, voice_setKey, clearKey_fs, voice_clearKey]
  exact voice_setVoice_same _ _ (by rwa [clearKey_voices])

theorem voice_legato_ne {v : Nat} (h : v ≠ 0) : (legato P pt req s).voice v = s.voice v := by
  simp only [legato, voice_setKey, voice_setVoice_ne _ _ h, voice_clearKey]

theorem keyVoice_legato_same (h : req.key < s.keymap.length) : (legato P pt req s).keyVoice req.key = some 0 :=
  keyVoice_setKey_same _ _ (by rwa [setVoice_keymap, keymap_length_clearKey])

/-- A legato clears the old key and leaves the others, the new one aside. -/
theorem keyVoice_legato_ne {k : Nat} (h : k ≠ req.key) :
    (legato P pt req s).keyVoice k = if (s.voice 0).key = some k then none else s.keyVoice k := by
  simp only [legato, keyVoice_setKey_ne _ _ h, keyVoice_setVoice, keyVoice_clearKey]

/-- Settles O36: a legato clears the old key, writes voice 0 once and binds the new key. -/
theorem legatoKeepsTheSound : Obligations.LegatoKeepsTheSound := by
  unfold Obligations.LegatoKeepsTheSound
  intro P pt req s h0
  dsimp only
  rw [voice_legato_zero h0]
  refine ⟨PoolOnly.legato P pt req s, legato_voices_length, rfl, legatoVoice_ops_length _ _, ?_,
    fun _ => voice_legato_ne, keyVoice_legato_same, ?_, ?_⟩
  · intro i o p ho hp
    obtain rfl := legatoVoice_op s.fs (s.voice 0) ho hp
    exact ⟨rfl, glideTo_zero _ _, glideTo_of_ne_zero _ _⟩
  · intro k hold hk
    rw [keyVoice_legato_ne hk, if_pos hold]
  · intro k hold hk
    rw [keyVoice_legato_ne hk, if_neg hold]

end Sys2Proof.Machine
end

section
/-! PROOFS of the family 43_operator_graph.md (R275 to R277). -/

namespace Sys2Proof.Machine

variable {P : Params} {c : SampleInputs} {i : Nat} {o : Operator}

/-! ### Disabled operators -/

/-- One operator's turn stores one output and leaves a disabled operator `i` alone; its own turn stores +0.0 (R276). -/
theorem operatorStep_of_disabled {j : Nat} {g h : GraphRun} (hi : g.ops[i]? = some o) (ho : o.enabled = false)
    (hstep : operatorStep P c j g = .ok h) :
    h.ops[i]? = some o ∧ ∃ out, h.curMod = g.curMod ++ [out] ∧ (j = i → out = fZero) := by
  rcases operatorStep_cases P c j g with ⟨-, e⟩ | ⟨out, o', hen, -, ⟨-, e⟩ | ⟨-, mixL, mixR, e⟩⟩
  · obtain rfl := Except.ok.inj (e.symm.trans hstep)
    exact ⟨hi, fZero, rfl, fun _ => rfl⟩
  · exact nomatch e.symm.trans hstep
  · obtain rfl := Except.ok.inj (e.symm.trans hstep)
    have hne : j ≠ i := by
      rintro rfl
      rw [List.getD_eq_getElem?_getD, hi, Option.getD_some, ho] at hen
      cases hen
    exact ⟨(List.getElem?_set_ne hne).trans hi, out, rfl, fun hj => absurd hj hne⟩

/-- The turns of `is` append one output each; a disabled operator `i` keeps its record, and each of its turns stores
+0.0 (R276). -/
theorem operatorRun_of_disabled {is : List Nat} {g h : GraphRun} (hi : g.ops[i]? = some o) (ho : o.enabled = false)
    (hrun : operatorRun P c is g = .ok h) :
    h.ops[i]? = some o
      ∧ ∃ outs, h.curMod = g.curMod ++ outs ∧ ∀ n : Nat, is[n]? = some i → outs[n]? = some fZero := by
  induction is generalizing g with
  | nil =>
    obtain rfl := Except.ok.inj hrun
    exact ⟨hi, [], (List.append_nil _).symm, fun n hn => by simp at hn⟩
  | cons j is ih =>
    rw [operatorRun] at hrun
    split at hrun
    case h_1 => cases hrun
    case h_2 g' hstep =>
      obtain ⟨hi', out, hout, hz⟩ := operatorStep_of_disabled hi ho hstep
      obtain ⟨hops, outs, houts, hzs⟩ := ih hi' hrun
      refine ⟨hops, out :: outs, by rw [houts, hout, List.append_assoc, List.singleton_append], fun n hn => ?_⟩
      cases n with
      | zero => exact congrArg some (hz (Option.some.inj hn))
      | succ n => exact hzs n hn

/-- A voice sample that does not fault is a run of the six operators: it keeps their records and stores their outputs
(R260, R275). -/
theorem voiceSample_eq_ok {pt : Patch} {fs : Word} {v w : Voice} {b m l r : F32}
    (h : voiceSample P pt fs v b m = .ok (l, r, w)) :
    ∃ c g, operatorRun P c (List.range 6) ⟨v.ops, [], fZero, fZero⟩ = .ok g ∧ w.ops = g.ops ∧ w.prevMod = g.curMod := by
  unfold voiceSample at h
  dsimp only at h
  split at h
  case h_1 => cases h
  case h_2 g hrun =>
    cases h
    exact ⟨_, g, hrun, rfl, rfl⟩

/-- Settles O38: in the run of the six operators, the turn of operator `i` is the one that stores output `i`. -/
theorem disabledOperatorIsSkipped : Obligations.DisabledOperatorIsSkipped := by
  unfold Obligations.DisabledOperatorIsSkipped
  intro P pt fs v w b m l r i o hlen hok hi ho
  obtain ⟨c, g, hrun, hops, hprev⟩ := voiceSample_eq_ok hok
  obtain ⟨hkeep, outs, houts, hz⟩ := operatorRun_of_disabled hi ho hrun
  have hlt : i < 6 := hlen ▸ (List.getElem?_eq_some_iff.mp hi).1
  refine ⟨hops ▸ hkeep, ?_⟩
  rw [hprev, houts, List.nil_append]
  exact hz i (List.getElem?_range hlt)

/-! ### What an operator reads of the others -/

/-- The feedback term reads the operators for the FB_STATE of the feedback source only (R265). -/
theorem feedbackTerm_congr {ops ops' : List Operator}
    (h : o.fbSrc ≠ 7#3 → (ops.getD o.fbSrc.toNat default).fbState = (ops'.getD o.fbSrc.toNat default).fbState) :
    feedbackTerm P ops o = feedbackTerm P ops' o := by
  unfold feedbackTerm
  split
  case isTrue => rfl
  case isFalse hsrc => rw [h hsrc]

/-- Settles O39: the operators stand in one place of an operator's evaluation, the feedback term. -/
theorem operatorReadsOthersThroughFeedbackOnly : Obligations.OperatorReadsOthersThroughFeedbackOnly := by
  unfold Obligations.OperatorReadsOthersThroughFeedbackOnly
  intro P c ops ops' o h
  have hfb : feedbackTerm P ops { o with feedback := interpSample o.feedback }
      = feedbackTerm P ops' { o with feedback := interpSample o.feedback } := feedbackTerm_congr h
  simp only [operatorOutput, hfb]

end Sys2Proof.Machine
end

section
/-! PROOFS of the family 44_control_units.md: the interpolator's operations (R291 to R294), the envelope's stage machine
(R300 to R307) and its infinite mark (R306). -/

namespace Sys2Proof.Machine

variable {x : Interp} {t : F32} {e : Envelope}

/-! ### The interpolator, step by step -/

theorem setTarget_of_feq (h : feq t x.target = true) (steps : Nat) : setTarget x t steps = x := if_pos h

theorem setTarget_of_feq_false (h : feq t x.target = false) (steps : Nat) :
    setTarget x t steps = ⟨x.cur, t, fdiv (fsub t x.cur) (fofNat steps), steps⟩ :=
  if_neg (ne_true_of_eq_false h)

theorem interpSample_of_remaining_zero (h : x.remaining = 0) : interpSample x = x := if_pos h

theorem interpSample_of_remaining_one (h : x.remaining = 1) :
    interpSample x = ⟨x.target, x.target, x.delta, 0⟩ := by
  simp [interpSample, h]

theorem interpSample_of_two_le (h : 2 ≤ x.remaining) :
    interpSample x = ⟨fadd x.cur x.delta, x.target, x.delta, x.remaining - 1⟩ := by
  have hrun : x.remaining ≠ 0 := by omega
  have hnotLast : x.remaining - 1 ≠ 0 := by omega
  rw [interpSample, if_neg hrun, if_neg hnotLast]

/-- Settles O41: an equation for each operation and case. -/
theorem interpolatorOperations : Obligations.InterpolatorOperations := by
  unfold Obligations.InterpolatorOperations
  intro x t steps
  exact ⟨fun h => setTarget_of_feq h steps, fun h => setTarget_of_feq_false h steps, interpSample_of_remaining_zero,
    interpSample_of_remaining_one, interpSample_of_two_le, rfl⟩

/-! ### The interpolator over several samples -/

/-- Before the last step, the ramp has kept its target and its delta, and each sample has counted down by one. -/
theorem interpSample_iterate_of_lt {j : Nat} (h : j < x.remaining) :
    (interpSample^[j] x).target = x.target ∧ (interpSample^[j] x).delta = x.delta
      ∧ (interpSample^[j] x).remaining = x.remaining - j := by
  induction j with
  | zero => exact ⟨rfl, rfl, rfl⟩
  | succ j ih =>
    obtain ⟨htarget, hdelta, hremaining⟩ := ih (by omega)
    rw [Function.iterate_succ_apply', interpSample_of_two_le (by omega)]
    exact ⟨htarget, hdelta, by rw [hremaining, Nat.sub_sub]⟩

/-- Between, each sample adds the same delta (R294). -/
theorem interpSample_iterate_succ_cur {j : Nat} (h : j + 1 < x.remaining) :
    (interpSample^[j + 1] x).cur = fadd (interpSample^[j] x).cur x.delta := by
  obtain ⟨-, hdelta, hremaining⟩ := interpSample_iterate_of_lt (Nat.lt_of_succ_lt h)
  rw [Function.iterate_succ_apply', interpSample_of_two_le (by omega), hdelta]

/-- The last step of a ramp lands on its target, and no later sample moves it (R294). -/
theorem interpSample_iterate_of_remaining_le {j : Nat} (hrun : 1 ≤ x.remaining) (h : x.remaining ≤ j) :
    interpSample^[j] x = ⟨x.target, x.target, x.delta, 0⟩ := by
  induction j, h using Nat.le_induction with
  | base =>
    obtain ⟨last, hlast⟩ := Nat.exists_eq_add_of_le' hrun
    obtain ⟨htarget, hdelta, hremaining⟩ := interpSample_iterate_of_lt (x := x) (j := last) (by omega)
    rw [hlast, Function.iterate_succ_apply', interpSample_of_remaining_one (by omega), htarget, hdelta]
  | succ j _ ih => rw [Function.iterate_succ_apply', ih, interpSample_of_remaining_zero rfl]

/-- Settles O42: a changed target starts a ramp of n steps, which adds its delta until the n-th, lands and stays. -/
theorem interpolatorReachesTargetExactly : Obligations.InterpolatorReachesTargetExactly := by
  unfold Obligations.InterpolatorReachesTargetExactly
  intro x t n hn hne
  rw [setTarget_of_feq_false hne]
  refine ⟨fun j hj => interpSample_iterate_succ_cur hj, fun j hj => ?_⟩
  rw [interpSample_iterate_of_remaining_le hn hj]

/-! ### The envelope's stage under each operation -/

theorem envStart_stage (P : Params) (p : EnvParams) (fs : Word) (isCarrier : Bool) (kts vs : F32) :
    (envStart P p fs isCarrier kts vs).stage = .delay ∨ (envStart P p fs isCarrier kts vs).stage = .attack := by
  unfold envStart
  dsimp only
  split
  · exact Or.inl rfl
  · exact Or.inr rfl

theorem envSample_of_idle (P : Params) (h : e.stage = .idle) : envSample P e = (fZero, e) := by
  rw [envSample, h]

theorem envSample_of_sustain (P : Params) (h : e.stage = .sustain) : envSample P e = (e.level, e) := by
  rw [envSample, h]

theorem envSample_stage_of_delay (P : Params) (h : e.stage = .delay) :
    (envSample P e).2.stage = if e.delayRemaining - 1 = 0 then .attack else .delay := by
  rw [envSample, h]

/-- In a sounding segment, a sample moves to the next stage exactly when the step is done (R301). -/
theorem envSample_stage_of_segment (P : Params)
    (h : e.stage = .attack ∨ e.stage = .decay ∨ e.stage = .pianoSustain ∨ e.stage = .release) :
    (envSample P e).2.stage
      = if (envStepOf P e.math e.stage e.level e.params.sustain).2 then envNext e.stage else e.stage := by
  have hsegment : envSample P e = envSegment P e := by
    rcases h with h | h | h | h <;> rw [envSample, h]
  rw [hsegment, envSegment]

theorem envStop_of_infinite (h : e.infinite = true) : envStop e = e := if_pos h

theorem envStop_of_idle (h : e.stage = .idle) : envStop e = e := by
  simp [envStop, h]

theorem envStop_stage_of_finite (hfinite : e.infinite = false) (hidle : e.stage ≠ .idle) :
    (envStop e).stage = .release := by
  rw [envStop, if_neg (ne_true_of_eq_false hfinite)]
  split
  case isTrue h => exact h.resolve_left hidle
  case isFalse => rfl

theorem onPianoSustain_stage (P : Params) (fs : Word) (falloff relMul : F32) (e : Envelope) :
    (onPianoSustain P fs falloff relMul e).stage
      = if e.stage = .decay ∨ e.stage = .sustain then .pianoSustain else e.stage := by
  unfold onPianoSustain
  split
  case isTrue h => rcases h with h | h <;> simp [h]
  case isFalse => rfl

/-- Settles O43: R305's table, a clause for each stage and operation. -/
theorem envelopeStageTransitions : Obligations.EnvelopeStageTransitions := by
  unfold Obligations.EnvelopeStageTransitions
  intro P e p fs isCarrier kts vs falloff relMul
  refine ⟨envStart_stage P p fs isCarrier kts vs, ⟨fun h => ?idle, fun h => ?sustain, fun h hcount => ?delay,
    fun h => ?attack, fun h => ?decay, fun h => ?pianoSustain, fun h => ?release⟩,
    ⟨fun h => h.elim envStop_of_infinite envStop_of_idle, envStop_stage_of_finite⟩,
    fun h => ?reshaped, fun hdecay hsustain => ?left⟩
  case idle => rw [envSample_of_idle P h, h]
  case sustain => rw [envSample_of_sustain P h, h]
  case delay =>
    have hlast : e.delayRemaining - 1 = 0 ↔ e.delayRemaining = 1 := by omega
    simp only [envSample_stage_of_delay P h, hlast]
  case attack | decay | pianoSustain | release =>
    rw [envSample_stage_of_segment P (by simp [h]), h]
    rfl
  case reshaped => rw [onPianoSustain_stage, if_pos h]
  case left => rw [onPianoSustain_stage, if_neg (not_or.mpr ⟨hdecay, hsustain⟩)]

/-! ### The infinite mark -/

theorem envStart_infinite_iff (P : Params) (p : EnvParams) (fs : Word) (isCarrier : Bool) (kts vs : F32) :
    (envStart P p fs isCarrier kts vs).infinite = true ↔ isCarrier = false ∧ feq p.release fOne = true := by
  rw [envStart, Bool.and_eq_true, Bool.not_eq_true']

/-- Settles O44: EnvStart sets the mark, EnvStop asks it first, and EnvSample keeps it. -/
theorem infiniteEnvelopeIgnoresStop : Obligations.InfiniteEnvelopeIgnoresStop := by
  unfold Obligations.InfiniteEnvelopeIgnoresStop
  intro P p fs isCarrier kts vs e
  exact ⟨envStart_infinite_iff P p fs isCarrier kts vs, envStop_of_infinite, (envSample_keeps P e).1⟩

end Sys2Proof.Machine
end

section
/-! PROOFS of the family 60_exceptions.md (R331 to R333): what a packet answers on the response port, and what is left
of it once FAULT is set. -/

namespace Sys2Proof.Machine

open Claims

variable {s t : State}

/-- Settles O11: each arm of exec is a next state. -/
theorem everyCommandCompletes : Obligations.EveryCommandCompletes := exec_next

/-! ### A step by its packet -/

theorem opcodeOf_of_assemble {w w1 w2 w3 : Word} {i : Instr} (h : assemble w w1 w2 w3 = some i) :
    opcodeOf i = opcOf w := by
  unfold assemble at h
  split at h <;> cases h <;> rename_i ho <;> exact ho.symm

/-- A step takes one whole packet: a reserved one, or the packet of a command with the header's opcode. -/
theorem step_packet_cases (h : step s = .next t) :
    ∃ header rest, wholePacket s.cmdPort header rest
      ∧ ((reservedHeader header ∧ t = illegalPacket header (taken (rest.drop (lengthOf (opc header) - 1)) s))
        ∨ ∃ i, ¬ reservedHeader header ∧ opcodeOf i = opcOf header
          ∧ exec i (taken (rest.drop (lengthOf (opc header) - 1)) s) = .next t) := by
  obtain ⟨header, rest, hp⟩ := step_next_iff.mp ⟨t, h⟩
  refine ⟨header, rest, hp, ?_⟩
  by_cases hr : reservedHeader header
  · cases (step_of_reservedHeader hp hr).symm.trans h
    exact .inl ⟨hr, rfl⟩
  · obtain ⟨i, hd⟩ := (wholePacketIsCommandUnlessReserved _ _ _ hp).2 hr
    obtain ⟨w, xs, hport, -, -, hi, -⟩ := decode_command_cases hd
    cases hp.1.symm.trans hport
    exact .inr ⟨i, hr, opcodeOf_of_assemble hi, (stepRunsTheDecodedCommand s i _ hd).symm.trans h⟩

/-! ### The words that a packet answers -/

/-- From `s` to `t` the response port takes one word where a response is owed, and none where none is. -/
def Answered (owes : Bool) (s t : State) : Prop :=
  ∃ ws : List Word, t.respPort = s.respPort ++ ws ∧ ws.length = owes.toNat

/-- Whether a command answers a word (30_encoding.md R102): PATCH_READ and STATUS_READ do. -/
def commandAnswers (i : Instr) : Bool := opcodeOf i == 0x08 || opcodeOf i == 0x0A

theorem commandAnswers_eq_owesResponse {i : Instr} {header : Word} (h : opcodeOf i = opcOf header) :
    commandAnswers i = owesResponse header := by
  rw [commandAnswers, h, owesResponse]

theorem commandOwes_eq_commandAnswers {i : Instr} (hi : ∀ a, i ≠ .statusRead a) : commandOwes i = commandAnswers i := by
  cases i with
  | statusRead addr => exact absurd rfl (hi addr)
  | _ => rfl

theorem Answered.of_respPort_eq (h : t.respPort = s.respPort) : Answered false s t :=
  ⟨[], by rw [h, List.append_nil], rfl⟩

theorem Answered.respond (w : Word) (s : State) : Answered true s (respond w s) := ⟨[w], rfl, rfl⟩

theorem Answered.endResponse (owes : Bool) (s : State) : Answered owes s (endResponse owes s) :=
  ⟨_, endResponse_respPort owes s, by cases owes <;> rfl⟩

theorem Answered.raise (code : FaultCode) (owes : Bool) (s : State) : Answered owes s (raise code owes s) :=
  ⟨_, raise_respPort code owes s, by cases owes <;> rfl⟩

theorem illegalPacket_answered (header : Word) (s : State) :
    Answered (owesResponse header) s (illegalPacket header s) :=
  unlessHalted_induct (Answered _ s) (.endResponse _ s) (fun _ => .raise _ _ s)

theorem setSampling_respPort (P : Params) (sr spb : Word) (s : State) :
    (setSampling P sr spb s).respPort = s.respPort := by
  unfold setSampling
  split
  · rfl
  split
  · rfl
  · exact (PoolOnly.forVoices (PoolOnly.fullReset P) _).untouched.respPort

theorem statusRead_answered (P : Params) (addr : Nat) (s : State) : Answered true s (statusRead P addr s) := by
  unfold statusRead
  split
  · exact .respond _ s
  · exact .raise _ true s

/-- A command that runs answers the word of its opcode, whether it succeeds or raises a fault (R331, R332). -/
theorem commandRun_answered (i : Instr) (s : State) : Answered (commandAnswers i) s (commandRun i s) := by
  cases i with
  | noteOn k freq velocity ts => exact .of_respPort_eq (by rw [commandRun, noteOn_frame])
  | noteOff k ts => exact .of_respPort_eq (by rw [commandRun, noteOff_frame])
  | sustain down => exact .of_respPort_eq rfl
  | render n b m a =>
    obtain ⟨-, -, -, -, -, -, hresp, -⟩ := RenderLeaves.render params n b m a s
    exact .of_respPort_eq hresp
  | setSampling sr spb => exact .of_respPort_eq (setSampling_respPort params sr spb s)
  | resetVoices => exact .of_respPort_eq rfl
  | patchWrite addr data =>
    refine .of_respPort_eq ?_
    rw [commandRun, patchWrite]
    split <;> rfl
  | patchRead addr =>
    show Answered true s (patchRead params addr s)
    unfold patchRead
    split
    · exact .raise _ true s
    · exact .respond _ s
  | patchReset => exact .of_respPort_eq rfl
  | statusRead addr => exact statusRead_answered params addr s

/-- A discarded command answers its word too (R332). -/
theorem exec_answered {i : Instr} (h : exec i s = .next t) : Answered (commandAnswers i) s t := by
  by_cases hc : s.fault = .clear
  · cases (exec_of_clear hc i).symm.trans h
    exact commandRun_answered i s
  by_cases hi : ∀ a, i ≠ .statusRead a
  · cases (exec_of_halted hc hi).symm.trans h
    rw [← commandOwes_eq_commandAnswers hi]
    exact .endResponse _ s
  · push Not at hi
    obtain ⟨addr, rfl⟩ := hi
    cases h
    exact statusRead_answered params addr s

/-- Every packet that a step takes answers by its header alone. -/
theorem step_answered {header : Word} {rest : List Word} (hp : s.cmdPort = header :: rest) (h : step s = .next t) :
    Answered (owesResponse header) s t := by
  obtain ⟨w, xs, ⟨hport, -⟩, hcases⟩ := step_packet_cases h
  cases hp.symm.trans hport
  rcases hcases with ⟨-, rfl⟩ | ⟨i, -, hop, he⟩
  · exact illegalPacket_answered header (taken _ s)
  · rw [← commandAnswers_eq_owesResponse hop]
    obtain ⟨ws, hresp, hlen⟩ := exec_answered he
    exact ⟨ws, hresp, hlen⟩

/-- Settles O10: whichever way the packet ends, the response port takes the words its header owes. -/
theorem eachReadPacketAnswersOneWord : Obligations.EachReadPacketAnswersOneWord := by
  unfold Obligations.EachReadPacketAnswersOneWord
  intro s t header rest hp h
  obtain ⟨ws, hresp, hlen⟩ := step_answered hp h
  constructor
  · intro hans
    rw [(owesResponse_eq_true_iff header).mpr hans] at hlen
    obtain ⟨w, rfl⟩ := List.length_eq_one_iff.mp hlen
    exact ⟨w, hresp⟩
  · intro hno
    rw [Bool.eq_false_iff.mpr (mt (owesResponse_eq_true_iff header).mp hno)] at hlen
    rw [hresp, List.length_eq_zero_iff.mp hlen, List.append_nil]

/-! ### Once FAULT is set -/

/-- From `s` to `t` words are appended to the response port and nothing else is written; where `zero` holds, each
is 0. -/
def OnlyAnswers (zero : Prop) (s t : State) : Prop :=
  ∃ ws : List Word, t = { s with respPort := s.respPort ++ ws } ∧ (zero → ∀ w ∈ ws, w = 0)

theorem OnlyAnswers.endResponse (zero : Prop) (owes : Bool) (s : State) :
    OnlyAnswers zero s (endResponse owes s) := by
  cases owes
  · exact ⟨[], by rw [List.append_nil]; rfl, by simp⟩
  · exact ⟨[0], rfl, by simp⟩

theorem statusRead_onlyAnswers (hf : s.fault ≠ .clear) (P : Params) (addr : Nat) :
    OnlyAnswers False s (statusRead P addr s) := by
  unfold statusRead
  split
  · exact ⟨_, rfl, False.elim⟩
  · exact ⟨_, raise_of_halted hf _, False.elim⟩

/-- While HALTED a command only answers, and none but STATUS_READ answers anything but 0 (R332, R333). -/
theorem exec_onlyAnswers (hf : s.fault ≠ .clear) {i : Instr} (h : exec i s = .next t) :
    OnlyAnswers (opcodeOf i ≠ 0x0A) s t := by
  by_cases hi : ∀ a, i ≠ .statusRead a
  · cases (exec_of_halted hf hi).symm.trans h
    exact .endResponse _ _ s
  · push Not at hi
    obtain ⟨addr, rfl⟩ := hi
    cases h
    obtain ⟨ws, ht, -⟩ := statusRead_onlyAnswers hf params addr
    exact ⟨ws, ht, fun hne => absurd rfl hne⟩

/-- While HALTED an illegal packet only answers the 0 it owes (log 12). -/
theorem illegalPacket_onlyAnswers (hf : s.fault ≠ .clear) (zero : Prop) (header : Word) :
    OnlyAnswers zero s (illegalPacket header s) := by
  rw [illegalPacket, unlessHalted_halted _ _ ((halted_iff s).mpr hf)]
  exact .endResponse zero _ s

/-- A packet has at least its header (30_encoding.md R102). -/
theorem drop_lengthOf_cons (o : BitVec 8) (header : Word) (rest : List Word) :
    (header :: rest).drop (lengthOf o) = rest.drop (lengthOf o - 1) := by
  have hpos : 0 < lengthOf o := by
    unfold lengthOf
    split_ifs <;> decide
  obtain ⟨n, hn⟩ := Nat.exists_eq_add_of_lt hpos
  rw [hn, Nat.zero_add]
  rfl

/-- With FAULT set, a step takes its packet and only answers; an answer is 0 unless a STATUS_READ is executed. -/
theorem step_onlyAnswers (hf : s.fault ≠ .clear) (h : step s = .next t) :
    ∃ header rest, wholePacket s.cmdPort header rest
      ∧ OnlyAnswers (opc header = 0x08 ∨ reservedHeader header)
        (taken (s.cmdPort.drop (lengthOf (opc header))) s) t := by
  obtain ⟨header, rest, hp, hcases⟩ := step_packet_cases h
  refine ⟨header, rest, hp, ?_⟩
  have htaken : (taken (rest.drop (lengthOf (opc header) - 1)) s).fault ≠ .clear := hf
  rw [hp.1, drop_lengthOf_cons]
  rcases hcases with ⟨-, rfl⟩ | ⟨i, hr, hop, he⟩
  · exact illegalPacket_onlyAnswers htaken _ header
  · obtain ⟨ws, ht, hzero⟩ := exec_onlyAnswers htaken he
    refine ⟨ws, ht, fun hread => hzero ?_⟩
    have h8 : opcOf header = 0x08 := (opc_eq_iff header 0x08).mp (hread.resolve_right hr)
    rw [hop, h8]
    decide

/-- Settles O9: what a step appends is all it writes, and how many words it appends is its header's matter. -/
theorem firstFaultIsKeptForever : Obligations.FirstFaultIsKeptForever := by
  unfold Obligations.FirstFaultIsKeptForever
  intro s t hf h
  obtain ⟨header, rest, hp, ws, rfl, hzero⟩ := step_onlyAnswers hf h
  obtain ⟨hone, hnone⟩ := eachReadPacketAnswersOneWord s _ header rest hp.1 h
  have hsingle : answers header → ∃ w, ws = [w] := fun hans =>
    (hone hans).imp fun _ hw => List.append_cancel_left hw
  have hempty : ¬ answers header → ws = [] := fun hno => List.append_right_eq_self.mp (hnone hno)
  refine ⟨header, rest, ws, hp, rfl, ?_, hempty, fun hans hread => ?_⟩
  · by_cases hans : answers header
    · obtain ⟨w, rfl⟩ := hsingle hans
      exact Nat.le_refl 1
    · rw [hempty hans]
      exact Nat.zero_le 1
  · obtain ⟨w, rfl⟩ := hsingle hans
    rw [hzero hread w (List.mem_singleton_self w)]

end Sys2Proof.Machine
end

section
/-! PROOFS of the family 70_reset_and_hazards.md: the power-on state (R360), and what moves a voice outside RENDER and
SET_SAMPLING (R366, 41_lifecycle.md R182). -/

namespace Sys2Proof.Machine

variable {s t : State}

/-! ### Power-on -/

/-- Settles O56: the pool is copies of one record and the patch RAM lists nothing, so each reads as its default. -/
theorem resetIsPowerOnState : Obligations.ResetIsPowerOnState := by
  unfold Obligations.ResetIsPowerOnState
  intro s
  refine ⟨rfl, rfl, rfl, rfl, rfl, rfl, rfl, rfl, rfl, rfl, rfl, ?controls, List.length_replicate, ?pool,
    rfl, rfl, rfl, rfl, rfl, readWord_nil params, rfl, rfl, rfl⟩
  case controls => exact fun x hx => List.eq_of_mem_replicate (n := 5) (a := interpZero) hx
  case pool =>
    intro v hv
    obtain rfl : v = voicePowerOn params := List.eq_of_mem_replicate hv
    refine ⟨rfl, rfl, rfl, rfl, rfl, rfl, rfl, rfl, rfl, ?envelopes, ?oscillators, ?operators⟩
    case envelopes => exact fun e he => List.eq_of_mem_replicate (n := 2) (a := envIdle params) he
    case oscillators => exact fun o ho => List.eq_of_mem_replicate (n := 3) (a := oscPowerOn params) ho
    case operators =>
      intro o ho
      obtain rfl : o = operatorPowerOn params := List.eq_of_mem_replicate (n := 6) ho
      exact ⟨rfl, rfl, rfl, rfl, rfl, rfl, rfl, rfl, rfl, rfl, rfl, rfl, rfl, rfl, rfl, rfl, rfl,
        fun x hx => List.eq_of_mem_replicate (n := 5) (a := interpZero) hx, rfl⟩

/-! ### One voice released and unbound -/

theorem voice_eq_of_voices (h : t.voices = s.voices) (v : Nat) : t.voice v = s.voice v := by
  rw [State.voice, h, ← State.voice]

/-- The pool after ReleaseAndUnbind (42_voice_ops.md R246). -/
theorem voice_releaseAndUnbind (v : Nat) (s : State) (u : Nat) :
    (releaseAndUnbind v s).voice u =
      if u = v ∧ v < s.voices.length then
        if (s.voice v).state = .playing then unbound .releasing (releaseVoice (s.voice v))
        else unbound (s.voice v).state (s.voice v)
      else s.voice u := by
  unfold releaseAndUnbind
  dsimp only
  rw [voice_clearKey, voice_setVoice_any]
  split_ifs <;> rfl

/-- ReleaseAndUnbind moves its voice alone. -/
theorem voice_releaseAndUnbind_of_ne {u v : Nat} (h : u ≠ v) (s : State) :
    (releaseAndUnbind v s).voice u = s.voice u := by
  rw [voice_releaseAndUnbind, if_neg fun hv => h hv.1]

/-- ReleaseAndUnbind changes a state from Playing to Releasing or not at all (41_lifecycle.md R182). -/
theorem state_releaseAndUnbind_cases (v : Nat) (s : State) (u : Nat) :
    ((releaseAndUnbind v s).voice u).state = (s.voice u).state
      ∨ ((s.voice u).state = .playing ∧ ((releaseAndUnbind v s).voice u).state = .releasing) := by
  rw [voice_releaseAndUnbind]
  split_ifs with hu hp
  · obtain ⟨rfl, -⟩ := hu
    exact .inr ⟨hp, rfl⟩
  · obtain ⟨rfl, -⟩ := hu
    exact .inl rfl
  · exact .inl rfl

/-! ### What a command does to the pool -/

theorem noteOnMono_voices (k : Nat) (f vel : F32) (ts : Word) (retrig : Bool) (s : State) :
    (noteOnMono k f vel ts retrig s).voices = s.voices := by
  unfold noteOnMono
  split <;> rfl

/-- The polyphonic NOTE_ON moves a voice only where its key is bound (40_host_commands.md R141). -/
theorem noteOnPoly_voices_cases (k : Nat) (f vel : F32) (ts : Word) (s : State) :
    (noteOnPoly k f vel ts s).voices = s.voices
      ∨ ∃ v, s.keyVoice k = some v ∧ (noteOnPoly k f vel ts s).voices = (releaseAndUnbind v s).voices := by
  unfold noteOnPoly
  split
  · exact .inl rfl
  · dsimp only
    split
    · exact .inl rfl
    · next v hk => exact .inr ⟨v, hk, rfl⟩

/-- NOTE_ON moves a voice only in Poly, and only where its key is bound (R141, R142). -/
theorem noteOn_voices_cases (k : Nat) (f vel : F32) (ts : Word) (s : State) :
    (noteOn k f vel ts s).voices = s.voices
      ∨ (s.mode = .poly
        ∧ ∃ v, s.keyVoice k = some v ∧ (noteOn k f vel ts s).voices = (releaseAndUnbind v s).voices) := by
  by_cases hl : queuedLegal (flush f) (flush vel)
  · cases hm : s.mode with
    | mono =>
      rw [noteOn_of_mono hl hm]
      exact .inl (noteOnMono_voices k _ _ ts false s)
    | poly =>
      rw [noteOn_of_poly hl hm]
      exact (noteOnPoly_voices_cases k _ _ ts s).imp_right fun h => ⟨rfl, h⟩
  · rw [noteOn_of_illegal hl, raise_voices]
    exact .inl rfl

/-- Every other command that runs leaves the pool, except RENDER and SET_SAMPLING. -/
theorem commandRun_voices {i : Instr} (hnote : ∀ k f vel ts, i ≠ .noteOn k f vel ts)
    (hrender : ∀ n b m a, i ≠ .render n b m a) (hsampling : ∀ sr spb, i ≠ .setSampling sr spb) (s : State) :
    (commandRun i s).voices = s.voices := by
  cases i with
  | noteOn k f vel ts => exact absurd rfl (hnote k f vel ts)
  | render n b m a => exact absurd rfl (hrender n b m a)
  | setSampling sr spb => exact absurd rfl (hsampling sr spb)
  | noteOff k ts => rw [commandRun, noteOff_frame]
  | sustain down => rfl
  | resetVoices => rfl
  | patchReset => rfl
  | patchWrite addr data =>
    rw [commandRun, patchWrite]
    split
    · exact raise_voices .badAddress false s
    · rfl
  | patchRead addr =>
    rw [commandRun, patchRead]
    split
    · exact raise_voices .badAddress true s
    · rfl
  | statusRead addr =>
    rw [commandRun, statusRead]
    split
    · rfl
    · exact raise_voices .badAddress true s

/-- All that a command other than RENDER and SET_SAMPLING does to the pool, HALTED or not. -/
theorem exec_voices_cases {i : Instr} (h : exec i s = .next t) (hrender : ∀ n b m a, i ≠ .render n b m a)
    (hsampling : ∀ sr spb, i ≠ .setSampling sr spb) :
    t.voices = s.voices
      ∨ ∃ k f vel ts v, i = .noteOn k f vel ts ∧ s.mode = .poly ∧ s.keyVoice k = some v
        ∧ t.voices = (releaseAndUnbind v s).voices := by
  by_cases hc : s.fault = .clear
  · cases (exec_of_clear hc i).symm.trans h
    by_cases hnote : ∀ k f vel ts, i ≠ .noteOn k f vel ts
    · exact .inl (commandRun_voices hnote hrender hsampling s)
    · push Not at hnote
      obtain ⟨k, f, vel, ts, rfl⟩ := hnote
      exact (noteOn_voices_cases k f vel ts s).imp_right fun ⟨hm, v, hk, hv⟩ => ⟨k, f, vel, ts, v, rfl, hm, hk, hv⟩
  · obtain ⟨ws, rfl, -⟩ := exec_onlyAnswers hc h
    exact .inl rfl

/-- Settles O21: the pool is left, or it is the pool after ReleaseAndUnbind of the voice that holds the key. -/
theorem onlyRenderMovesVoices : Obligations.OnlyRenderMovesVoices := by
  unfold Obligations.OnlyRenderMovesVoices
  intro s t i h hrender hsampling u
  rcases exec_voices_cases h hrender hsampling with hv | ⟨k, f, vel, ts, v, rfl, hm, hk, hv⟩
  · rw [voice_eq_of_voices hv]
    exact ⟨.inl rfl, .inl rfl⟩
  · rw [voice_eq_of_voices hv]
    refine ⟨?_, state_releaseAndUnbind_cases v s u⟩
    by_cases hu : u = v
    · subst hu
      exact .inr ⟨hm, k, f, vel, ts, rfl, hk⟩
    · exact .inl (voice_releaseAndUnbind_of_ne hu s)

end Sys2Proof.Machine
end
